-- ==== Sys2Proof/Word.lean ====
section
/-! DEFINITION. The widths of the block: bytes and symbols (rule R2), register words (rule R7, `REGW`), the
staging register (`CODEW`), and the codeword field of a table entry and of the accumulator (`LMAX` bits). -/

namespace Sys2Proof

/-- A symbol, a data byte or an output byte: 8 bits (rules R2 and R7, `SYMW`). -/
abbrev Byte := BitVec 8

/-- The value of one register access, and a command word: 32 bits (rules R7 `REGW`, R90). -/
abbrev Word := BitVec 32

/-- The staging register `CODE`: 256 bits (rules R7 `CODEW`, R27). -/
abbrev Staging := BitVec 256

/-- A codeword or an accumulator, right-aligned: `LMAX` = 255 bits (rules R7, R23, R35). A smaller `LMAX`, which
the shared operations take as an argument, bounds the value held and not this width. -/
abbrev CodeBits := BitVec 255

end Sys2Proof
end

