-- ==== Sys2Proof/Machine/HostOp.lean ====
section
/-! DEFINITION. What the host can do to the block: register reads, register writes and hardware reset (rules R9,
R10), the register map that an offset is looked up in (rule R61), and the checks on an access (rule R64). -/

namespace Sys2Proof.Machine

/-- One host operation (rules R9, R14). `bytes` is the width of the access in bytes and `off` the byte offset from
`BASE`. Both are unrestricted here, so that a reserved access (rule R64) can be written down and refused. -/
inductive HostOp where
  /-- `RegRead(off)`. -/
  | read (bytes off : Nat)
  /-- `RegWrite(off, v)`. A write to `CMD` executes `v` as a command. -/
  | write (bytes off : Nat) (v : Word)
  /-- Hardware reset (rules R230, R231). -/
  | reset
deriving DecidableEq, Repr

/-- The registers of the map of rule R61. -/
inductive Reg where
  | cmd
  | status
  | err
  | errInfo
  | pad
  | cap
  /-- `CODEk`, `k = 0..7`. -/
  | codeWord (k : Fin 8)
deriving DecidableEq, Repr

/-- The register map (rule R61): what stands at a byte offset, `none` for the reserved offsets of rule R64. -/
def regAt (off : Nat) : Option Reg :=
  match off with
  | 0x00 => some .cmd
  | 0x04 => some .status
  | 0x08 => some .err
  | 0x0C => some .errInfo
  | 0x10 => some .pad
  | 0x14 => some .cap
  | 0x20 => some (.codeWord 0)
  | 0x24 => some (.codeWord 1)
  | 0x28 => some (.codeWord 2)
  | 0x2C => some (.codeWord 3)
  | 0x30 => some (.codeWord 4)
  | 0x34 => some (.codeWord 5)
  | 0x38 => some (.codeWord 6)
  | 0x3C => some (.codeWord 7)
  | _ => none

/-- Every register access is 32 bits wide (rule R64). -/
def widthOk (bytes : Nat) : Bool := bytes == 4

/-- Every register access is at an offset that is a multiple of 4 (rule R64). -/
def alignedOk (off : Nat) : Bool := off % 4 == 0

/-- The offset is in the map of rule R61. -/
def mappedOk (off : Nat) : Bool := (regAt off).isSome

end Sys2Proof.Machine
end

