-- ==== Sys2Proof/Syntax.lean ====
section
/-! DEFINITION. The ten commands of the opcode map (rule R92), one constructor per row of spec/opcode_table.json. -/

namespace Sys2Proof

/-- A command of the block, written by the host to `CMD` as one 32-bit word (rule R90). Operands are the fields
`A` and `B`, unsigned and taken as they stand (rule R91). -/
inductive Instr where
  /-- `NOP` (rule R156). -/
  | nop
  /-- `RST`, soft reset (rule R157). -/
  | rst
  /-- `CT.CLR`, clear the code table (rule R111). -/
  | ctClr
  /-- `CT.SET sym, len`, write one table entry from `CODE` (rule R112). -/
  | ctSet (sym : Byte) (len : BitVec 8)
  /-- `ENC.START`, open an encode session (rule R121). -/
  | encStart
  /-- `ENC.SYM sym`, append the codeword of a symbol (rule R122). -/
  | encSym (sym : Byte)
  /-- `ENC.FIN`, pad, flush and close the session (rule R123). -/
  | encFin
  /-- `DEC.START`, open a decode session (rule R137). -/
  | decStart
  /-- `DEC.BYTE byte`, feed the next byte of the payload segment (rule R138). -/
  | decByte (byte : Byte)
  /-- `DEC.FIN`, decode the last byte, check for leftovers, close the session (rule R139). -/
  | decFin
deriving DecidableEq, Repr

end Sys2Proof
end

