-- ==== Sys2Proof/WellFormed.lean ====
section
/-! DEFINITION. Which terms the hardware gives a meaning to. Every command term has an encoding, since its operand
types are the fields' own widths (rules R91, R94), so the checks that can fail are those on host operations (rule R64). -/

namespace Sys2Proof

/-- A command is well formed when its operands fit the fields `A` and `B` of the command word (rule R90). The
operand types are those fields' widths, so every term is, and there is no ill-formed command. Operand values that a
command refuses are not ill-formed: they raise causes of their own (rule R94). -/
def Instr.wellFormed : Instr → Bool
  | .nop => true
  | .rst => true
  | .ctClr => true
  | .ctSet _ _ => true
  | .encStart => true
  | .encSym _ => true
  | .encFin => true
  | .decStart => true
  | .decByte _ => true
  | .decFin => true

namespace Machine

/-- The three checks of rule R64 on an access. Reset has no operand. -/
def HostOp.wellFormed : HostOp → Bool
  | .read bytes off => widthOk bytes && alignedOk off && mappedOk off
  | .write bytes off _ => widthOk bytes && alignedOk off && mappedOk off
  | .reset => true

end Machine
end Sys2Proof
end

