-- ==== Sys2Proof/Decode.lean ====
section
/-! DEFINITION. The decoder of command words (rule R95), total on all 32-bit words and rejecting the illegal ones
(rule R93), the encoder (rule R101), and the opcode map with its match and mask columns (rule R92). -/

namespace Sys2Proof

/-- Operand field `A` of a command word: bits 15 to 8 (rules R90, R91). -/
def fieldA (w : Word) : Byte := w.extractLsb' 8 8

/-- Operand field `B` of a command word: bits 23 to 16 (rules R90, R91). -/
def fieldB (w : Word) : BitVec 8 := w.extractLsb' 16 8

/-- `Decode(w)` of rule R95. `none` is `ILLEGAL`. -/
def decodeWord (w : Word) : Option Instr :=
  if w = 0x00000000#32 then some .nop
  else if w = 0x00000001#32 then some .rst
  else if w = 0x00000010#32 then some .ctClr
  else if w &&& 0xFF0000FF#32 = 0x00000011#32 then some (.ctSet (fieldA w) (fieldB w))
  else if w = 0x00000020#32 then some .encStart
  else if w &&& 0xFFFF00FF#32 = 0x00000021#32 then some (.encSym (fieldA w))
  else if w = 0x00000022#32 then some .encFin
  else if w = 0x00000030#32 then some .decStart
  else if w &&& 0xFFFF00FF#32 = 0x00000031#32 then some (.decByte (fieldA w))
  else if w = 0x00000032#32 then some .decFin
  else none

/-- An 8-bit operand placed at bit `n` of a command word (rule R101). -/
def placeAt (n : Nat) (v : BitVec 8) : Word := v.setWidth 32 <<< n

/-- The word written to `CMD` for a command (rule R101). -/
def encode : Instr → Word
  | .nop => 0x00000000#32
  | .rst => 0x00000001#32
  | .ctClr => 0x00000010#32
  | .ctSet sym len => 0x00000011#32 ||| placeAt 8 sym ||| placeAt 16 len
  | .encStart => 0x00000020#32
  | .encSym sym => 0x00000021#32 ||| placeAt 8 sym
  | .encFin => 0x00000022#32
  | .decStart => 0x00000030#32
  | .decByte byte => 0x00000031#32 ||| placeAt 8 byte
  | .decFin => 0x00000032#32

/-- The `match` and `mask` columns of rule R92, in the table's order. -/
def opcodeMap : List (Word × Word) :=
  [ (0x00000000#32, 0xFFFFFFFF#32),
    (0x00000001#32, 0xFFFFFFFF#32),
    (0x00000010#32, 0xFFFFFFFF#32),
    (0x00000011#32, 0xFF0000FF#32),
    (0x00000020#32, 0xFFFFFFFF#32),
    (0x00000021#32, 0xFFFF00FF#32),
    (0x00000022#32, 0xFFFFFFFF#32),
    (0x00000030#32, 0xFFFFFFFF#32),
    (0x00000031#32, 0xFFFF00FF#32),
    (0x00000032#32, 0xFFFFFFFF#32) ]

/-- A command word is legal if and only if it matches a row of the opcode map (rule R93). -/
def legalWord (w : Word) : Bool := opcodeMap.any fun row => w &&& row.2 == row.1

/-- The instruction the decoder reads from a word whose low `nbits` bits are those of `w` and whose other bits are 0.
Every command is one 32-bit word that the port moves whole (rules R72, R90), so the word's bits are the table's. -/
def decodeTableWord (nbits w : Nat) : Option Instr :=
  if nbits ≤ 32 then decodeWord (BitVec.ofNat 32 (w % 2 ^ nbits)) else none

end Sys2Proof
end

