-- ==== Sys2Proof/Config.lean ====
section
/-! DEFINITION. What an implementation of the block fixes (rule R7). The sink's schedule is data in the state
(notes/assumptions/3.md), and `BASE` is used by no rule (rule R61), so offsets alone are modelled. -/

namespace Sys2Proof.Config

/-- `LMAX`, the greatest codeword length of this hardware: 255 (rule R7, decision D3). The shared operations take
`lmax` as an argument, as rule R7 asks, and the machine's `exec` and `step` use this value. -/
def LMAX : Nat := 255

/-- The range rule R7 gives the parameter: `1 <= LMAX <= 255`. -/
abbrev legalLmax (lmax : Nat) : Prop := 1 ≤ lmax ∧ lmax ≤ 255

end Sys2Proof.Config
end

