-- ==== Sys2Proof/Machine/State.lean ====
section
/-! DEFINITION. The block's architectural state (rule R20), the record of its output and the world at its port, the
reasons a step can stop, and the state after reset (rules R39, R231). -/

namespace Sys2Proof.Machine

/-- `MODE` (rule R22): the only sequencing state, since the block has no program counter (rule R21). -/
inductive Mode where
  /-- No session; the table may be written. -/
  | idle
  /-- An encode session is open. -/
  | enc
  /-- A decode session is open. -/
  | dec
  /-- A fault was raised and not yet cleared by `RST`. -/
  | fault
deriving DecidableEq, Repr

/-- The fault causes of rule R201. These are the block's own faults, which it enters as a next state (rule R204). -/
inductive Cause where
  /-- The word matches no row of the opcode map. -/
  | illCmd
  /-- The command is not permitted in the current `MODE`. -/
  | seq
  /-- `CT.SET` with a length above `LMAX`. -/
  | len
  /-- `CT.SET` with a staged value of more than `len` bits. -/
  | code
  /-- `ENC.SYM` of a symbol without a codeword. -/
  | noCode
  /-- The padding header byte is above 7. -/
  | padHdr
  /-- `DEC.FIN` without a header, or with padding promised and no payload byte. -/
  | trunc
  /-- `DEC.FIN` with bits left in the accumulator. -/
  | unmatched
  /-- A bit arrives while `ACCLEN = LMAX`. -/
  | accOvf
deriving DecidableEq, Repr

/-- One entry of the code table (rule R23): the codeword's length, 0 for "no codeword", and the codeword as a
right-aligned number. -/
structure Entry where
  len  : BitVec 8
  code : CodeBits
deriving DecidableEq, Repr

/-- The whole state of the block, element by element as rule R20 lists it. -/
structure Block where
  /-- `MODE`, 2 bits. -/
  mode    : Mode
  /-- `CT[0..255]`, the code table, indexed by symbol. -/
  ct      : Vector Entry 256
  /-- `CODE = (CODE7, ..., CODE0)`, 256 bits. -/
  code    : Staging
  /-- `DONE`. -/
  done    : Bool
  /-- `PAD`, 3 bits. -/
  pad     : BitVec 3
  /-- `ERR.CAUSE`, 4 bits, 0 for none. -/
  err     : BitVec 4
  /-- `ERRINFO`, the command word that faulted. -/
  errInfo : Word
  /-- `NB`, the number of pending encoder bits. -/
  nb      : BitVec 3
  /-- `BB`, the pending encoder bits, left-aligned. -/
  bb      : Byte
  /-- `HDR`, the decoder has received the padding header. -/
  hdr     : Bool
  /-- `DPAD`, the padding count given by the header. -/
  dpad    : BitVec 3
  /-- `HOLDV`, `HOLD` holds a payload byte not yet decoded. -/
  holdV   : Bool
  /-- `HOLD`, the held payload byte. -/
  hold    : Byte
  /-- `ACCLEN`, the number of accumulated decoder bits. -/
  accLen  : BitVec 8
  /-- `ACC`, the accumulated decoder bits, right-aligned. -/
  acc     : CodeBits
deriving DecidableEq, Repr

/-- The closed system: the block, the record of its output stream (rule R37), and the world at its two ports. The last
five fields are not state of the block, which is `Block` alone (rules R20, R40): `out` is the record `OUT`, and the
others carry the host and the sink as plain data, since the host interface's `step` takes a state alone. The block's own
step, `blockStep`, takes the host operation as its input and sees none of them (notes/assumptions/1.md to 5.md and 10.md). -/
structure State extends Block where
  /-- `OUT`: every byte the block has put on its output port since launch, oldest first (rule R37). No step takes a
  byte out of it. -/
  out     : List Byte
  /-- The bytes that the command in progress has emitted and the sink has not accepted yet, oldest first. They reach
  `out` as the sink accepts them, and a reset discards them (rules R68, R230; notes/assumptions/10.md). -/
  leaving : List Byte
  /-- The sink's coming answers to an offered byte; after the last one it accepts every byte (rule R82). -/
  sink    : List Bool
  /-- The host operations to come, in the order the host issues them (rule R75). -/
  pending : List HostOp
  /-- The values the host's register reads have returned, oldest first (rule R62). -/
  reads   : List Word
deriving DecidableEq, Repr

/-- The result of one step of the block on a host operation (rules R9, R40): the block after it, the bytes it appends to
`OUT`, and the value it returns to the host if it is a register read. -/
structure StepResult where
  block   : Block
  emitted : List Byte
  read    : Option Word
deriving DecidableEq, Repr

/-- The reasons the machine stops with a fault: none. The block's faults are entries to `MODE = FAULT`, after which it
goes on (rule R204), and every check of rule R201 is one of those. -/
inductive Fault
deriving DecidableEq, Repr

/-- The reasons the machine refuses a step. -/
inductive Refusal where
  /-- Raised by an arm of `exec` whose instruction has no meaning yet; no arm does. Safe. -/
  | notModelled (mnemonic : String)
  /-- Raised by the register port for an access that is not 4 bytes wide (rule R64). Safe: the spec refuses it. -/
  | reservedWidth (bytes : Nat)
  /-- Raised by the register port for an offset that is not a multiple of 4 (rule R64). Safe: the spec refuses it. -/
  | misalignedOffset (off : Nat)
  /-- Raised by the register port for an offset outside the map (rule R64). Safe: the spec refuses it. -/
  | unmappedOffset (off : Nat)
deriving DecidableEq, Repr

/-- The empty entry: no codeword (rule R39). -/
def Entry.empty : Entry := { len := 0#8, code := 0#255 }

/-- Every element of rule R20 at its reset value, which is 0 throughout (rule R39). -/
def Block.reset : Block :=
  { mode := .idle, ct := Vector.replicate 256 Entry.empty, code := 0#256, done := false, pad := 0#3, err := 0#4,
    errInfo := 0#32, nb := 0#3, bb := 0#8, hdr := false, dpad := 0#3, holdV := false, hold := 0#8, accLen := 0#8,
    acc := 0#255 }

/-- The launch state: the result of reset with `OUT` empty (rule R231), no host operation issued yet, and a sink that
is always ready. -/
def State.reset : State :=
  { toBlock := Block.reset, out := [], leaving := [], sink := [], pending := [], reads := [] }

/-- The block by itself: nothing recorded yet, no host operation to come and no sink that refuses. -/
def Block.alone (b : Block) : State := { State.reset with toBlock := b }

end Sys2Proof.Machine
end

