-- ==== Sys2Proof/Machine/Operands.lean ====
section
/-! DEFINITION. The operand forms: bit strings and their values (rule R13), bytes as bits (rule R70), the staging
register and its words (rules R27, R91), and table entries by symbol (rule R66). -/

namespace Sys2Proof.Machine

/-- `bits_n(v)` of rule R13: the bit string of length `n` whose value is `v`, first bit most significant. -/
def bitString (n v : Nat) : List Bool := (List.range n).map fun i => v.testBit (n - 1 - i)

/-- `val(s)` of rule R13. -/
def bitValue (s : List Bool) : Nat := s.foldl (fun v b => 2 * v + b.toNat) 0

/-- `bits_8(b)`: the eight bits a byte carries, bit 7 first (rule R70). -/
def byteBits (b : Byte) : List Bool := bitString 8 b.toNat

/-- The bits a byte sequence carries, in order (rule R71). -/
def streamBits (bs : List Byte) : List Bool := bs.flatMap byteBits

/-- The codeword of an entry as a bit string: `bits_L(code)` (rule R23). -/
def Entry.bits (e : Entry) : List Bool := bitString e.len.toNat e.code.toNat

/-- Entry `CT[s]` (rule R66): every index exists. -/
def entryAt (ct : Vector Entry 256) (sym : Byte) : Entry := ct[sym.toNat]

/-- The table with entry `CT[s]` replaced (rule R66). -/
def setEntry (ct : Vector Entry 256) (sym : Byte) (e : Entry) : Vector Entry 256 := ct.set sym.toNat e

/-- `CODEk = CODE[32k+31 : 32k]` (rule R27). -/
def codeWordOf (code : Staging) (k : Fin 8) : Word := code.extractLsb' (32 * k.val) 32

/-- `CODE` with `CODE[32k+31 : 32k] <- v` (rule R63). -/
def setCodeWord (code : Staging) (k : Fin 8) (v : Word) : Staging :=
  (code &&& ~~~((BitVec.allOnes 32).setWidth 256 <<< (32 * k.val))) ||| (v.setWidth 256 <<< (32 * k.val))

end Sys2Proof.Machine
end

