-- ==== Sys2Proof/Machine/Flags.lean ====
section
/-! DEFINITION. The codes of `MODE` and `ERR.CAUSE`, the flags and the read-only register views (rules R22, R28 to
R33, R201). -/

namespace Sys2Proof.Machine

/-- The two bits of `MODE` (rule R22). -/
def Mode.bits : Mode → BitVec 2
  | .idle => 0#2
  | .enc => 1#2
  | .dec => 2#2
  | .fault => 3#2

/-- The cause codes of rule R201. -/
def Cause.bits : Cause → BitVec 4
  | .illCmd => 1#4
  | .seq => 2#4
  | .len => 3#4
  | .code => 4#4
  | .noCode => 5#4
  | .padHdr => 8#4
  | .trunc => 9#4
  | .unmatched => 10#4
  | .accOvf => 11#4

/-- The causes in the class MalformedContainer (rules R201, R202). -/
def Cause.malformedContainer : Cause → Bool
  | .illCmd => false
  | .seq => false
  | .len => false
  | .code => false
  | .noCode => false
  | .padHdr => true
  | .trunc => true
  | .unmatched => true
  | .accOvf => true

/-- The value of `STATUS` (rules R29, R62): `HOLD`, five zero bits, `DPAD`, `ACCLEN`, `NB`, `HOLDV`, `HDR`, `DONE`,
`MODE`. -/
def statusView (b : Block) : Word :=
  b.hold ++ 0#5 ++ b.dpad ++ b.accLen ++ b.nb ++ BitVec.ofBool b.holdV ++ BitVec.ofBool b.hdr ++
    BitVec.ofBool b.done ++ b.mode.bits

/-- The value of `ERR` (rules R30, R62). -/
def errView (b : Block) : Word := b.err.setWidth 32

/-- The value of `PAD` (rules R31, R62). -/
def padView (b : Block) : Word := b.pad.setWidth 32

/-- The value of `CAP` (rules R33, R62): a constant of the implementation. -/
def capView (lmax : Nat) : Word := BitVec.ofNat 32 lmax

/-- `RegRead` of a register of the map (rule R62). -/
def regView (lmax : Nat) (r : Reg) (b : Block) : Word :=
  match r with
  | .cmd => 0#32
  | .status => statusView b
  | .err => errView b
  | .errInfo => b.errInfo
  | .pad => padView b
  | .cap => capView lmax
  | .codeWord k => codeWordOf b.code k

end Sys2Proof.Machine
end

