-- ==== Sys2Proof/Machine/Ops.lean ====
section
/-! DEFINITION. The operations the commands share: fault entry and the return from a fault (rules R157, R204), the
order of checks (rules R96, R206), output (rule R68), the table's inverse lookup (rule R67), the barrel shifter (rule
R122) and the decoder's bit step (rule R136). -/

namespace Sys2Proof.Machine

/-- `raise Fault(c)` while the command word `w` executes (rule R204). It writes these three elements and nothing
else, and its callers return its result, so the step ends. -/
def raiseFault (c : Cause) (w : Word) (s : State) : State :=
  { s with err := c.bits, errInfo := w, mode := .fault }

/-- Soft reset (rules R157, R208): every element takes its reset value except the table. It is the return from a
fault, and it leaves `OUT` alone. -/
def softReset (s : State) : State := { s with toBlock := { Block.reset with ct := s.ct } }

/-- Hardware reset (rules R230, R231): the constant state of rule R39, with `OUT` unchanged. A byte of a command in
progress that was not yet handed to the sink is never handed over and never reaches `OUT`. -/
def hardReset (s : State) : State := { s with toBlock := Block.reset, leaving := [] }

/-- Which command is permitted in which `MODE` outside `FAULT` (rule R158). The `FAULT` column is in `issue`. -/
def permittedIn (i : Instr) (m : Mode) : Bool :=
  match i with
  | .nop => true
  | .rst => true
  | .ctClr => m == .idle
  | .ctSet _ _ => m == .idle
  | .encStart => m == .idle
  | .encSym _ => m == .enc
  | .encFin => m == .enc
  | .decStart => m == .idle
  | .decByte _ => m == .dec
  | .decFin => m == .dec

/-- The checks every command but `NOP` and `RST` begins with, in the order of rules R96 and R206: in `FAULT` it is
ignored, in a mode that does not permit it it raises `SEQ`, and otherwise its own effect follows. -/
def issue (i : Instr) (effect : State → State) (s : State) : Host.Outcome State Fault Refusal :=
  if s.mode = .fault then .next s
  else if permittedIn i s.mode then .next (effect s)
  else .next (raiseFault .seq (encode i) s)

/-- `Emit` of several bytes in order (rules R14, R68). -/
def emit (bs : List Byte) (s : State) : State := { s with out := s.out ++ bs }

/-- The bytes that follow in `OUT` after those of the state `s`. -/
def emittedSince (s t : State) : List Byte := t.out.drop s.out.length

/-- `Lookup(acc, n)` (rule R67): the lowest-numbered symbol whose entry has this length and these bits. -/
def lookup (ct : Vector Entry 256) (acc : CodeBits) (n : BitVec 8) : Option Byte :=
  (ct.toList.findIdx? fun e => e.len == n && e.code == acc).map (BitVec.ofNat 8)

/-- The `NB` pending bits as a number, `P` of rule R122. -/
def pendingValue (nb : BitVec 3) (bb : Byte) : Nat := bb.toNat / 2 ^ (8 - nb.toNat)

/-- `V` of rule R122: the pending bits, then the codeword `c` of length `l`. -/
def barrelValue (nb : BitVec 3) (bb : Byte) (l c : Nat) : Nat := pendingValue nb bb * 2 ^ l + c

/-- The bytes rule R122 emits from the `t`-bit number `v`: byte `i` is `V[T-1-8i : T-8-8i]`. -/
def barrelBytes (t v : Nat) : List Byte :=
  (List.range (t / 8)).map fun i => BitVec.ofNat 8 (v / 2 ^ (t - 8 - 8 * i))

/-- The barrel shifter (rule R122): append the `l`-bit codeword `c` to the pending bits, emit whole bytes, keep the
rest left-aligned. -/
def appendBits (l c : Nat) (s : State) : State :=
  let t := s.nb.toNat + l
  let v := barrelValue s.nb s.bb l c
  let r := t % 8
  { emit (barrelBytes t v) s with bb := BitVec.ofNat 8 (v % 2 ^ r * 2 ^ (8 - r)), nb := BitVec.ofNat 3 r }

/-- The accumulator with the bit `x` appended: `ACC * 2 + x` (rule R136). -/
def accPush (acc : CodeBits) (x : Bool) : CodeBits := BitVec.ofNat 255 (acc.toNat * 2 + x.toNat)

/-- `ShiftBit(x)` (rule R136). `none` is `raise Fault(ACCOVF)`, which leaves the state to its caller unchanged. -/
def shiftBit (lmax : Nat) (x : Bool) (s : State) : Option State :=
  if s.accLen.toNat = lmax then none
  else
    match lookup s.ct (accPush s.acc x) (s.accLen + 1#8) with
    | some sym => some { emit [sym] s with acc := 0#255, accLen := 0#8 }
    | none => some { s with acc := accPush s.acc x, accLen := s.accLen + 1#8 }

/-- `ShiftBit` over bits in order (rules R138, R139). The state is that reached by the bits shifted, and the flag
says that all of them were; where it is false the bit at which `ACCOVF` is raised was not shifted. -/
def shiftBits (lmax : Nat) : List Bool → State → State × Bool
  | [], s => (s, true)
  | x :: xs, s =>
    match shiftBit lmax x s with
    | some s' => shiftBits lmax xs s'
    | none => (s, false)

/-- Shift the bits, then go on with `k`, or enter the fault `ACCOVF` of command word `w` at the bit that raises it. -/
def shiftThen (lmax : Nat) (w : Word) (bits : List Bool) (k : State → State) (s : State) : State :=
  match shiftBits lmax bits s with
  | (s', true) => k s'
  | (s', false) => raiseFault .accOvf w s'

end Sys2Proof.Machine
end

