-- ==== Sys2Proof/Machine/DecoderCommands.lean ====
section
/-! DEFINITION. The decoder commands `DEC.START`, `DEC.BYTE` and `DEC.FIN` (rules R135 to R146). -/

namespace Sys2Proof.Machine

/-- The effect of `DEC.START` (rule R137). -/
def decStartEffect (s : State) : State :=
  { s with hdr := false, dpad := 0#3, holdV := false, hold := 0#8, acc := 0#255, accLen := 0#8, done := false,
           mode := .dec }

/-- `DEC.START` (rule R137). -/
def execDecStart (s : State) : Host.Outcome State Fault Refusal := issue .decStart decStartEffect s

/-- The effect of `DEC.BYTE` on the padding header (rule R138). -/
def decHeaderEffect (byte : Byte) (s : State) : State :=
  if byte.toNat > 7 then raiseFault .padHdr (encode (.decByte byte)) s
  else { s with dpad := byte.extractLsb' 0 3, hdr := true }

/-- `HOLD <- byte; HOLDV <- 1`, the end of `DEC.BYTE` on a payload byte (rule R138). -/
def holdByte (byte : Byte) (s : State) : State := { s with hold := byte, holdV := true }

/-- The effect of `DEC.BYTE byte` (rule R138): the header first, then payload bytes, each decoded one command late. -/
def decByteEffect (lmax : Nat) (byte : Byte) (s : State) : State :=
  if s.hdr = false then decHeaderEffect byte s
  else if s.holdV = true then
    shiftThen lmax (encode (.decByte byte)) (byteBits s.hold) (holdByte byte) s
  else holdByte byte s

/-- `DEC.BYTE byte` (rule R138). -/
def execDecByte (byte : Byte) (s : State) : Host.Outcome State Fault Refusal :=
  issue (.decByte byte) (decByteEffect Config.LMAX byte) s

/-- The end of `DEC.FIN` (rule R139): the leftover check, then the session closes. -/
def decCloseEffect (s : State) : State :=
  if s.accLen ≠ 0#8 then raiseFault .unmatched (encode .decFin) s
  else { s with hold := 0#8, holdV := false, mode := .idle, done := true }

/-- The effect of `DEC.FIN` (rule R139): `TRUNC` without a header, the held byte without its last `DPAD` bits, `TRUNC`
for padding promised without a byte, then the close. -/
def decFinEffect (lmax : Nat) (s : State) : State :=
  if s.hdr = false then raiseFault .trunc (encode .decFin) s
  else if s.holdV = true then
    shiftThen lmax (encode .decFin) ((byteBits s.hold).take (8 - s.dpad.toNat)) decCloseEffect s
  else if s.dpad ≠ 0#3 then raiseFault .trunc (encode .decFin) s
  else decCloseEffect s

/-- `DEC.FIN` (rule R139). -/
def execDecFin (s : State) : Host.Outcome State Fault Refusal := issue .decFin (decFinEffect Config.LMAX) s

end Sys2Proof.Machine
end

