-- ==== Sys2Proof/Machine/EncoderCommands.lean ====
section
/-! DEFINITION. The encoder commands `ENC.START`, `ENC.SYM` and `ENC.FIN` (rules R120 to R127). -/

namespace Sys2Proof.Machine

/-- The effect of `ENC.START` (rule R121). -/
def encStartEffect (s : State) : State :=
  { s with nb := 0#3, bb := 0#8, pad := 0#3, done := false, mode := .enc }

/-- `ENC.START` (rule R121). -/
def execEncStart (s : State) : Host.Outcome State Fault Refusal := issue .encStart encStartEffect s

/-- The effect of `ENC.SYM sym` (rule R122): `NOCODE` for a symbol without a codeword, else its codeword goes
through the barrel shifter. -/
def encSymEffect (sym : Byte) (s : State) : State :=
  if (entryAt s.ct sym).len = 0#8 then raiseFault .noCode (encode (.encSym sym)) s
  else appendBits (entryAt s.ct sym).len.toNat (entryAt s.ct sym).code.toNat s

/-- `ENC.SYM sym` (rule R122). -/
def execEncSym (sym : Byte) (s : State) : Host.Outcome State Fault Refusal :=
  issue (.encSym sym) (encSymEffect sym) s

/-- The effect of `ENC.FIN` (rule R123): the pending bits leave as one zero-padded byte and `PAD` counts its padding,
then the session closes. -/
def encFinEffect (s : State) : State :=
  if s.nb = 0#3 then { s with pad := 0#3, nb := 0#3, bb := 0#8, mode := .idle, done := true }
  else
    { emit [s.bb] s with
      pad := BitVec.ofNat 3 (8 - s.nb.toNat), nb := 0#3, bb := 0#8, mode := .idle, done := true }

/-- `ENC.FIN` (rule R123). -/
def execEncFin (s : State) : Host.Outcome State Fault Refusal := issue .encFin encFinEffect s

end Sys2Proof.Machine
end

