-- ==== Sys2Proof/Machine/SystemCommands.lean ====
section
/-! DEFINITION. The system commands `NOP` and `RST` (rules R155 to R158). Both are permitted in every mode. -/

namespace Sys2Proof.Machine

/-- `NOP` (rule R156): no state element changes, in every `MODE`. -/
def execNop (s : State) : Host.Outcome State Fault Refusal := .next s

/-- `RST` (rule R157), performed in every `MODE`, `FAULT` included. -/
def execRst (s : State) : Host.Outcome State Fault Refusal := .next (softReset s)

end Sys2Proof.Machine
end

