-- ==== Sys2Proof/Machine/TableCommands.lean ====
section
/-! DEFINITION. The code-table commands `CT.CLR` and `CT.SET` (rules R110 to R114). -/

namespace Sys2Proof.Machine

/-- The effect of `CT.CLR` (rule R111): all 256 entries empty. -/
def ctClrEffect (s : State) : State := { s with ct := Vector.replicate 256 Entry.empty }

/-- `CT.CLR` (rule R111). -/
def execCtClr (s : State) : Host.Outcome State Fault Refusal := issue .ctClr ctClrEffect s

/-- The effect of `CT.SET sym, len` (rule R112): the checks `LEN`, then `CODE`, then the write of `CT[sym]` from
`CODE[LMAX-1 : 0]`. -/
def ctSetEffect (lmax : Nat) (sym : Byte) (len : BitVec 8) (s : State) : State :=
  if len.toNat > lmax then raiseFault .len (encode (.ctSet sym len)) s
  else if s.code.toNat ≥ 2 ^ len.toNat then raiseFault .code (encode (.ctSet sym len)) s
  else { s with ct := setEntry s.ct sym { len := len, code := BitVec.ofNat 255 (s.code.toNat % 2 ^ lmax) } }

/-- `CT.SET sym, len` (rule R112). -/
def execCtSet (sym : Byte) (len : BitVec 8) (s : State) : Host.Outcome State Fault Refusal :=
  issue (.ctSet sym len) (ctSetEffect Config.LMAX sym len) s

end Sys2Proof.Machine
end

