-- ==== Sys2Proof/Machine/Dispatch.lean ====
section
/-! DEFINITION. One arm per command: the meaning of each, called directly. -/

namespace Sys2Proof.Machine

def exec (i : Instr) (s : State) : Host.Outcome State Fault Refusal :=
  match i with
  | .nop => Sys2Proof.Machine.execNop s
  | .rst => Sys2Proof.Machine.execRst s
  | .ctClr => Sys2Proof.Machine.execCtClr s
  | .ctSet sym len => Sys2Proof.Machine.execCtSet sym len s
  | .encStart => Sys2Proof.Machine.execEncStart s
  | .encSym sym => Sys2Proof.Machine.execEncSym sym s
  | .encFin => Sys2Proof.Machine.execEncFin s
  | .decStart => Sys2Proof.Machine.execDecStart s
  | .decByte byte => Sys2Proof.Machine.execDecByte byte s
  | .decFin => Sys2Proof.Machine.execDecFin s

end Sys2Proof.Machine
end

