-- ==== Sys2Proof/Machine/HostPort.lean ====
section
/-! DEFINITION. The register port and the output port: executing a command word (rule R96), register reads and writes
(rules R62 to R64), hardware reset, and the sink that must accept a command's bytes before the block goes on (rules
R68, R82). -/

namespace Sys2Proof.Machine

/-- `Execute(w)` of rule R96: in `FAULT` every word but exactly `RST` is ignored, else an illegal word raises
`ILLCMD`, else the decoded command runs, which checks its permission first. -/
def execWord (w : Word) (s : State) : Host.Outcome State Fault Refusal :=
  if s.mode = .fault then
    if w = encode .rst then exec .rst s else .next s
  else
    match decodeWord w with
    | some i => exec i s
    | none => .next (raiseFault .illCmd w s)

/-- The register an access reaches, or the reason it is refused (rule R64). -/
def accessReg (bytes off : Nat) : Except Refusal Reg :=
  if widthOk bytes = false then .error (.reservedWidth bytes)
  else if alignedOk off = false then .error (.misalignedOffset off)
  else
    match regAt off with
    | some r => .ok r
    | none => .error (.unmappedOffset off)

/-- `RegRead` of a register (rule R62): the value goes to the host, and nothing of the block changes. -/
def readReg (r : Reg) (s : State) : State := { s with reads := s.reads ++ [regView Config.LMAX r s.toBlock] }

/-- `RegWrite` of a register (rule R63): `CMD` executes, `CODEk` takes the value in every `MODE`, and a write to a
read-only register is ignored. -/
def writeReg (r : Reg) (v : Word) (s : State) : Host.Outcome State Fault Refusal :=
  match r with
  | .cmd => execWord v s
  | .codeWord k => .next { s with code := setCodeWord s.code k v }
  | .status => .next s
  | .err => .next s
  | .errInfo => .next s
  | .pad => .next s
  | .cap => .next s

/-- One host operation on the block (rule R9). -/
def hostOp (op : HostOp) (s : State) : Host.Outcome State Fault Refusal :=
  match op with
  | .read bytes off =>
    match accessReg bytes off with
    | .ok r => .next (readReg r s)
    | .error e => .refused e
  | .write bytes off v =>
    match accessReg bytes off with
    | .ok r => writeReg r v s
    | .error e => .refused e
  | .reset => .next (hardReset s)

/-- Host operations one after another, each complete before the next begins (rule R75). The sink's answers play no
part: they change no value (rules R19, R82). -/
def performAll : List HostOp → State → Host.Outcome State Fault Refusal
  | [], s => .next s
  | op :: ops, s =>
    match hostOp op s with
    | .next s' => performAll ops s'
    | .fault f => .fault f
    | .refused r => .refused r

/-- How many of `n` offered bytes the sink accepts before it first says no, and its answers after that. After its
last listed answer the sink accepts every byte (rule R82). -/
def sinkAccepts : List Bool → Nat → Nat × List Bool
  | sink, 0 => (0, sink)
  | [], n + 1 => (n + 1, [])
  | true :: rest, n + 1 => ((sinkAccepts rest n).1 + 1, (sinkAccepts rest n).2)
  | false :: rest, _ + 1 => (0, rest)

/-- Offer the bytes still leaving to the sink, in order. Those it accepts reach `OUT` (rules R68, R230). -/
def offer (s : State) : State :=
  { s with out := s.out ++ s.leaving.take (sinkAccepts s.sink s.leaving.length).1,
           leaving := s.leaving.drop (sinkAccepts s.sink s.leaving.length).1,
           sink := (sinkAccepts s.sink s.leaving.length).2 }

/-- The step relation of the spec (rules R9, R40): the block and one host operation in, and the block, the bytes appended
to `OUT` and the value read out. The block holds no program, no host data and no readiness of the sink, and the meaning
of the operation runs on it with none of them. -/
def blockStep (op : HostOp) (b : Block) : Host.Outcome StepResult Fault Refusal :=
  match hostOp op b.alone with
  | .next t => .next { block := t.toBlock, emitted := t.out, read := t.reads.head? }
  | .fault f => .fault f
  | .refused r => .refused r

/-- The block takes the operation `op` as its step. The bytes it emits are handed over as far as the sink accepts them,
and the operation is complete only when the sink has accepted all (rule R68; notes/assumptions/10.md). A value it reads
goes to the host. -/
def takeOp (op : HostOp) (s : State) : Host.Outcome State Fault Refusal :=
  match blockStep op s.toBlock with
  | .next r =>
    .next (offer { s with toBlock := r.block, leaving := r.emitted, reads := s.reads ++ r.read.toList })
  | .fault f => .fault f
  | .refused r => .refused r

/-- One step of the closed system of the host, the block and the sink. It hands the host's next operation to the block's
step, which alone sees it. While a byte waits for the sink the block is held (rule R82): it offers the byte again and
begins no host operation, hardware reset aside. With no operation to come the block is idle and keeps its state (rule
R217). -/
def hostStep (s : State) : Host.Outcome State Fault Refusal :=
  match s.pending with
  | [] => .next (offer s)
  | .reset :: rest => takeOp .reset { s with pending := rest }
  | op :: rest => if s.leaving = [] then takeOp op { s with pending := rest } else .next (offer s)

/-- The state in which the next host operation writes the word `w` to `CMD`. A command in progress is complete in it:
the sink has every byte of it. -/
def withCommand (w : Word) (s : State) : State :=
  { s with pending := .write 4 0 w :: s.pending, out := s.out ++ s.leaving, leaving := [] }

end Sys2Proof.Machine
end

