-- ==== Sys2Proof/Machine/Step.lean ====
section
/-! DEFINITION. The step of the machine, and placing a command word where the next step takes it from. -/

namespace Sys2Proof.Machine

/-- One step: the next host operation, or the completion of the one the sink holds (rules R9, R68, R75). -/
def step (s : State) : Host.Outcome State Fault Refusal := hostStep s

/-- `s` with the `nbits`-bit word `w`, every bit above it 0, as the next command the host writes to `CMD`. -/
def State.withFetchWord (s : State) (nbits w : Nat) : State := withCommand (BitVec.ofNat 32 (w % 2 ^ nbits)) s

end Sys2Proof.Machine
end

