-- ==== Sys2Proof/Machine/HostReference.lean ====
section
/-! DEFINITION. Host software that fixes the bytes of a container (rules R165 to R181): counting, tree building, code
generation, tree serialisation, and `compress` and `decompress` driving the block. None of it is state or a step of the
block (rule R4). The pseudo-instructions of rule R102 stand here too. -/

namespace Sys2Proof.Machine

/-- The host operation that writes a command to `CMD` (rule R101). -/
def command (i : Instr) : HostOp := .write 4 0 (encode i)

/-- `LDCODE "w"` (rule R102): all eight words of `CODE`, in order. -/
def ldCode (w : List Bool) : List HostOp :=
  (List.range 8).map fun k => .write 4 (0x20 + 4 * k) (BitVec.ofNat 32 (bitValue w / 2 ^ (32 * k)))

/-- `CT.LOAD n, "w"` (rule R102). -/
def ctLoad (n : Byte) (w : List Bool) : List HostOp := ldCode w ++ [command (.ctSet n (BitVec.ofNat 8 w.length))]

/-- `ENC.STR` (rule R102). -/
def encStr (bs : List Byte) : List HostOp := bs.map fun b => command (.encSym b)

/-- `DEC.BYTES` (rule R102). -/
def decBytes (bs : List Byte) : List HostOp := bs.map fun b => command (.decByte b)

/-- The padding count of `n` bits: `(8 - n mod 8) mod 8` (rules R16, R173). -/
def padCount (n : Nat) : Nat := (8 - n % 8) % 8

/-- A bit string cut into bytes, first bit most significant (rule R173). Bits after the last whole byte are left out. -/
def cutBytes (s : List Bool) : List Byte :=
  (List.range (s.length / 8)).map fun i => BitVec.ofNat 8 (bitValue ((s.drop (8 * i)).take 8))

/-- A bit string with its zero padding (rule R173). -/
def padded (s : List Bool) : List Bool := s ++ List.replicate (padCount s.length) false

/-- `PackBits(S)` of rule R173: the padding count and the bytes. -/
def packBits (s : List Bool) : Byte × List Byte := (BitVec.ofNat 8 (padCount s.length), cutBytes (padded s))

/-- The host's code tree (rule R167). -/
inductive CodeTree where
  | leaf (sym : Byte)
  | node (left right : CodeTree)
deriving DecidableEq, Repr

/-- A node of the priority structure, with its weight and sequence number (rule R167). -/
structure Node where
  weight : Nat
  seq    : Nat
  tree   : CodeTree
deriving DecidableEq, Repr

/-- `Freq(x)(s)`: the number of positions of `x` that hold `s` (rule R166). -/
def freq (x : List Byte) (s : Byte) : Nat := x.count s

/-- The bytes of `x` in the order of first occurrence (rules R167, R168). -/
def firstOccurrences : List Byte → List Byte
  | [] => []
  | b :: bs => b :: (firstOccurrences bs).filter fun c => c != b

/-- The leaves, numbered in the order of first occurrence (rule R167). -/
def leafNodes (x : List Byte) : List Node :=
  (firstOccurrences x).zipIdx.map fun p => { weight := freq x p.1, seq := p.2, tree := .leaf p.1 }

/-- The order of the priority structure: the pair of weight and sequence number (rule R168). -/
def Node.before (a b : Node) : Bool := a.weight < b.weight || (a.weight == b.weight && a.seq < b.seq)

/-- Insert a node into a list that is ascending by `Node.before`. -/
def insertNode (n : Node) : List Node → List Node
  | [] => [n]
  | m :: ms => if n.before m then n :: m :: ms else m :: insertNode n ms

/-- Merge the two least nodes until one remains (rule R167). `fuel` bounds the number of merges and `next` is the next
sequence number. -/
def mergeNodes : Nat → Nat → List Node → Option CodeTree
  | _, _, [] => none
  | _, _, [n] => some n.tree
  | 0, _, _ :: _ :: _ => none
  | fuel + 1, next, a :: b :: rest =>
    mergeNodes fuel (next + 1)
      (insertNode { weight := a.weight + b.weight, seq := next, tree := .node a.tree b.tree } rest)

/-- The tree of an input, `none` for the empty input (rule R167). -/
def buildTree (x : List Byte) : Option CodeTree :=
  mergeNodes (leafNodes x).length (leafNodes x).length ((leafNodes x).foldr insertNode [])

/-- `Path(t, w)` of rule R169. -/
def CodeTree.paths : CodeTree → List Bool → List (Byte × List Bool)
  | .leaf s, w => [(s, w)]
  | .node l r, w => l.paths (w ++ [false]) ++ r.paths (w ++ [true])

/-- `Codes(root)` of rule R169 for a tree: a lone leaf has the codeword "0" (rule R170). The rule gives a mapping; that its pairs
stand in the order of the leaves is the model's choice (notes/assumptions/14.md). -/
def CodeTree.codes : CodeTree → List (Byte × List Bool)
  | .leaf s => [(s, [false])]
  | .node l r => (CodeTree.node l r).paths []

/-- `Codes` of rule R169 on what the tree builder answers: no tree has no codes. -/
def codesOf : Option CodeTree → List (Byte × List Bool)
  | none => []
  | some root => root.codes

/-- The inverse mapping that rule R169 records beside `Codes`, from codewords to symbols. -/
def inverseCodesOf (root : Option CodeTree) : List (List Bool × Byte) := (codesOf root).map Prod.swap

/-- The symbols of the leaves, left to right. -/
def CodeTree.symbols : CodeTree → List Byte
  | .leaf s => [s]
  | .node l r => l.symbols ++ r.symbols

/-- `TreeBits(t)` of rule R172. -/
def CodeTree.bits : CodeTree → List Bool
  | .leaf s => true :: byteBits s
  | .node l r => false :: (l.bits ++ r.bits)

/-- `Parse` of rule R177: the tree at the front of a bit sequence and the bits after it, `none` where the bits run
out. `fuel` bounds the depth. -/
def parseTree : Nat → List Bool → Option (CodeTree × List Bool)
  | 0, _ => none
  | _ + 1, [] => none
  | _ + 1, true :: bs =>
    if bs.length < 8 then none else some (.leaf (BitVec.ofNat 8 (bitValue (bs.take 8))), bs.drop 8)
  | fuel + 1, false :: bs =>
    match parseTree fuel bs with
    | none => none
    | some (l, bs') =>
      match parseTree fuel bs' with
      | none => none
      | some (r, bs'') => some (.node l r, bs'')

/-- Load a table: `CT.CLR`, then `CT.LOAD` of every pair (rules R176, R178). DESIGN CHOICE: the pairs are loaded in the
order of the list, for a tree its leaves from left to right, where the rules' `for each` fixes no order. The order decides
what `CODE` holds afterwards and nothing else (notes/assumptions/14.md). -/
def loadTable (codes : List (Byte × List Bool)) : List HostOp :=
  command .ctClr :: codes.flatMap fun p => ctLoad p.1 p.2

/-- `compress(x)` with the block in state `s` (rule R176): the container, and the block afterwards. `none` where the
block refuses an operation, which it never does here. -/
def compress (s : State) (x : List Byte) : Option (List Byte) × State :=
  match buildTree x with
  | none => (some [0x00#8], s)
  | some root =>
    match performAll (loadTable root.codes ++ [command .encStart] ++ encStr x ++ [command .encFin, .read 4 0x10]) s with
    | .next t =>
      (some ([0x01#8, (packBits root.bits).1] ++ (packBits root.bits).2 ++
        [((t.reads.getLast?).getD 0#32).extractLsb' 0 8] ++ emittedSince s t), t)
    | .fault _ => (none, s)
    | .refused _ => (none, s)

/-- The preamble's tree and the payload segment of a container's bytes from offset 2 on, after the checks of rules R177
and R178 against the byte `tree_padding`. `none` is `MalformedContainer`. -/
def readPreamble (treePadding : Byte) (rest : List Byte) : Option (CodeTree × List Byte) :=
  match parseTree ((streamBits rest).length + 1) (streamBits rest) with
  | none => none
  | some (root, left) =>
    if treePadding.toNat = padCount ((streamBits rest).length - left.length) ∧ root.symbols.Nodup then
      some (root, rest.drop (((streamBits rest).length - left.length + 7) / 8))
    else none

/-- The decode session of a payload segment with the table of `root` and the block in state `s` (rule R179). `none` is
`MalformedContainer`: the host reads `FAULT` in `STATUS`, issues `RST` and discards the bytes. -/
def decodePayload (s : State) (root : CodeTree) (payload : List Byte) : Option (List Byte) × State :=
  match performAll (loadTable root.codes ++ [command .decStart] ++ decBytes payload ++
      [command .decFin, .read 4 0x04]) s with
  | .next t =>
    if ((t.reads.getLast?).getD 0#32).extractLsb' 0 2 = Mode.fault.bits then
      match performAll [command .rst] t with
      | .next u => (none, u)
      | .fault _ => (none, t)
      | .refused _ => (none, t)
    else (some (emittedSince s t), t)
  | .fault _ => (none, s)
  | .refused _ => (none, s)

/-- `decompress(c)` with the block in state `s` (rule R179): the plaintext, and the block afterwards. `none` is
`MalformedContainer`. -/
def decompress (s : State) (c : List Byte) : Option (List Byte) × State :=
  match c with
  | [] => (none, s)
  | present :: tail =>
    if present = 0x00#8 then (if tail = [] then some [] else none, s)
    else if present ≠ 0x01#8 then (none, s)
    else
      match tail with
      | [] => (none, s)
      | treePadding :: rest =>
        match readPreamble treePadding rest with
        | none => (none, s)
        | some (root, payload) => decodePayload s root payload

end Sys2Proof.Machine
end

