-- ==== Sys2Proof/Safety.lean ====
section
/-! DEFINITION. What claims are stated in: the invariant of the block's state (rules R24, R30, R32, R34, R35), how a run
ends (rule R248), prefix-free tables (rules R16, R241), and sessions (rule R17). -/

namespace Sys2Proof.Machine

/-- A table entry holds a codeword of at most `lmax` bits (rule R24). -/
def Entry.wf (lmax : Nat) (e : Entry) : Prop := e.len.toNat ≤ lmax ∧ e.code.toNat < 2 ^ e.len.toNat

/-- The table invariant (rule R24). -/
def tableWf (lmax : Nat) (ct : Vector Entry 256) : Prop := ∀ sym : Byte, (entryAt ct sym).wf lmax

/-- The pending bits are left-aligned and zero-filled (rule R34). -/
def pendingWf (nb : BitVec 3) (bb : Byte) : Prop := bb.toNat % 2 ^ (8 - nb.toNat) = 0

/-- The invariant of the block: what its registers hold in every state a run reaches. -/
structure Block.Inv (lmax : Nat) (b : Block) : Prop where
  /-- Rule R24. -/
  table : tableWf lmax b.ct
  /-- Rule R34. -/
  pendingAligned : pendingWf b.nb b.bb
  /-- Rule R34: no pending bits outside an encode session, a fault aside. -/
  pendingOutside : b.mode = .idle ∨ b.mode = .dec → b.nb = 0#3 ∧ b.bb = 0#8
  /-- Rule R35: `DPAD` is 0 while `HDR = 0`. -/
  header : b.hdr = false → b.dpad = 0#3
  /-- Rule R35: `HOLDV = 0` implies `HOLD = 0`. -/
  noHold : b.holdV = false → b.hold = 0#8
  /-- Rule R138: a payload byte is held only after the header. -/
  holdAfterHeader : b.holdV = true → b.hdr = true
  /-- Rule R35: `ACC < 2^ACCLEN`. -/
  accBound : b.acc.toNat < 2 ^ b.accLen.toNat
  /-- Rule R35: `ACCLEN` is in `0..LMAX`. -/
  accLenBound : b.accLen.toNat ≤ lmax
  /-- Rule R35: nothing held and nothing accumulated outside a decode session, a fault aside. -/
  decoderOutside : b.mode = .idle ∨ b.mode = .enc → b.holdV = false ∧ b.accLen = 0#8
  /-- Rule R30: a cause is recorded exactly in `FAULT`. -/
  recorded : b.err ≠ 0#4 ↔ b.mode = .fault
  /-- Rule R30: `ERRINFO` is 0 when no fault is recorded. -/
  recordedWord : b.err = 0#4 → b.errInfo = 0#32
  /-- Rule R201: the reserved causes are never produced. -/
  causeKnown : b.err = 0#4 ∨ ∃ c : Cause, b.err = c.bits
  /-- Rule R32: `DONE` is 0 during a session. -/
  notDone : b.mode = .enc ∨ b.mode = .dec → b.done = false

/-- What the step of a host operation begun in the state `s` makes of the outcome `o` of the complete operation: the bytes
that `o` appended to `OUT` are handed over as far as the sink accepts them, and the rest is still leaving (rule R68,
notes/assumptions/10.md). -/
def handOver (s : State) (o : Host.Outcome State Fault Refusal) : Host.Outcome State Fault Refusal :=
  match o with
  | .next t => .next (offer { t with out := s.out, leaving := emittedSince s t })
  | .fault f => .fault f
  | .refused r => .refused r

/-- The most bytes that one command emits, whichever it is (rules R126, R146). -/
def emitLimit : Nat := max 8 ((7 + Config.LMAX) / 8)

/-- The invariant of the machine: the block's, and no more bytes are leaving than one command emits (rules R68, R126,
R146). -/
def State.Inv (s : State) : Prop := s.toBlock.Inv Config.LMAX ∧ s.leaving.length ≤ emitLimit

/-- The run ended well (rule R248): the last `FIN` has completed, which it has only when the sink has accepted every
byte it emitted (rule R68), and the registers say so. The result of the run is then `emittedSince` the matching
`START`, with `PAD` for an encode session. -/
def State.endedWell (s : State) : Prop := s.leaving = [] ∧ s.mode = .idle ∧ s.done = true ∧ s.err = 0#4

/-- The run ended badly (rule R248). -/
def Block.endedBadly (b : Block) : Prop := b.mode = .fault

/-- The table holds a codeword for the symbol (rule R23). -/
def hasCode (ct : Vector Entry 256) (sym : Byte) : Prop := (entryAt ct sym).len ≠ 0#8

/-- No codeword of the table is a prefix of another symbol's, so in particular no two are equal (rules R16, R241). -/
def prefixFree (ct : Vector Entry 256) : Prop :=
  ∀ a b : Byte, a ≠ b → hasCode ct a → hasCode ct b → ¬ (entryAt ct a).bits <+: (entryAt ct b).bits

/-- The pending encoder bits as a bit string (rules R34, R122). -/
def pendingBits (b : Block) : List Bool := (byteBits b.bb).take b.nb.toNat

/-- The accumulated decoder bits as a bit string (rule R35). -/
def accBits (b : Block) : List Bool := bitString b.accLen.toNat b.acc.toNat

/-- The concatenated codewords of a symbol sequence, `S` of rule R125. -/
def codewords (ct : Vector Entry 256) (syms : List Byte) : List Bool := syms.flatMap fun s => (entryAt ct s).bits

/-- A host operation that a session may hold anywhere (rules R125, R140): `NOP`, or a register access other than a
command. -/
def HostOp.quiet : HostOp → Bool
  | .read bytes off => (HostOp.read bytes off).wellFormed
  | .write bytes off v => (HostOp.write bytes off v).wellFormed && (off != 0 || v == encode .nop)
  | .reset => false

/-- `ops` is the commands `cmds`, in order, with quiet operations anywhere among them. -/
inductive Interleaved : List Instr → List HostOp → Prop where
  | done : Interleaved [] []
  | quiet {cmds : List Instr} {op : HostOp} {ops : List HostOp} :
      op.quiet = true → Interleaved cmds ops → Interleaved cmds (op :: ops)
  | cmd {i : Instr} {cmds : List Instr} {ops : List HostOp} :
      Interleaved cmds ops → Interleaved (i :: cmds) (command i :: ops)

/-- The commands of an encode session (rule R125). -/
def encSession (syms : List Byte) : List Instr := .encStart :: (syms.map .encSym ++ [.encFin])

/-- The commands of a decode session over a header byte and payload bytes (rule R140). -/
def decSession (header : Byte) (payload : List Byte) : List Instr :=
  .decStart :: .decByte header :: (payload.map .decByte ++ [.decFin])

/-- A cell of the permission and transition table (rule R158). -/
inductive Cell where
  /-- The command is performed by its rule and leaves this `MODE` if it raises no fault of its own. -/
  | ok (after : Mode)
  /-- The command is not performed and `Fault(SEQ)` is raised. -/
  | seq
  /-- Nothing at all happens. -/
  | ignored
deriving DecidableEq, Repr

/-- One row of the table of rule R158: the cells for `IDLE`, `ENC`, `DEC` and `FAULT`. -/
def tableRow (idle enc dec fault : Cell) : Mode → Cell
  | .idle => idle
  | .enc => enc
  | .dec => dec
  | .fault => fault

/-- The permission and transition table of rule R158, row by row as it stands there. -/
def transition : Instr → Mode → Cell
  | .nop => tableRow (.ok .idle) (.ok .enc) (.ok .dec) .ignored
  | .rst => tableRow (.ok .idle) (.ok .idle) (.ok .idle) (.ok .idle)
  | .ctClr => tableRow (.ok .idle) .seq .seq .ignored
  | .ctSet _ _ => tableRow (.ok .idle) .seq .seq .ignored
  | .encStart => tableRow (.ok .enc) .seq .seq .ignored
  | .encSym _ => tableRow .seq (.ok .enc) .seq .ignored
  | .encFin => tableRow .seq (.ok .idle) .seq .ignored
  | .decStart => tableRow (.ok .dec) .seq .seq .ignored
  | .decByte _ => tableRow .seq .seq (.ok .dec) .ignored
  | .decFin => tableRow .seq .seq (.ok .idle) .ignored

/-- The last column of rule R203: the causes a permitted command may raise by its own rule. -/
def ownCauses : Instr → List Cause
  | .nop => []
  | .rst => []
  | .ctClr => []
  | .ctSet _ _ => [.len, .code]
  | .encStart => []
  | .encSym _ => [.noCode]
  | .encFin => []
  | .decStart => []
  | .decByte _ => [.padHdr, .accOvf]
  | .decFin => [.trunc, .accOvf, .unmatched]

/-- The ten assigned operation codes (rule R92). -/
def assignedOpcodes : List (BitVec 8) :=
  [0x00#8, 0x01#8, 0x10#8, 0x11#8, 0x20#8, 0x21#8, 0x22#8, 0x30#8, 0x31#8, 0x32#8]

/-- The checks that come before a command's own rule (rules R96, R206), for a command permitted in one `MODE` outside
`FAULT`: in `FAULT` it is ignored, in another `MODE` it raises `SEQ`, and an illegal word with its operation code raises
`ILLCMD` in every `MODE` but `FAULT`. -/
def checkedFirst (i : Instr) (allowed : Mode) : Prop :=
  (∀ s : State, s.mode = .fault → exec i s = .next s) ∧
  (∀ s : State, s.mode ≠ .fault → s.mode ≠ allowed →
    exec i s = .next { s with err := 2#4, errInfo := encode i, mode := .fault }) ∧
  (∀ (w : Word) (s : State), w.extractLsb' 0 8 = (encode i).extractLsb' 0 8 → legalWord w = false → s.mode ≠ .fault →
    execWord w s = .next { s with err := 1#4, errInfo := w, mode := .fault })

/-- The most bytes one command emits (rules R126, R146). -/
def emitBound : Instr → Nat
  | .nop => 0
  | .rst => 0
  | .ctClr => 0
  | .ctSet _ _ => 0
  | .encStart => 0
  | .encSym _ => (7 + Config.LMAX) / 8
  | .encFin => 1
  | .decStart => 0
  | .decByte _ => 8
  | .decFin => 8

/-- The table holds exactly these codewords: each pair's, and none for any other symbol (rules R176, R178). -/
def holdsCodes (ct : Vector Entry 256) (codes : List (Byte × List Bool)) : Prop :=
  (∀ p ∈ codes, hasCode ct p.1 ∧ (entryAt ct p.1).bits = p.2) ∧
  (∀ sym : Byte, hasCode ct sym → ∃ p ∈ codes, p.1 = sym)

/-- The subtree that a path of edges reaches, left = 0 and right = 1 (rule R98), `none` where the path runs past a
leaf. -/
def CodeTree.follow : CodeTree → List Bool → Option CodeTree
  | t, [] => some t
  | .leaf _, _ :: _ => none
  | .node l r, b :: bs => (if b then r else l).follow bs

/-- Decoding by walking the tree bit by bit (rule R145): `root` is the whole tree, the next argument the subtree
reached so far. It gives the symbols of the leaves reached and the subtree reached at the end. -/
def walkTree (root : CodeTree) : CodeTree → List Bool → List Byte × CodeTree
  | here, [] => ([], here)
  | .leaf sym, _ :: _ => ([], .leaf sym)
  | .node l r, b :: bs =>
    match if b then r else l with
    | .leaf sym => (sym :: (walkTree root root bs).1, (walkTree root root bs).2)
    | .node l' r' => walkTree root (.node l' r') bs

end Sys2Proof.Machine
end

