-- ==== Sys2Proof/Certificates/Slice0/Obligations.lean ====
section
/-! DEFINITION. The statements about the block, for the provers. Each docstring names the rule of the spec, or the entry
of the assumption log, that it says. -/

open Sys2Proof Sys2Proof.Machine

/-! ## Command words -/

/-- Rules R92, R95, R101: a word decodes to a command exactly when it is that command's encoding, so every operand
value survives and every legal word has one meaning. -/
def Obligations.DecodeIsInverseOfEncode : Prop :=
  ∀ (w : Word) (i : Instr), i.wellFormed = true → (decodeWord w = some i ↔ w = encode i)

/-- Rule R93: the illegal words are those that match no row, which are those the rule lists, and executing one raises
`ILLCMD` outside `FAULT` and does nothing in it. The reserved operation codes are 246. -/
def Obligations.IllegalWordsRaiseIllCmd : Prop :=
  (∀ w : Word, (decodeWord w).isSome = legalWord w) ∧
  (∀ w : Word, legalWord w = false ↔
    w.extractLsb' 0 8 ∉ assignedOpcodes ∨ w.extractLsb' 24 8 ≠ 0#8 ∨
    (fieldA w ≠ 0#8 ∧ w.extractLsb' 0 8 ∉ [0x11#8, 0x21#8, 0x31#8]) ∨
    (fieldB w ≠ 0#8 ∧ w.extractLsb' 0 8 ≠ 0x11#8)) ∧
  (∀ (w : Word) (s : State), legalWord w = false → s.mode ≠ .fault →
    execWord w s = .next { s with err := 1#4, errInfo := w, mode := .fault }) ∧
  (∀ (w : Word) (s : State), legalWord w = false → s.mode = .fault → execWord w s = .next s) ∧
  ((List.range 256).filter fun o => decide (BitVec.ofNat 8 o ∉ assignedOpcodes)).length = 246

/-- Rule R103: the encoding examples. -/
def Obligations.EncodingExamplesDecode : Prop :=
  decodeWord 0x00016111#32 = some (.ctSet 0x61#8 1#8) ∧ encode (.ctSet 0x61#8 1#8) = 0x00016111#32 ∧
  decodeWord 0x00037211#32 = some (.ctSet 0x72#8 3#8) ∧ encode (.ctSet 0x72#8 3#8) = 0x00037211#32 ∧
  decodeWord 0x00006121#32 = some (.encSym 0x61#8) ∧ encode (.encSym 0x61#8) = 0x00006121#32 ∧
  decodeWord 0x00006E31#32 = some (.decByte 0x6E#8) ∧ encode (.decByte 0x6E#8) = 0x00006E31#32 ∧
  decodeWord 0x00000131#32 = some (.decByte 1#8) ∧ encode (.decByte 1#8) = 0x00000131#32 ∧
  legalWord 0x01000000#32 = false ∧ legalWord 0x00000120#32 = false ∧ legalWord 0x00010021#32 = false ∧
  legalWord 0x00000002#32 = false

/-- Rules R96, R75 and log entries 1, 10: when the next host operation writes the word `w` to `CMD` and no byte waits for
the sink, the step is `exec` of the command `w` decodes to, with its bytes handed over as far as the sink accepts them.
The bytes leave in their order and none is lost; with a sink that is ready the step is `exec` and nothing else. An illegal word has no
command, and the step is then the fault `ILLCMD`, or nothing in `FAULT`. -/
def Obligations.StepRunsTheDecodedCommand : Prop :=
  ∀ (s : State) (w : Word) (rest : List HostOp), s.pending = .write 4 0 w :: rest → s.leaving = [] →
    (∀ i, decodeWord w = some i → step s = handOver s (exec i { s with pending := rest }) ∧
      (s.sink = [] → step s = exec i { s with pending := rest }) ∧
      ∀ t u, step s = .next t → exec i { s with pending := rest } = .next u →
        t = { u with out := t.out, leaving := t.leaving, sink := t.sink } ∧ t.out ++ t.leaving = u.out) ∧
    (decodeWord w = none → s.mode ≠ .fault →
      step s = .next { s with pending := rest, err := 1#4, errInfo := w, mode := .fault }) ∧
    (decodeWord w = none → s.mode = .fault → step s = .next { s with pending := rest })

/-! ## Registers -/

/-- Rule R39: after a hardware reset every element is zero and every register reads as the rule says, and `RST` leaves
the same values except the table. -/
def Obligations.ResetZeroesEveryElement : Prop :=
  ∀ (s : State) (rest : List HostOp), s.pending = .reset :: rest →
    ∃ t, step s = .next t ∧
      t.mode = .idle ∧ (∀ sym : Byte, (entryAt t.ct sym).len = 0#8 ∧ (entryAt t.ct sym).code = 0#255) ∧
      t.code = 0#256 ∧ t.done = false ∧ t.pad = 0#3 ∧ t.err = 0#4 ∧ t.errInfo = 0#32 ∧ t.nb = 0#3 ∧ t.bb = 0#8 ∧
      t.hdr = false ∧ t.dpad = 0#3 ∧ t.holdV = false ∧ t.hold = 0#8 ∧ t.accLen = 0#8 ∧ t.acc = 0#255 ∧
      regView Config.LMAX .status t.toBlock = 0#32 ∧ regView Config.LMAX .err t.toBlock = 0#32 ∧
      regView Config.LMAX .errInfo t.toBlock = 0#32 ∧ regView Config.LMAX .pad t.toBlock = 0#32 ∧
      regView Config.LMAX .cap t.toBlock = BitVec.ofNat 32 Config.LMAX ∧
      (∀ k, regView Config.LMAX (.codeWord k) t.toBlock = 0#32) ∧
      (∀ u v, exec .rst u = .next v → v.toBlock = { t.toBlock with ct := u.ct })

/-- Rules R230, R231 and log entries 4, 10: reset at any time gives the constant state and leaves `OUT` unchanged, and
the bytes not yet handed to the sink are discarded. The host's later operations and the values it has read are not the
block's to change. -/
def Obligations.ResetKeepsTheBytesHandedOver : Prop :=
  (∀ (s : State) (rest : List HostOp), s.pending = .reset :: rest →
    step s = .next { s with toBlock := Block.reset, leaving := [], pending := rest }) ∧
  State.reset.toBlock = Block.reset ∧ State.reset.out = []

/-- Rule R62: what each register read returns, and that it changes nothing of the block, so that a second read returns
the same. -/
def Obligations.ReadsReturnTheRegisterViews : Prop :=
  ∀ s : State,
    hostOp (.read 4 0x00) s = .next { s with reads := s.reads ++ [0#32] } ∧
    hostOp (.read 4 0x04) s = .next { s with reads := s.reads ++
      [s.hold ++ 0#5 ++ s.dpad ++ s.accLen ++ s.nb ++ BitVec.ofBool s.holdV ++ BitVec.ofBool s.hdr ++
        BitVec.ofBool s.done ++ s.mode.bits] } ∧
    hostOp (.read 4 0x08) s = .next { s with reads := s.reads ++ [s.err.setWidth 32] } ∧
    hostOp (.read 4 0x0C) s = .next { s with reads := s.reads ++ [s.errInfo] } ∧
    hostOp (.read 4 0x10) s = .next { s with reads := s.reads ++ [s.pad.setWidth 32] } ∧
    hostOp (.read 4 0x14) s = .next { s with reads := s.reads ++ [BitVec.ofNat 32 Config.LMAX] } ∧
    (∀ k : Fin 8, hostOp (.read 4 (0x20 + 4 * k.val)) s =
      .next { s with reads := s.reads ++ [s.code.extractLsb' (32 * k.val) 32] }) ∧
    (∀ (off : Nat) (t : State), hostOp (.read 4 off) s = .next t → ∃ v : Word,
      t = { s with reads := s.reads ++ [v] } ∧ hostOp (.read 4 off) t = .next { t with reads := t.reads ++ [v] })

/-- Rule R29: the places of the fields of `STATUS`, and that a write to it is ignored. -/
def Obligations.StatusFieldsStandAtTheirPlaces : Prop :=
  ∀ s : State,
    (statusView s.toBlock).extractLsb' 0 2 = s.mode.bits ∧
    (statusView s.toBlock).getLsbD 2 = s.done ∧ (statusView s.toBlock).getLsbD 3 = s.hdr ∧
    (statusView s.toBlock).getLsbD 4 = s.holdV ∧ (statusView s.toBlock).extractLsb' 5 3 = s.nb ∧
    (statusView s.toBlock).extractLsb' 8 8 = s.accLen ∧ (statusView s.toBlock).extractLsb' 16 3 = s.dpad ∧
    (statusView s.toBlock).extractLsb' 19 5 = 0#5 ∧ (statusView s.toBlock).extractLsb' 24 8 = s.hold ∧
    (Mode.idle.bits = 0#2 ∧ Mode.enc.bits = 1#2 ∧ Mode.dec.bits = 2#2 ∧ Mode.fault.bits = 3#2) ∧
    hostOp (.read 4 0x04) s = .next { s with reads := s.reads ++ [statusView s.toBlock] } ∧
    (∀ v, hostOp (.write 4 0x04 v) s = .next s)

/-- Rule R63: a write to `CMD` executes its word, a write to `CODEk` replaces that word of `CODE` and no other in every
`MODE`, and a write to a read-only register does nothing. -/
def Obligations.WritesReachOnlyCommandAndStaging : Prop :=
  ∀ (s : State) (v : Word),
    hostOp (.write 4 0x00 v) s = execWord v s ∧
    (∀ k : Fin 8, ∃ c : Staging, hostOp (.write 4 (0x20 + 4 * k.val) v) s = .next { s with code := c } ∧
      c.extractLsb' (32 * k.val) 32 = v ∧
      ∀ j : Fin 8, j ≠ k → c.extractLsb' (32 * j.val) 32 = s.code.extractLsb' (32 * j.val) 32) ∧
    hostOp (.write 4 0x04 v) s = .next s ∧ hostOp (.write 4 0x08 v) s = .next s ∧
    hostOp (.write 4 0x0C v) s = .next s ∧ hostOp (.write 4 0x10 v) s = .next s ∧
    hostOp (.write 4 0x14 v) s = .next s

/-- Rule R64: an access of another width than 32 bits, at an offset that is not a multiple of 4, or outside the map is
refused, read or write, and every other read is answered. -/
def Obligations.ReservedAccessesAreRefused : Prop :=
  ∀ (bytes off : Nat) (v : Word) (s : State),
    ((bytes ≠ 4 ∨ off % 4 ≠ 0 ∨ off = 0x18 ∨ off = 0x1C ∨ 0x40 ≤ off) →
      ∃ r : Refusal, hostOp (.read bytes off) s = .refused r ∧ hostOp (.write bytes off v) s = .refused r) ∧
    (¬ (bytes ≠ 4 ∨ off % 4 ≠ 0 ∨ off = 0x18 ∨ off = 0x1C ∨ 0x40 ≤ off) →
      (∃ t, hostOp (.read bytes off) s = .next t) ∧ ∃ t, hostOp (.write bytes off v) s = .next t)

/-! ## Faults, modes and the two resets -/

/-- Rule R207: in `FAULT` every command word but exactly `RST` is ignored, register reads and staging writes work, and
no step but `RST` and reset changes the fault record. -/
def Obligations.FaultRecordIsKept : Prop :=
  ∀ s : State, s.mode = .fault →
    (∀ w : Word, w ≠ 0x00000001#32 → execWord w s = .next s) ∧
    (∀ (off : Nat) (r : Reg), regAt off = some r → hostOp (.read 4 off) s =
      .next { s with reads := s.reads ++ [regView Config.LMAX r s.toBlock] }) ∧
    (∀ (k : Fin 8) (v : Word), hostOp (.write 4 (0x20 + 4 * k.val) v) s =
      .next { s with code := setCodeWord s.code k v }) ∧
    (∀ t, step s = .next t → (∀ rest, s.pending ≠ .reset :: rest) →
      (∀ rest, s.pending ≠ .write 4 0 0x00000001#32 :: rest) →
      t.mode = .fault ∧ t.err = s.err ∧ t.errInfo = s.errInfo)

/-- Rule R158: the permission and transition table, its last row, and that register reads and writes other than to
`CMD` leave `MODE` alone. -/
def Obligations.ModeMovesByTheTransitionTable : Prop :=
  (∀ (i : Instr) (s : State),
    match transition i s.mode with
    | .ok m => ∃ t, exec i s = .next t ∧
        (t.mode = m ∨ (t.mode = .fault ∧ ∃ c ∈ ownCauses i, t.err = c.bits))
    | .seq => exec i s = .next { s with err := 2#4, errInfo := encode i, mode := .fault }
    | .ignored => exec i s = .next s) ∧
  (∀ (w : Word) (s : State), decodeWord w = none →
    execWord w s = .next (if s.mode = .fault then s else { s with err := 1#4, errInfo := w, mode := .fault })) ∧
  (∀ (bytes off : Nat) (s t : State), hostOp (.read bytes off) s = .next t → t.mode = s.mode) ∧
  (∀ (bytes off : Nat) (v : Word) (s t : State), off ≠ 0 → hostOp (.write bytes off v) s = .next t → t.mode = s.mode)

/-- Rules R201, R203: outside `FAULT` a command that is not permitted raises `SEQ` and does nothing else, and a command
that ends in `FAULT` either was not permitted and raised `SEQ` or was permitted and raised a cause of its own rule. -/
def Obligations.CommandsRaiseOnlyTheirCauses : Prop :=
  (∀ (i : Instr) (s : State), s.mode ≠ .fault → permittedIn i s.mode = false →
    exec i s = .next { s with err := 2#4, errInfo := encode i, mode := .fault }) ∧
  ∀ (i : Instr) (s t : State), s.mode ≠ .fault → exec i s = .next t → t.mode = .fault →
    (permittedIn i s.mode = false ∧ t.err = 2#4) ∨
    (permittedIn i s.mode = true ∧ ∃ c ∈ ownCauses i, t.err = c.bits)

/-- Rules R204, R205: entering a fault writes the cause, the command word and `MODE` and nothing else, but for the bits
the decoder shifted before it (causes `UNMATCHED` and `ACCOVF`), whose symbols stay emitted. -/
def Obligations.FaultEntryWritesOnlyTheRecord : Prop :=
  ∀ (i : Instr) (s t : State), s.mode ≠ .fault → exec i s = .next t → t.mode = .fault →
    t.errInfo = encode i ∧ t.err ≠ 0#4 ∧ t.done = s.done ∧ t.pad = s.pad ∧ t.code = s.code ∧ t.ct = s.ct ∧
    t.nb = s.nb ∧ t.bb = s.bb ∧ t.hdr = s.hdr ∧ t.dpad = s.dpad ∧ t.holdV = s.holdV ∧ t.hold = s.hold ∧
    s.out <+: t.out ∧
    (t.err ≠ Cause.unmatched.bits → t.err ≠ Cause.accOvf.bits →
      t = { s with err := t.err, errInfo := encode i, mode := .fault })

/-- Rule R157: `RST` gives every element but the table its reset value, in every `MODE`, and emits nothing. Only its
exact word does: another word with its operation code is illegal, raises `ILLCMD` outside `FAULT` and is ignored in it. -/
def Obligations.SoftResetKeepsOnlyTheTable : Prop :=
  (∀ s : State, exec .rst s = .next { s with toBlock := { Block.reset with ct := s.ct } }) ∧
  (∀ s : State, execWord 0x00000001#32 s = exec .rst s) ∧
  (∀ (w : Word) (s : State), w.extractLsb' 0 8 = 0x01#8 → w ≠ 0x00000001#32 → decodeWord w = none ∧
    (s.mode ≠ .fault → execWord w s = .next { s with err := 1#4, errInfo := w, mode := .fault }) ∧
    (s.mode = .fault → execWord w s = .next s))

/-- Rule R156: `NOP` changes nothing in every `MODE`, and another word with its operation code is illegal and raises
`ILLCMD` outside `FAULT`. -/
def Obligations.NopChangesNothing : Prop :=
  (∀ s : State, exec .nop s = .next s) ∧
  (∀ s : State, execWord 0x00000000#32 s = .next s) ∧
  (∀ (w : Word) (s : State), w.extractLsb' 0 8 = 0x00#8 → w ≠ 0x00000000#32 → decodeWord w = none ∧
    (s.mode ≠ .fault → execWord w s = .next { s with err := 1#4, errInfo := w, mode := .fault }))

/-! ## The code table -/

/-- Rule R111: `CT.CLR` in `IDLE` empties all 256 entries and changes nothing else, and the checks before it. -/
def Obligations.CtClrEmptiesTheTable : Prop :=
  (∀ s : State, s.mode = .idle →
    ∃ ct, exec .ctClr s = .next { s with ct := ct } ∧
      ∀ sym : Byte, (entryAt ct sym).len = 0#8 ∧ (entryAt ct sym).code = 0#255) ∧
  checkedFirst .ctClr .idle

/-- Rules R110, R112: `CT.SET` in `IDLE` with a staged value of at most `len` bits makes `bits_len(CODE)` the codeword
of its symbol and changes nothing else. -/
def Obligations.CtSetWritesOneEntry : Prop :=
  ∀ (s : State) (sym : Byte) (len : BitVec 8), s.mode = .idle → s.code.toNat < 2 ^ len.toNat →
    ∃ ct, exec (.ctSet sym len) s = .next { s with ct := ct } ∧
      (entryAt ct sym).len = len ∧ (entryAt ct sym).code.toNat = s.code.toNat ∧
      (entryAt ct sym).bits = bitString len.toNat s.code.toNat ∧
      ∀ other : Byte, other ≠ sym → entryAt ct other = entryAt s.ct other

/-- Rule R112: the checks of `CT.SET` in their order and its write, for every legal `LMAX`; that with `LMAX` = 255 the
first check never fires and `CODE[255]` must be 0; and the checks before it. -/
def Obligations.CtSetChecksLengthThenCode : Prop :=
  (∀ (lmax : Nat) (s : State) (sym : Byte) (len : BitVec 8), Config.legalLmax lmax →
    (len.toNat > lmax → ctSetEffect lmax sym len s =
      { s with err := 3#4, errInfo := encode (.ctSet sym len), mode := .fault }) ∧
    (len.toNat ≤ lmax → s.code.toNat ≥ 2 ^ len.toNat → ctSetEffect lmax sym len s =
      { s with err := 4#4, errInfo := encode (.ctSet sym len), mode := .fault }) ∧
    (len.toNat ≤ lmax → s.code.toNat < 2 ^ len.toNat → ∃ ct code, ctSetEffect lmax sym len s = { s with ct := ct } ∧
      code.toNat = s.code.toNat % 2 ^ lmax ∧ entryAt ct sym = { len := len, code := code } ∧
      ∀ other : Byte, other ≠ sym → entryAt ct other = entryAt s.ct other)) ∧
  (∀ (s : State) (sym : Byte) (len : BitVec 8), s.mode = .idle →
    exec (.ctSet sym len) s = .next (ctSetEffect Config.LMAX sym len s) ∧ ¬ len.toNat > Config.LMAX ∧
    (s.code.toNat ≥ 2 ^ len.toNat →
      exec (.ctSet sym len) s = .next { s with err := 4#4, errInfo := encode (.ctSet sym len), mode := .fault }) ∧
    (s.code.getLsbD 255 = true →
      exec (.ctSet sym len) s = .next { s with err := 4#4, errInfo := encode (.ctSet sym len), mode := .fault })) ∧
  ∀ (sym : Byte) (len : BitVec 8), checkedFirst (.ctSet sym len) .idle

/-- Rule R114, and rule R25 in part: among commands only `CT.CLR` and `CT.SET` change the table, and only in `IDLE`; in
an open session they raise `SEQ` and leave it as it is. -/
def Obligations.OnlyTableCommandsWriteTheTable : Prop :=
  ∀ (i : Instr) (s t : State), exec i s = .next t →
    (t.ct ≠ s.ct → s.mode = .idle ∧ t.mode = .idle ∧ (i = .ctClr ∨ ∃ sym len, i = .ctSet sym len)) ∧
    ((i = .ctClr ∨ ∃ sym len, i = .ctSet sym len) → s.mode = .enc ∨ s.mode = .dec →
      t = { s with err := 2#4, errInfo := encode i, mode := .fault })

/-- Rule R102: `CT.LOAD` of a codeword of at most 255 bits makes it the symbol's, whatever `CODE` held, and changes no
other entry. -/
def Obligations.CtLoadStoresTheCodeword : Prop :=
  ∀ (s : State) (sym : Byte) (w : List Bool), s.mode = .idle → w.length ≤ 255 →
    ∃ t, performAll (ctLoad sym w) s = .next t ∧ (entryAt t.ct sym).bits = w ∧
      (∀ other : Byte, other ≠ sym → entryAt t.ct other = entryAt s.ct other) ∧
      t.code.toNat = bitValue w ∧ t = { s with ct := t.ct, code := t.code }

/-! ## The encoder -/

/-- Rule R121: `ENC.START` in `IDLE`, and the checks before it. The decoder's registers, the table and `CODE` stay. -/
def Obligations.EncStartOpensASession : Prop :=
  (∀ s : State, s.mode = .idle →
    exec .encStart s = .next { s with nb := 0#3, bb := 0#8, pad := 0#3, done := false, mode := .enc }) ∧
  checkedFirst .encStart .idle

/-- Rule R122: `ENC.SYM` of a symbol with a codeword, in the rule's own numbers, and that it writes nothing but the
output, `BB` and `NB`. Of a symbol without one it raises `NOCODE` and changes nothing else. And the checks before it. -/
def Obligations.EncSymFollowsTheBarrelShifter : Prop :=
  ∀ sym : Byte,
    (∀ s : State, s.mode = .enc →
      ((entryAt s.ct sym).len ≠ 0#8 →
        ∃ (bytes : List Byte) (nb : BitVec 3) (bb : Byte),
          exec (.encSym sym) s = .next { s with out := s.out ++ bytes, nb := nb, bb := bb } ∧
          let t := s.nb.toNat + (entryAt s.ct sym).len.toNat
          let v := s.bb.toNat / 2 ^ (8 - s.nb.toNat) * 2 ^ (entryAt s.ct sym).len.toNat +
            (entryAt s.ct sym).code.toNat
          bytes.length = t / 8 ∧
          (∀ i, (h : i < bytes.length) → bytes[i].toNat = v / 2 ^ (t - 8 - 8 * i) % 256) ∧
          nb.toNat = t % 8 ∧ bb.toNat = v % 2 ^ (t % 8) * 2 ^ (8 - t % 8)) ∧
      ((entryAt s.ct sym).len = 0#8 →
        exec (.encSym sym) s = .next { s with err := 5#4, errInfo := encode (.encSym sym), mode := .fault })) ∧
    checkedFirst (.encSym sym) .enc

/-- Rule R124: the barrel-shifter law in bit strings. -/
def Obligations.BarrelShifterLosesNoBit : Prop :=
  ∀ (s : State) (sym : Byte), s.mode = .enc → pendingWf s.nb s.bb → (entryAt s.ct sym).wf Config.LMAX →
    (entryAt s.ct sym).len ≠ 0#8 →
    ∃ t, exec (.encSym sym) s = .next t ∧ pendingWf t.nb t.bb ∧ s.out <+: t.out ∧
      streamBits (emittedSince s t) ++ pendingBits t.toBlock = pendingBits s.toBlock ++ (entryAt s.ct sym).bits

/-- Rule R123: `ENC.FIN` emits the pending bits as one byte and counts the padding, and the checks before it. It leaves
the decoder's registers, the table and `CODE`. -/
def Obligations.EncFinPadsAndCloses : Prop :=
  (∀ s : State, s.mode = .enc →
    (s.nb ≠ 0#3 → ∃ pad : BitVec 3, pad.toNat = 8 - s.nb.toNat ∧
      exec .encFin s = .next { s with out := s.out ++ [s.bb], pad := pad, nb := 0#3, bb := 0#8, mode := .idle,
                                      done := true }) ∧
    (s.nb = 0#3 →
      exec .encFin s = .next { s with pad := 0#3, nb := 0#3, bb := 0#8, mode := .idle, done := true })) ∧
  checkedFirst .encFin .enc

/-- Rule R125: the session law of the encoder, with `NOP` and register accesses anywhere in the session. -/
def Obligations.EncoderSessionPacksTheCodewords : Prop :=
  ∀ (s : State) (syms : List Byte), s.mode = .idle → tableWf Config.LMAX s.ct → (∀ sym ∈ syms, hasCode s.ct sym) →
    (∀ ops, Interleaved (encSession syms) ops → ∃ t bytes, performAll ops s = .next t ∧ t.out = s.out ++ bytes ∧
      streamBits bytes = codewords s.ct syms ++ List.replicate ((8 - (codewords s.ct syms).length % 8) % 8) false ∧
      t.pad.toNat = (8 - (codewords s.ct syms).length % 8) % 8 ∧ t.done = true ∧ t.mode = .idle ∧ t.ct = s.ct) ∧
    (∀ ops, Interleaved (.encStart :: syms.map .encSym) ops → ∃ t, performAll ops s = .next t ∧ t.mode = .enc ∧
      t.nb.toNat = (codewords s.ct syms).length % 8)

/-- Rule R120: the modes that permit the encoder commands; and whatever one does, it writes neither the table, nor
`CODE`, nor the decoder's registers, and it reads neither `CODE` nor the decoder's registers: with other values there it
does the same. -/
def Obligations.EncoderCommandsFrame : Prop :=
  (checkedFirst .encStart .idle ∧ (∀ sym, checkedFirst (.encSym sym) .enc) ∧ checkedFirst .encFin .enc) ∧
  ∀ (i : Instr) (s t : State), (i = .encStart ∨ (∃ sym, i = .encSym sym) ∨ i = .encFin) → exec i s = .next t →
    (t.ct = s.ct ∧ t.code = s.code ∧ t.hdr = s.hdr ∧ t.dpad = s.dpad ∧ t.holdV = s.holdV ∧ t.hold = s.hold ∧
      t.accLen = s.accLen ∧ t.acc = s.acc ∧ t.reads = s.reads ∧ t.pending = s.pending ∧ t.leaving = s.leaving ∧
      t.sink = s.sink) ∧
    ∀ (code : Staging) (hdr holdV : Bool) (dpad : BitVec 3) (hold : Byte) (accLen : BitVec 8) (acc : CodeBits),
      exec i { s with code := code, hdr := hdr, holdV := holdV, dpad := dpad, hold := hold, accLen := accLen,
                      acc := acc } =
        .next { t with code := code, hdr := hdr, holdV := holdV, dpad := dpad, hold := hold, accLen := accLen,
                       acc := acc }

/-- Rules R37, R126, R146: a command appends to `OUT` at most the bytes of the rules' bounds. -/
def Obligations.CommandsEmitAtMostTheirBound : Prop :=
  ∀ (i : Instr) (s t : State), exec i s = .next t →
    ∃ bytes, t.out = s.out ++ bytes ∧ bytes.length ≤ emitBound i

/-! ## The decoder -/

/-- Rule R67: `Lookup` answers the least of the symbols whose entry has these bits and this length, and none when there
is none. -/
def Obligations.LookupFindsTheLeastMatch : Prop :=
  ∀ (ct : Vector Entry 256) (acc : CodeBits) (n : BitVec 8), n ≠ 0#8 →
    (lookup ct acc n = none ↔ ¬ ∃ sym : Byte, (entryAt ct sym).len = n ∧ (entryAt ct sym).code = acc) ∧
    (∀ sym : Byte, lookup ct acc n = some sym ↔
      IsLeast { k : Nat | ∃ o : Byte, o.toNat = k ∧ (entryAt ct o).len = n ∧ (entryAt ct o).code = acc } sym.toNat)

/-- Rule R136: `ShiftBit`. With the accumulator full it raises and changes nothing, else it appends the bit, and a match
emits the symbol and clears the accumulator. -/
def Obligations.ShiftBitAccumulatesAndMatches : Prop :=
  ∀ (lmax : Nat) (x : Bool) (s : State), Config.legalLmax lmax → s.accLen.toNat ≤ lmax →
    s.acc.toNat < 2 ^ s.accLen.toNat →
    (s.accLen.toNat = lmax → shiftBit lmax x s = none) ∧
    (s.accLen.toNat ≠ lmax → ∃ (acc : CodeBits) (n : BitVec 8),
      acc.toNat = s.acc.toNat * 2 + x.toNat ∧ n.toNat = s.accLen.toNat + 1 ∧
      shiftBit lmax x s = match lookup s.ct acc n with
        | some sym => some { s with out := s.out ++ [sym], acc := 0#255, accLen := 0#8 }
        | none => some { s with acc := acc, accLen := n })

/-- Rule R137: `DEC.START` in `IDLE`, and the checks before it. `PAD`, the encoder's registers, the table and `CODE`
stay. -/
def Obligations.DecStartOpensASession : Prop :=
  (∀ s : State, s.mode = .idle →
    exec .decStart s = .next { s with hdr := false, dpad := 0#3, holdV := false, hold := 0#8, acc := 0#255,
                                      accLen := 0#8, done := false, mode := .dec }) ∧
  checkedFirst .decStart .idle

/-- Rule R138: `DEC.BYTE` on the header, on the first payload byte, and on a later one, where the held byte's eight bits
are shifted from bit 7 down and a bit that finds the accumulator full raises `ACCOVF`. And the checks before it. -/
def Obligations.DecByteTakesHeaderThenHolds : Prop :=
  ∀ byte : Byte,
    (∀ s : State, s.mode = .dec →
      (s.hdr = false → byte.toNat ≤ 7 → ∃ d : BitVec 3, d.toNat = byte.toNat ∧
        exec (.decByte byte) s = .next { s with dpad := d, hdr := true }) ∧
      (s.hdr = false → byte.toNat > 7 →
        exec (.decByte byte) s = .next { s with err := 8#4, errInfo := encode (.decByte byte), mode := .fault }) ∧
      (s.hdr = true → s.holdV = false → exec (.decByte byte) s = .next { s with hold := byte, holdV := true }) ∧
      (s.hdr = true → s.holdV = true →
        ∀ (u : State) (all : Bool), (u, all) = shiftBits Config.LMAX [s.hold.getLsbD 7, s.hold.getLsbD 6,
            s.hold.getLsbD 5, s.hold.getLsbD 4, s.hold.getLsbD 3, s.hold.getLsbD 2, s.hold.getLsbD 1,
            s.hold.getLsbD 0] s →
          (all = true → exec (.decByte byte) s = .next { u with hold := byte, holdV := true }) ∧
          (all = false → exec (.decByte byte) s =
            .next { u with err := 11#4, errInfo := encode (.decByte byte), mode := .fault }))) ∧
    checkedFirst (.decByte byte) .dec

/-- Rule R139: `DEC.FIN` without a header, without a payload byte, and with a held byte, whose bits from 7 down to `DPAD`
are shifted. It closes the session when no bit is left over. And the checks before it. -/
def Obligations.DecFinDropsThePaddingAndCloses : Prop :=
  (∀ s : State, s.mode = .dec →
    (s.hdr = false → exec .decFin s = .next { s with err := 9#4, errInfo := encode .decFin, mode := .fault }) ∧
    (s.hdr = true → s.holdV = false → s.dpad ≠ 0#3 →
      exec .decFin s = .next { s with err := 9#4, errInfo := encode .decFin, mode := .fault }) ∧
    (s.hdr = true → s.holdV = false → s.dpad = 0#3 → s.accLen = 0#8 →
      exec .decFin s = .next { s with hold := 0#8, holdV := false, mode := .idle, done := true }) ∧
    (s.hdr = true → s.holdV = false → s.dpad = 0#3 → s.accLen ≠ 0#8 →
      exec .decFin s = .next { s with err := 10#4, errInfo := encode .decFin, mode := .fault }) ∧
    (s.hdr = true → s.holdV = true →
      ∀ (u : State) (all : Bool),
        (u, all) = shiftBits Config.LMAX ((List.range (8 - s.dpad.toNat)).map fun j => s.hold.getLsbD (7 - j)) s →
        (all = true → u.accLen = 0#8 →
          exec .decFin s = .next { u with hold := 0#8, holdV := false, mode := .idle, done := true }) ∧
        (all = true → u.accLen ≠ 0#8 →
          exec .decFin s = .next { u with err := 10#4, errInfo := encode .decFin, mode := .fault }) ∧
        (all = false →
          exec .decFin s = .next { u with err := 11#4, errInfo := encode .decFin, mode := .fault }))) ∧
  checkedFirst .decFin .dec

/-- Rule R140: the session law of the decoder, with `NOP` and register accesses anywhere in the session. Rule R141: until
`DEC.FIN` the last byte fed is held and not decoded. -/
def Obligations.DecoderSessionRunsShiftBit : Prop :=
  ∀ (s : State) (h : Byte) (payload : List Byte), s.mode = .idle →
    (∀ ops, Interleaved (decSession h payload) ops → ∃ t, performAll ops s = .next t ∧
      let r := shiftBits Config.LMAX ((streamBits payload).take (8 * payload.length - h.toNat))
        { s with acc := 0#255, accLen := 0#8 }
      (h.toNat > 7 → t.mode = .fault ∧ t.err = 8#4 ∧ t.errInfo = encode (.decByte h) ∧ t.out = s.out) ∧
      (h.toNat ≤ 7 → payload = [] → h ≠ 0#8 →
        t.mode = .fault ∧ t.err = 9#4 ∧ t.errInfo = encode .decFin ∧ t.out = s.out) ∧
      (h.toNat ≤ 7 → (payload ≠ [] ∨ h = 0#8) → t.out = r.1.out ∧
        (r.2 = false → t.mode = .fault ∧ t.err = 11#4) ∧
        (r.2 = true → r.1.accLen ≠ 0#8 → t.mode = .fault ∧ t.err = 10#4 ∧ t.errInfo = encode .decFin) ∧
        (r.2 = true → r.1.accLen = 0#8 → t.mode = .idle ∧ t.done = true ∧ t.err = s.err))) ∧
    (∀ ops, h.toNat ≤ 7 → Interleaved (.decStart :: .decByte h :: payload.map .decByte) ops →
      ∃ t, performAll ops s = .next t ∧
      let r := shiftBits Config.LMAX (streamBits payload.dropLast) { s with acc := 0#255, accLen := 0#8 }
      t.out = r.1.out ∧ (r.2 = false → t.mode = .fault ∧ t.err = 11#4) ∧
      (r.2 = true → t.mode = .dec ∧ t.acc = r.1.acc ∧ t.accLen = r.1.accLen ∧
        t.holdV = !payload.isEmpty ∧ t.hold = payload.getLastD 0#8))

/-- Rule R144: with a prefix-free table the decoder is the inverse of the encoder. -/
def Obligations.DecoderInvertsEncoder : Prop :=
  ∀ (s t u : State) (syms : List Byte) (encOps decOps : List HostOp),
    s.mode = .idle → tableWf Config.LMAX s.ct → prefixFree s.ct → (∀ sym ∈ syms, hasCode s.ct sym) →
    Interleaved (encSession syms) encOps → performAll encOps s = .next t →
    u.mode = .idle → u.ct = s.ct →
    Interleaved (decSession (t.pad.setWidth 8) (emittedSince s t)) decOps →
    ∃ v, performAll decOps u = .next v ∧ v.out = u.out ++ syms ∧ v.mode = .idle ∧ v.done = true

/-- Rule R142: the padding bits are dropped unseen. Two held bytes that differ only below bit `DPAD` give `DEC.FIN` the
same result, and at least bit 7 is decoded. -/
def Obligations.PaddingBitsAreDroppedUnseen : Prop :=
  ∀ (s : State) (hold : Byte), s.mode = .dec → s.hdr = true → s.holdV = true →
    (∀ j, s.dpad.toNat ≤ j → j < 8 → hold.getLsbD j = s.hold.getLsbD j) →
    hold.getLsbD 7 = s.hold.getLsbD 7 ∧
    ∃ t u, exec .decFin s = .next t ∧ exec .decFin { s with hold := hold } = .next u ∧
      u = { t with hold := u.hold } ∧ (t.mode = .idle → u = t)

/-- Rules R67, R113, R136: a symbol whose codeword has another codeword as a proper prefix, or equals the codeword of a
lower-numbered symbol, is never decoded. -/
def Obligations.ShadowedSymbolsAreNeverDecoded : Prop :=
  ∀ (s : State) (a b : Byte) (bits : List Bool), tableWf Config.LMAX s.ct → hasCode s.ct a →
    (entryAt s.ct a).bits <+: (entryAt s.ct b).bits →
    ((entryAt s.ct a).len ≠ (entryAt s.ct b).len ∨ a.toNat < b.toNat) →
    s.acc = 0#255 → s.accLen = 0#8 →
    ∃ bytes, (shiftBits Config.LMAX bits s).1.out = s.out ++ bytes ∧ b ∉ bytes

/-- Rule R135: the modes that permit the decoder commands; and whatever one does, it writes neither the table, nor
`CODE`, nor the encoder's registers, and it reads neither `CODE` nor the encoder's registers: with other values there it
does the same. -/
def Obligations.DecoderCommandsFrame : Prop :=
  (checkedFirst .decStart .idle ∧ (∀ byte, checkedFirst (.decByte byte) .dec) ∧ checkedFirst .decFin .dec) ∧
  ∀ (i : Instr) (s t : State), (i = .decStart ∨ (∃ byte, i = .decByte byte) ∨ i = .decFin) → exec i s = .next t →
    (t.ct = s.ct ∧ t.code = s.code ∧ t.nb = s.nb ∧ t.bb = s.bb ∧ t.pad = s.pad ∧ t.reads = s.reads ∧
      t.pending = s.pending ∧ t.leaving = s.leaving ∧ t.sink = s.sink) ∧
    ∀ (code : Staging) (nb pad : BitVec 3) (bb : Byte),
      exec i { s with code := code, nb := nb, pad := pad, bb := bb } =
        .next { t with code := code, nb := nb, pad := pad, bb := bb }

/-! ## The whole machine -/

/-- The invariant holds at reset: the block's (rules R24, R30, R32, R34, R35, R39), and the bound on the bytes still
leaving, a field that is the model's own and empty at reset (log entry 10). -/
def Obligations.ResetSatisfiesTheInvariant : Prop := State.reset.Inv

/-- Every step keeps the invariant: the block's (rules R24, R30, R32, R34, R35, R201), and that no more bytes are leaving
than one command emits (rules R68, R126, R146, over the model's own field of log entry 10). -/
def Obligations.EveryStepKeepsTheInvariant : Prop :=
  ∀ s t : State, s.Inv → step s = .next t → t.Inv

/-- Rule R37: no step takes a byte out of `OUT`, and no host operation reads it back into the block: with another record
of earlier bytes an operation does the same and appends the same bytes. That a byte reaches `OUT` when it is handed over
is the model's reading (log entry 10). -/
def Obligations.OutputOnlyGrows : Prop :=
  (∀ s t : State, step s = .next t → s.out <+: t.out) ∧
  ∀ (op : HostOp) (s t : State), hostOp op s = .next t →
    ∃ bytes, t.out = s.out ++ bytes ∧ ∀ out, hostOp op { s with out := out } = .next { t with out := out ++ bytes }

/-- Rules R19, R68, R82: the sink's schedule changes no value. Whatever the sink answers, the host operations take the
block, the output and the values read to where they are when performed one after another, and at the end the sink has
every byte. The list of operations, the list of the sink's answers and the bytes waiting outside `OUT` are the model's
(log entries 1, 3 and 10). -/
def Obligations.SinkScheduleChangesNoValue : Prop :=
  ∀ (s t : State), (∀ op ∈ s.pending, op ≠ .reset) → s.leaving = [] →
    performAll s.pending { s with pending := [] } = .next t →
    ∃ u, Sys2Proof.core.run (s.pending.length + s.sink.length) s = .next u ∧ u.toBlock = t.toBlock ∧ u.out = t.out ∧
      u.reads = t.reads ∧ u.pending = [] ∧ u.leaving = []

/-- Rule R82: while a byte waits for the sink the block begins no host operation, and the step only offers the bytes
again, in their order. Two clauses are the model's: that the bytes handed over join `OUT` and the rest stays outside it
in `leaving` (log entry 10), and that all bytes are handed over or the sink has fewer answers to come (log entry 3). -/
def Obligations.HeldBlockOnlyOffersItsBytes : Prop :=
  ∀ s : State, s.leaving ≠ [] → (∀ rest, s.pending ≠ .reset :: rest) →
    ∃ (given left : List Byte) (sink : List Bool), s.leaving = given ++ left ∧
      step s = .next { s with out := s.out ++ given, leaving := left, sink := sink } ∧
      (left = [] ∨ sink.length < s.sink.length)

/-- Rules R82, R247: a hold ends with every byte handed over, in order, and nothing of the block changed. That the sink
is a list of answers, which bounds the steps, is the model's choice (log entry 3), and that the waiting bytes stand outside
`OUT` and join it as they are handed over is its reading (log entry 10). -/
def Obligations.EveryHoldEnds : Prop :=
  ∀ s : State, (∀ rest, s.pending ≠ .reset :: rest) →
    ∃ n t, n ≤ s.sink.length + 1 ∧ Sys2Proof.core.run n s = .next t ∧ t.leaving = [] ∧ t.toBlock = s.toBlock ∧
      t.out = s.out ++ s.leaving ∧ t.pending = s.pending ∧ t.reads = s.reads

/-- Rules R10, R217 and log entries 2, 10: with no host operation to come and no byte waiting the block keeps its state. -/
def Obligations.IdleBlockKeepsItsState : Prop :=
  ∀ s : State, s.pending = [] → s.leaving = [] → step s = .next s

/-! ## Host software around the block -/

/-- Rules R176, R178: `CT.CLR` and a `CT.LOAD` of every pair leave exactly those codewords in the table. The
order of the pairs is the model's choice (log entry 14), and the statement holds for each order. -/
def Obligations.LoadedTableHoldsExactlyTheCodes : Prop :=
  ∀ (s : State) (codes : List (Byte × List Bool)), s.mode = .idle → (codes.map Prod.fst).Nodup →
    (∀ p ∈ codes, 1 ≤ p.2.length ∧ p.2.length ≤ 255) →
    ∃ t, performAll (loadTable codes) s = .next t ∧ holdsCodes t.ct codes ∧ tableWf Config.LMAX t.ct ∧
      t = { s with ct := t.ct, code := t.code }

/-- Rules R172, R177: parsing the serialised tree gives the tree and the bits after it. -/
def Obligations.ParseInvertsSerialise : Prop :=
  ∀ (t : CodeTree) (rest : List Bool), parseTree ((t.bits ++ rest).length + 1) (t.bits ++ rest) = some (t, rest)

/-- Rule R171: no codeword of a tree is a prefix of another leaf's, none is empty, and none is longer than one less than
the number of leaves, a lone leaf's aside. That the pairs stand in the order of the leaves is the model's choice (log
entry 14), since rule R169 gives a mapping. -/
def Obligations.TreeCodesArePrefixFree : Prop :=
  ∀ t : CodeTree,
    t.codes.Pairwise (fun p q => ¬ p.2 <+: q.2 ∧ ¬ q.2 <+: p.2) ∧ t.codes.map Prod.fst = t.symbols ∧
    (∀ p ∈ t.codes, 1 ≤ p.2.length ∧ p.2.length ≤ max 1 (t.symbols.length - 1))

/-- Rules R166, R167, R171: the leaves of an input's tree are the symbols of the input, each once, and only the empty
input has no tree. -/
def Obligations.TreeLeavesAreTheInputSymbols : Prop :=
  ∀ x : List Byte, (buildTree x = none ↔ x = []) ∧
    ∀ t, buildTree x = some t → t.symbols.Nodup ∧ ∀ b, b ∈ t.symbols ↔ b ∈ x

/-- Rule R145: with the table of a tree of two or more leaves, decoding by `ShiftBit` emits what walking the tree emits,
never overflows the accumulator, and the accumulated bits are the path to the subtree the walk has reached, which is no
leaf. With the table of a lone leaf the bit 0 emits its symbol, and after a bit 1 nothing is emitted ever. -/
def Obligations.TableDecodingIsTreeWalking : Prop :=
  (∀ (l r : CodeTree) (s : State) (bits : List Bool), (CodeTree.node l r).symbols.Nodup → tableWf Config.LMAX s.ct →
    holdsCodes s.ct (CodeTree.node l r).codes → s.acc = 0#255 → s.accLen = 0#8 →
    (shiftBits Config.LMAX bits s).1.out = s.out ++ (walkTree (.node l r) (.node l r) bits).1 ∧
    (shiftBits Config.LMAX bits s).2 = true ∧
    (CodeTree.node l r).follow (accBits (shiftBits Config.LMAX bits s).1.toBlock) =
      some (walkTree (.node l r) (.node l r) bits).2 ∧
    (∃ a b, (walkTree (.node l r) (.node l r) bits).2 = .node a b)) ∧
  (∀ (sym : Byte) (s : State) (bits : List Bool), tableWf Config.LMAX s.ct →
    holdsCodes s.ct (CodeTree.leaf sym).codes → s.acc = 0#255 → s.accLen = 0#8 →
    shiftBit Config.LMAX false s = some { s with out := s.out ++ [sym], acc := 0#255, accLen := 0#8 } ∧
    (shiftBits Config.LMAX (true :: bits) s).1.out = s.out)

/-- Rules R18, R176, R179: compressing any input with the block and decompressing the container with a block gives the
input back, whatever table the blocks held before. -/
def Obligations.DecompressInvertsCompress : Prop :=
  ∀ (s u : State) (x : List Byte), s.mode = .idle → u.mode = .idle →
    ∃ c, (compress s x).1 = some c ∧ (decompress u c).1 = some x

/-- Rules R175, R179: the empty container, and the containers the host rejects without the block. -/
def Obligations.EmptyAndUnreadableContainers : Prop :=
  ∀ s : State, compress s [] = (some [0x00#8], s) ∧ decompress s [0x00#8] = (some [], s) ∧
    decompress s [] = (none, s) ∧ (∀ b bs, decompress s (0x00#8 :: b :: bs) = (none, s)) ∧
    (∀ b bs, b ≠ 0x00#8 → b ≠ 0x01#8 → decompress s (b :: bs) = (none, s)) ∧ decompress s [0x01#8] = (none, s)

/-! ## The end of a run -/

/-- Rules R68, R248: a permitted `FIN` that raises no fault ends the run well exactly when the sink has accepted every
byte it emitted, at once or at the end of the hold, and `OUT` then holds what the complete command puts there. The
number of steps of the hold rests on the list of the sink's answers (log entry 3), and the bytes waiting outside `OUT` on
log entry 10. -/
def Obligations.RunEndsWellWhenFinCompletes : Prop :=
  ∀ (i : Instr) (s u : State) (rest : List HostOp), (i = .encFin ∨ i = .decFin) → permittedIn i s.mode = true →
    s.err = 0#4 → s.leaving = [] → s.pending = command i :: rest → exec i { s with pending := rest } = .next u →
    u.mode ≠ .fault →
    ∃ t, step s = .next t ∧ ¬ s.endedWell ∧ (t.endedWell ↔ t.leaving = []) ∧ t.out ++ t.leaving = u.out ∧
      ((∀ later, rest ≠ .reset :: later) → ∃ n v, n ≤ t.sink.length + 1 ∧ Sys2Proof.core.run n t = .next v ∧
        v.endedWell ∧ v.out = u.out ∧ v.pad = u.pad)

/-! ## The step relation -/

/-- Rules R9, R40 in part: the block's step takes the host operation as its input and sees nothing but the block. Whatever
program the host still has, whatever the sink answers and whatever was recorded before, a step that takes an operation
gives the block, the new bytes and the value read that the block's step answers, and is refused where that is. A reset of
any block gives the constant state, no byte and no value. The list the operation is taken from, the list of the sink's
answers, the bytes waiting outside `OUT` and the list of values read are the model's (log entries 1, 3, 10 and 5). -/
def Obligations.BlockStepTakesTheOperation : Prop :=
  (∀ (op : HostOp) (rest : List HostOp) (s : State), s.pending = op :: rest → op = .reset ∨ s.leaving = [] →
    (∀ r, blockStep op s.toBlock = .next r → ∃ t, step s = .next t ∧ t.toBlock = r.block ∧
      t.out ++ t.leaving = s.out ++ r.emitted ∧ t.reads = s.reads ++ r.read.toList ∧ t.pending = rest) ∧
    ∀ e, blockStep op s.toBlock = .refused e → step s = .refused e) ∧
  ∀ b : Block, blockStep .reset b = .next { block := Block.reset, emitted := [], read := none }

/-! ## The codes of an input -/

/-- Rules R169, R171: no tree has no codes. The codes of an input's tree, of the empty input's too, give every symbol of
the input one codeword and no other symbol any. The inverse gives each codeword its symbol, and no codeword two. -/
def Obligations.CodesOfAnInputCoverItsSymbols : Prop :=
  codesOf none = [] ∧ inverseCodesOf none = [] ∧
  (∀ x : List Byte, ((codesOf (buildTree x)).map Prod.fst).Nodup ∧
    ((inverseCodesOf (buildTree x)).map Prod.fst).Nodup ∧
    ∀ sym, (∃ w, (sym, w) ∈ codesOf (buildTree x)) ↔ sym ∈ x) ∧
  ∀ (root : Option CodeTree) (sym : Byte) (w : List Bool), (w, sym) ∈ inverseCodesOf root ↔ (sym, w) ∈ codesOf root
end

