-- ==== Sys2Proof/Laws/Bits.lean ====
section
/-! SUPPORT. Laws of bit strings and their values (rule R13), of bytes as bits (rules R70, R71) and of cutting a bit
string into bytes (rule R173). -/

namespace Sys2Proof.Machine

@[simp] theorem bitString_length (n v : Nat) : (bitString n v).length = n := by simp [bitString]

theorem bitString_getElem (n v i : Nat) (h : i < (bitString n v).length) :
    (bitString n v)[i] = v.testBit (n - 1 - i) := by simp [bitString]

@[simp] theorem bitString_zero (v : Nat) : bitString 0 v = [] := rfl

/-- The last bit of a bit string is bit 0 of its value. -/
theorem bitString_succ (n v : Nat) : bitString (n + 1) v = bitString n (v / 2) ++ [v.testBit 0] := by
  refine List.ext_getElem (by simp) fun i h1 h2 => ?_
  rw [bitString_getElem]
  by_cases h : i < n
  · rw [List.getElem_append_left (by simpa using h), bitString_getElem, Nat.testBit_div_two]
    congr 1; omega
  · have : i = n := by simp at h1; omega
    subst this; simp

theorem bitValue_append (s t : List Bool) : bitValue (s ++ t) = bitValue s * 2 ^ t.length + bitValue t := by
  induction t using List.reverseRecOn with
  | nil => simp [bitValue]
  | append_singleton t b ih =>
    simp only [bitValue, ← List.append_assoc, List.foldl_append, List.foldl_cons, List.foldl_nil,
      List.length_append, List.length_singleton] at ih ⊢
    rw [ih]; ring

@[simp] theorem bitValue_nil : bitValue [] = 0 := rfl

@[simp] theorem bitValue_singleton (b : Bool) : bitValue [b] = b.toNat := by simp [bitValue]

theorem bitValue_lt (s : List Bool) : bitValue s < 2 ^ s.length := by
  induction s using List.reverseRecOn with
  | nil => simp
  | append_singleton s b ih =>
    rw [bitValue_append]; have := b.toNat_lt; simp [pow_succ]; omega

/-- `val(bits_n(v)) = v` (rule R13), and above `n` bits the value is taken modulo `2^n`. -/
theorem bitValue_bitString (n v : Nat) : bitValue (bitString n v) = v % 2 ^ n := by
  induction n generalizing v with
  | zero => simp [Nat.mod_one]
  | succ n ih =>
    rw [bitString_succ, bitValue_append, ih, bitValue_singleton, List.length_singleton, pow_one, pow_succ',
      Nat.mod_mul, Nat.testBit_zero]
    rcases Nat.mod_two_eq_zero_or_one v with h | h <;> simp [h] <;> ring

/-- A bit string is the string of its own value. -/
theorem bitString_bitValue (s : List Bool) : bitString s.length (bitValue s) = s := by
  induction s using List.reverseRecOn with
  | nil => simp
  | append_singleton s b ih =>
    rw [List.length_append, List.length_singleton, bitString_succ, bitValue_append]
    cases b
    · simp [ih, Nat.mul_mod_left]
    · have : (bitValue s * 2 + 1) / 2 = bitValue s := by omega
      simp [this, ih]

theorem bitString_mod (n v : Nat) : bitString n (v % 2 ^ n) = bitString n v := by
  refine List.ext_getElem (by simp) fun i h1 h2 => ?_
  rw [bitString_getElem, bitString_getElem, Nat.testBit_mod_two_pow]
  have : i < n := by simpa using h1
  simp; omega

theorem bitString_inj {n a b : Nat} (ha : a < 2 ^ n) (hb : b < 2 ^ n) (h : bitString n a = bitString n b) : a = b := by
  have := congrArg bitValue h
  rwa [bitValue_bitString, bitValue_bitString, Nat.mod_eq_of_lt ha, Nat.mod_eq_of_lt hb] at this

/-- The bit string of a number made of two fields is the fields' bit strings one after the other. -/
theorem bitString_append (m n a b : Nat) (hb : b < 2 ^ n) :
    bitString (m + n) (a * 2 ^ n + b) = bitString m a ++ bitString n b := by
  have h := bitString_bitValue (bitString m a ++ bitString n b)
  rw [bitValue_append, bitValue_bitString, bitValue_bitString, Nat.mod_eq_of_lt hb] at h
  simp only [List.length_append, bitString_length] at h
  rw [← h, ← bitString_mod (m + n) (a * 2 ^ n + b), ← bitString_mod (m + n) (a % 2 ^ m * 2 ^ n + b)]
  congr 1
  conv_lhs => rw [← Nat.div_add_mod a (2 ^ m)]
  rw [show (2 ^ m * (a / 2 ^ m) + a % 2 ^ m) * 2 ^ n + b = (a % 2 ^ m * 2 ^ n + b) + 2 ^ (m + n) * (a / 2 ^ m) by
    rw [pow_add]; ring, Nat.add_mul_mod_self_left]

/-- The first bits of a bit string are the high part of its value. -/
theorem bitString_take (n v k : Nat) (h : k ≤ n) : (bitString n v).take k = bitString k (v / 2 ^ (n - k)) := by
  refine List.ext_getElem (by simp; omega) fun i h1 h2 => ?_
  have : i < k := by simpa using h2
  rw [List.getElem_take, bitString_getElem, bitString_getElem, Nat.testBit_div_two_pow]
  congr 1; omega

theorem bitString_drop (n v k : Nat) : (bitString n v).drop k = bitString (n - k) v := by
  refine List.ext_getElem (by simp) fun i h1 h2 => ?_
  have : i < n - k := by simpa using h2
  rw [List.getElem_drop, bitString_getElem, bitString_getElem]
  congr 1; omega

theorem bitString_zero_value (n : Nat) : bitString n 0 = List.replicate n false := by
  refine List.ext_getElem (by simp) fun i h1 h2 => ?_
  simp [bitString]

@[simp] theorem byteBits_length (b : Byte) : (byteBits b).length = 8 := by simp [byteBits]

/-- A byte is the value of its bits (rule R70). -/
theorem ofNat_bitValue_byteBits (b : Byte) : BitVec.ofNat 8 (bitValue (byteBits b)) = b := by
  rw [byteBits, bitValue_bitString]
  apply BitVec.eq_of_toNat_eq
  rw [BitVec.toNat_ofNat, Nat.mod_mod, Nat.mod_eq_of_lt b.isLt]

theorem byteBits_ofNat (v : Nat) : byteBits (BitVec.ofNat 8 v) = bitString 8 v := by
  rw [byteBits, BitVec.toNat_ofNat, bitString_mod]

theorem byteBits_ofNat_bitValue (s : List Bool) (h : s.length = 8) : byteBits (BitVec.ofNat 8 (bitValue s)) = s := by
  rw [byteBits_ofNat, ← h, bitString_bitValue]

@[simp] theorem streamBits_nil : streamBits [] = [] := rfl

@[simp] theorem streamBits_cons (b : Byte) (bs : List Byte) : streamBits (b :: bs) = byteBits b ++ streamBits bs := rfl

@[simp] theorem streamBits_append (bs cs : List Byte) : streamBits (bs ++ cs) = streamBits bs ++ streamBits cs := by
  simp [streamBits]

@[simp] theorem streamBits_length (bs : List Byte) : (streamBits bs).length = 8 * bs.length := by
  induction bs with
  | nil => rfl
  | cons b bs ih => simp [ih]; ring

theorem byteBits_inj {b c : Byte} (h : byteBits b = byteBits c) : b = c := by
  rw [← ofNat_bitValue_byteBits b, h, ofNat_bitValue_byteBits]

theorem streamBits_inj {bs cs : List Byte} (h : streamBits bs = streamBits cs) : bs = cs := by
  induction bs generalizing cs with
  | nil =>
    cases cs with
    | nil => rfl
    | cons c cs => exact absurd (congrArg List.length h) (by simp; omega)
  | cons b bs ih =>
    cases cs with
    | nil => exact absurd (congrArg List.length h) (by simp)
    | cons c cs =>
      obtain ⟨h1, h2⟩ := List.append_inj h (by simp)
      rw [byteBits_inj h1, ih h2]

theorem padCount_le (n : Nat) : padCount n ≤ 7 := by unfold padCount; omega

theorem add_padCount_mod (n : Nat) : (n + padCount n) % 8 = 0 := by unfold padCount; omega

/-- The first byte of a bit string, and the bytes of the rest. -/
theorem cutBytes_append (s t : List Bool) (h : s.length = 8) :
    cutBytes (s ++ t) = BitVec.ofNat 8 (bitValue s) :: cutBytes t := by
  have hl : (s ++ t).length / 8 = t.length / 8 + 1 := by simp [h]
  rw [cutBytes, hl, List.range_succ_eq_map, List.map_cons, List.map_map, cutBytes]
  congr 1
  · simp [h]
  · refine List.map_congr_left fun i _ => ?_
    have : 8 * (i + 1) = s.length + 8 * i := by omega
    simp only [Function.comp_apply, Nat.succ_eq_add_one, this]
    rw [List.drop_append]
    simp [List.drop_eq_nil_of_le]

@[simp] theorem cutBytes_length (s : List Bool) : (cutBytes s).length = s.length / 8 := by simp [cutBytes]

/-- Cutting the bits of a byte sequence gives the byte sequence back. -/
theorem cutBytes_streamBits (bs : List Byte) : cutBytes (streamBits bs) = bs := by
  induction bs with
  | nil => rfl
  | cons b bs ih => rw [streamBits_cons, cutBytes_append _ _ (by simp), ofNat_bitValue_byteBits, ih]

/-- The bits of the bytes cut from a whole number of bytes are the bits cut. -/
theorem streamBits_cutBytes (s : List Bool) (h : s.length % 8 = 0) : streamBits (cutBytes s) = s := by
  obtain ⟨k, hk⟩ : ∃ k, s.length = 8 * k := ⟨s.length / 8, by omega⟩
  clear h
  induction k generalizing s with
  | zero => simp [List.length_eq_zero_iff.mp (by omega : s.length = 0), cutBytes]
  | succ k ih =>
    have h8 : (s.take 8).length = 8 := by simp; omega
    have hd : (s.drop 8).length = 8 * k := by simp; omega
    conv_lhs => rw [← List.take_append_drop 8 s]
    rw [cutBytes_append _ _ h8, streamBits_cons, byteBits_ofNat_bitValue _ h8, ih _ hd, List.take_append_drop]

/-- Bits after the last whole byte play no part in cutting. -/
theorem cutBytes_take (s : List Bool) : cutBytes (s.take (8 * (s.length / 8))) = cutBytes s := by
  have hl : (s.take (8 * (s.length / 8))).length / 8 = s.length / 8 := by simp; omega
  rw [cutBytes, hl, cutBytes]
  refine List.map_congr_left fun i hi => ?_
  have : i < s.length / 8 := by simpa using hi
  congr 2
  rw [List.drop_take, List.take_take]
  congr 1; omega

/-- The bits of the bytes cut from a bit string are its whole bytes. -/
theorem streamBits_cutBytes_take (s : List Bool) : streamBits (cutBytes s) = s.take (8 * (s.length / 8)) := by
  rw [← cutBytes_take]
  exact streamBits_cutBytes _ (by simp; omega)

@[simp] theorem padded_length (s : List Bool) : (padded s).length = s.length + padCount s.length := by simp [padded]

/-- The bytes of a packed bit string carry its bits and then its zero padding (rule R173). -/
theorem streamBits_packBits (s : List Bool) : streamBits (packBits s).2 = padded s :=
  streamBits_cutBytes _ (by rw [padded_length]; exact add_padCount_mod _)

theorem packBits_length (s : List Bool) : (packBits s).2.length = (s.length + padCount s.length) / 8 := by
  simp [packBits]

end Sys2Proof.Machine
end

