-- ==== Sys2Proof/Laws/State.lean ====
section
/-! SUPPORT. What each named update of the state leaves in each field: one lemma per field per update, so that no later
proof unfolds a record update. -/

namespace Sys2Proof.Machine

theorem State.ext_block {s t : State} (hb : s.toBlock = t.toBlock) (ho : s.out = t.out) (ht : s.leaving = t.leaving)
    (hs : s.sink = t.sink) (hp : s.pending = t.pending) (hr : s.reads = t.reads) : s = t := by
  cases s; cases t; simp_all

/-! ## `raiseFault` -/

@[simp] theorem raiseFault_mode (c : Cause) (w : Word) (s : State) : (raiseFault c w s).mode = .fault := rfl
@[simp] theorem raiseFault_ct (c : Cause) (w : Word) (s : State) : (raiseFault c w s).ct = s.ct := rfl
@[simp] theorem raiseFault_code (c : Cause) (w : Word) (s : State) : (raiseFault c w s).code = s.code := rfl
@[simp] theorem raiseFault_done (c : Cause) (w : Word) (s : State) : (raiseFault c w s).done = s.done := rfl
@[simp] theorem raiseFault_pad (c : Cause) (w : Word) (s : State) : (raiseFault c w s).pad = s.pad := rfl
@[simp] theorem raiseFault_err (c : Cause) (w : Word) (s : State) : (raiseFault c w s).err = c.bits := rfl
@[simp] theorem raiseFault_errInfo (c : Cause) (w : Word) (s : State) : (raiseFault c w s).errInfo = w := rfl
@[simp] theorem raiseFault_nb (c : Cause) (w : Word) (s : State) : (raiseFault c w s).nb = s.nb := rfl
@[simp] theorem raiseFault_bb (c : Cause) (w : Word) (s : State) : (raiseFault c w s).bb = s.bb := rfl
@[simp] theorem raiseFault_hdr (c : Cause) (w : Word) (s : State) : (raiseFault c w s).hdr = s.hdr := rfl
@[simp] theorem raiseFault_dpad (c : Cause) (w : Word) (s : State) : (raiseFault c w s).dpad = s.dpad := rfl
@[simp] theorem raiseFault_holdV (c : Cause) (w : Word) (s : State) : (raiseFault c w s).holdV = s.holdV := rfl
@[simp] theorem raiseFault_hold (c : Cause) (w : Word) (s : State) : (raiseFault c w s).hold = s.hold := rfl
@[simp] theorem raiseFault_accLen (c : Cause) (w : Word) (s : State) : (raiseFault c w s).accLen = s.accLen := rfl
@[simp] theorem raiseFault_acc (c : Cause) (w : Word) (s : State) : (raiseFault c w s).acc = s.acc := rfl
@[simp] theorem raiseFault_out (c : Cause) (w : Word) (s : State) : (raiseFault c w s).out = s.out := rfl
@[simp] theorem raiseFault_leaving (c : Cause) (w : Word) (s : State) : (raiseFault c w s).leaving = s.leaving := rfl
@[simp] theorem raiseFault_sink (c : Cause) (w : Word) (s : State) : (raiseFault c w s).sink = s.sink := rfl
@[simp] theorem raiseFault_pending (c : Cause) (w : Word) (s : State) : (raiseFault c w s).pending = s.pending := rfl
@[simp] theorem raiseFault_reads (c : Cause) (w : Word) (s : State) : (raiseFault c w s).reads = s.reads := rfl

/-! ## `emit` -/

@[simp] theorem emit_mode (bs : List Byte) (s : State) : (emit bs s).mode = s.mode := rfl
@[simp] theorem emit_ct (bs : List Byte) (s : State) : (emit bs s).ct = s.ct := rfl
@[simp] theorem emit_code (bs : List Byte) (s : State) : (emit bs s).code = s.code := rfl
@[simp] theorem emit_done (bs : List Byte) (s : State) : (emit bs s).done = s.done := rfl
@[simp] theorem emit_pad (bs : List Byte) (s : State) : (emit bs s).pad = s.pad := rfl
@[simp] theorem emit_err (bs : List Byte) (s : State) : (emit bs s).err = s.err := rfl
@[simp] theorem emit_errInfo (bs : List Byte) (s : State) : (emit bs s).errInfo = s.errInfo := rfl
@[simp] theorem emit_nb (bs : List Byte) (s : State) : (emit bs s).nb = s.nb := rfl
@[simp] theorem emit_bb (bs : List Byte) (s : State) : (emit bs s).bb = s.bb := rfl
@[simp] theorem emit_hdr (bs : List Byte) (s : State) : (emit bs s).hdr = s.hdr := rfl
@[simp] theorem emit_dpad (bs : List Byte) (s : State) : (emit bs s).dpad = s.dpad := rfl
@[simp] theorem emit_holdV (bs : List Byte) (s : State) : (emit bs s).holdV = s.holdV := rfl
@[simp] theorem emit_hold (bs : List Byte) (s : State) : (emit bs s).hold = s.hold := rfl
@[simp] theorem emit_accLen (bs : List Byte) (s : State) : (emit bs s).accLen = s.accLen := rfl
@[simp] theorem emit_acc (bs : List Byte) (s : State) : (emit bs s).acc = s.acc := rfl
@[simp] theorem emit_out (bs : List Byte) (s : State) : (emit bs s).out = s.out ++ bs := rfl
@[simp] theorem emit_leaving (bs : List Byte) (s : State) : (emit bs s).leaving = s.leaving := rfl
@[simp] theorem emit_sink (bs : List Byte) (s : State) : (emit bs s).sink = s.sink := rfl
@[simp] theorem emit_pending (bs : List Byte) (s : State) : (emit bs s).pending = s.pending := rfl
@[simp] theorem emit_reads (bs : List Byte) (s : State) : (emit bs s).reads = s.reads := rfl

/-! ## `softReset` -/

@[simp] theorem softReset_mode (s : State) : (softReset s).mode = Block.reset.mode := rfl
@[simp] theorem softReset_ct (s : State) : (softReset s).ct = s.ct := rfl
@[simp] theorem softReset_code (s : State) : (softReset s).code = Block.reset.code := rfl
@[simp] theorem softReset_done (s : State) : (softReset s).done = Block.reset.done := rfl
@[simp] theorem softReset_pad (s : State) : (softReset s).pad = Block.reset.pad := rfl
@[simp] theorem softReset_err (s : State) : (softReset s).err = Block.reset.err := rfl
@[simp] theorem softReset_errInfo (s : State) : (softReset s).errInfo = Block.reset.errInfo := rfl
@[simp] theorem softReset_nb (s : State) : (softReset s).nb = Block.reset.nb := rfl
@[simp] theorem softReset_bb (s : State) : (softReset s).bb = Block.reset.bb := rfl
@[simp] theorem softReset_hdr (s : State) : (softReset s).hdr = Block.reset.hdr := rfl
@[simp] theorem softReset_dpad (s : State) : (softReset s).dpad = Block.reset.dpad := rfl
@[simp] theorem softReset_holdV (s : State) : (softReset s).holdV = Block.reset.holdV := rfl
@[simp] theorem softReset_hold (s : State) : (softReset s).hold = Block.reset.hold := rfl
@[simp] theorem softReset_accLen (s : State) : (softReset s).accLen = Block.reset.accLen := rfl
@[simp] theorem softReset_acc (s : State) : (softReset s).acc = Block.reset.acc := rfl
@[simp] theorem softReset_out (s : State) : (softReset s).out = s.out := rfl
@[simp] theorem softReset_leaving (s : State) : (softReset s).leaving = s.leaving := rfl
@[simp] theorem softReset_sink (s : State) : (softReset s).sink = s.sink := rfl
@[simp] theorem softReset_pending (s : State) : (softReset s).pending = s.pending := rfl
@[simp] theorem softReset_reads (s : State) : (softReset s).reads = s.reads := rfl

/-! ## `hardReset` -/

@[simp] theorem hardReset_mode (s : State) : (hardReset s).mode = Block.reset.mode := rfl
@[simp] theorem hardReset_ct (s : State) : (hardReset s).ct = Block.reset.ct := rfl
@[simp] theorem hardReset_code (s : State) : (hardReset s).code = Block.reset.code := rfl
@[simp] theorem hardReset_done (s : State) : (hardReset s).done = Block.reset.done := rfl
@[simp] theorem hardReset_pad (s : State) : (hardReset s).pad = Block.reset.pad := rfl
@[simp] theorem hardReset_err (s : State) : (hardReset s).err = Block.reset.err := rfl
@[simp] theorem hardReset_errInfo (s : State) : (hardReset s).errInfo = Block.reset.errInfo := rfl
@[simp] theorem hardReset_nb (s : State) : (hardReset s).nb = Block.reset.nb := rfl
@[simp] theorem hardReset_bb (s : State) : (hardReset s).bb = Block.reset.bb := rfl
@[simp] theorem hardReset_hdr (s : State) : (hardReset s).hdr = Block.reset.hdr := rfl
@[simp] theorem hardReset_dpad (s : State) : (hardReset s).dpad = Block.reset.dpad := rfl
@[simp] theorem hardReset_holdV (s : State) : (hardReset s).holdV = Block.reset.holdV := rfl
@[simp] theorem hardReset_hold (s : State) : (hardReset s).hold = Block.reset.hold := rfl
@[simp] theorem hardReset_accLen (s : State) : (hardReset s).accLen = Block.reset.accLen := rfl
@[simp] theorem hardReset_acc (s : State) : (hardReset s).acc = Block.reset.acc := rfl
@[simp] theorem hardReset_out (s : State) : (hardReset s).out = s.out := rfl
@[simp] theorem hardReset_leaving (s : State) : (hardReset s).leaving = [] := rfl
@[simp] theorem hardReset_sink (s : State) : (hardReset s).sink = s.sink := rfl
@[simp] theorem hardReset_pending (s : State) : (hardReset s).pending = s.pending := rfl
@[simp] theorem hardReset_reads (s : State) : (hardReset s).reads = s.reads := rfl

/-! ## `ctClrEffect` -/

@[simp] theorem ctClrEffect_mode (s : State) : (ctClrEffect s).mode = s.mode := rfl
@[simp] theorem ctClrEffect_ct (s : State) : (ctClrEffect s).ct = Vector.replicate 256 Entry.empty := rfl
@[simp] theorem ctClrEffect_code (s : State) : (ctClrEffect s).code = s.code := rfl
@[simp] theorem ctClrEffect_done (s : State) : (ctClrEffect s).done = s.done := rfl
@[simp] theorem ctClrEffect_pad (s : State) : (ctClrEffect s).pad = s.pad := rfl
@[simp] theorem ctClrEffect_err (s : State) : (ctClrEffect s).err = s.err := rfl
@[simp] theorem ctClrEffect_errInfo (s : State) : (ctClrEffect s).errInfo = s.errInfo := rfl
@[simp] theorem ctClrEffect_nb (s : State) : (ctClrEffect s).nb = s.nb := rfl
@[simp] theorem ctClrEffect_bb (s : State) : (ctClrEffect s).bb = s.bb := rfl
@[simp] theorem ctClrEffect_hdr (s : State) : (ctClrEffect s).hdr = s.hdr := rfl
@[simp] theorem ctClrEffect_dpad (s : State) : (ctClrEffect s).dpad = s.dpad := rfl
@[simp] theorem ctClrEffect_holdV (s : State) : (ctClrEffect s).holdV = s.holdV := rfl
@[simp] theorem ctClrEffect_hold (s : State) : (ctClrEffect s).hold = s.hold := rfl
@[simp] theorem ctClrEffect_accLen (s : State) : (ctClrEffect s).accLen = s.accLen := rfl
@[simp] theorem ctClrEffect_acc (s : State) : (ctClrEffect s).acc = s.acc := rfl
@[simp] theorem ctClrEffect_out (s : State) : (ctClrEffect s).out = s.out := rfl
@[simp] theorem ctClrEffect_leaving (s : State) : (ctClrEffect s).leaving = s.leaving := rfl
@[simp] theorem ctClrEffect_sink (s : State) : (ctClrEffect s).sink = s.sink := rfl
@[simp] theorem ctClrEffect_pending (s : State) : (ctClrEffect s).pending = s.pending := rfl
@[simp] theorem ctClrEffect_reads (s : State) : (ctClrEffect s).reads = s.reads := rfl

/-! ## `encStartEffect` -/

@[simp] theorem encStartEffect_mode (s : State) : (encStartEffect s).mode = .enc := rfl
@[simp] theorem encStartEffect_ct (s : State) : (encStartEffect s).ct = s.ct := rfl
@[simp] theorem encStartEffect_code (s : State) : (encStartEffect s).code = s.code := rfl
@[simp] theorem encStartEffect_done (s : State) : (encStartEffect s).done = false := rfl
@[simp] theorem encStartEffect_pad (s : State) : (encStartEffect s).pad = 0#3 := rfl
@[simp] theorem encStartEffect_err (s : State) : (encStartEffect s).err = s.err := rfl
@[simp] theorem encStartEffect_errInfo (s : State) : (encStartEffect s).errInfo = s.errInfo := rfl
@[simp] theorem encStartEffect_nb (s : State) : (encStartEffect s).nb = 0#3 := rfl
@[simp] theorem encStartEffect_bb (s : State) : (encStartEffect s).bb = 0#8 := rfl
@[simp] theorem encStartEffect_hdr (s : State) : (encStartEffect s).hdr = s.hdr := rfl
@[simp] theorem encStartEffect_dpad (s : State) : (encStartEffect s).dpad = s.dpad := rfl
@[simp] theorem encStartEffect_holdV (s : State) : (encStartEffect s).holdV = s.holdV := rfl
@[simp] theorem encStartEffect_hold (s : State) : (encStartEffect s).hold = s.hold := rfl
@[simp] theorem encStartEffect_accLen (s : State) : (encStartEffect s).accLen = s.accLen := rfl
@[simp] theorem encStartEffect_acc (s : State) : (encStartEffect s).acc = s.acc := rfl
@[simp] theorem encStartEffect_out (s : State) : (encStartEffect s).out = s.out := rfl
@[simp] theorem encStartEffect_leaving (s : State) : (encStartEffect s).leaving = s.leaving := rfl
@[simp] theorem encStartEffect_sink (s : State) : (encStartEffect s).sink = s.sink := rfl
@[simp] theorem encStartEffect_pending (s : State) : (encStartEffect s).pending = s.pending := rfl
@[simp] theorem encStartEffect_reads (s : State) : (encStartEffect s).reads = s.reads := rfl

/-! ## `decStartEffect` -/

@[simp] theorem decStartEffect_mode (s : State) : (decStartEffect s).mode = .dec := rfl
@[simp] theorem decStartEffect_ct (s : State) : (decStartEffect s).ct = s.ct := rfl
@[simp] theorem decStartEffect_code (s : State) : (decStartEffect s).code = s.code := rfl
@[simp] theorem decStartEffect_done (s : State) : (decStartEffect s).done = false := rfl
@[simp] theorem decStartEffect_pad (s : State) : (decStartEffect s).pad = s.pad := rfl
@[simp] theorem decStartEffect_err (s : State) : (decStartEffect s).err = s.err := rfl
@[simp] theorem decStartEffect_errInfo (s : State) : (decStartEffect s).errInfo = s.errInfo := rfl
@[simp] theorem decStartEffect_nb (s : State) : (decStartEffect s).nb = s.nb := rfl
@[simp] theorem decStartEffect_bb (s : State) : (decStartEffect s).bb = s.bb := rfl
@[simp] theorem decStartEffect_hdr (s : State) : (decStartEffect s).hdr = false := rfl
@[simp] theorem decStartEffect_dpad (s : State) : (decStartEffect s).dpad = 0#3 := rfl
@[simp] theorem decStartEffect_holdV (s : State) : (decStartEffect s).holdV = false := rfl
@[simp] theorem decStartEffect_hold (s : State) : (decStartEffect s).hold = 0#8 := rfl
@[simp] theorem decStartEffect_accLen (s : State) : (decStartEffect s).accLen = 0#8 := rfl
@[simp] theorem decStartEffect_acc (s : State) : (decStartEffect s).acc = 0#255 := rfl
@[simp] theorem decStartEffect_out (s : State) : (decStartEffect s).out = s.out := rfl
@[simp] theorem decStartEffect_leaving (s : State) : (decStartEffect s).leaving = s.leaving := rfl
@[simp] theorem decStartEffect_sink (s : State) : (decStartEffect s).sink = s.sink := rfl
@[simp] theorem decStartEffect_pending (s : State) : (decStartEffect s).pending = s.pending := rfl
@[simp] theorem decStartEffect_reads (s : State) : (decStartEffect s).reads = s.reads := rfl

/-! ## `holdByte` -/

@[simp] theorem holdByte_mode (b : Byte) (s : State) : (holdByte b s).mode = s.mode := rfl
@[simp] theorem holdByte_ct (b : Byte) (s : State) : (holdByte b s).ct = s.ct := rfl
@[simp] theorem holdByte_code (b : Byte) (s : State) : (holdByte b s).code = s.code := rfl
@[simp] theorem holdByte_done (b : Byte) (s : State) : (holdByte b s).done = s.done := rfl
@[simp] theorem holdByte_pad (b : Byte) (s : State) : (holdByte b s).pad = s.pad := rfl
@[simp] theorem holdByte_err (b : Byte) (s : State) : (holdByte b s).err = s.err := rfl
@[simp] theorem holdByte_errInfo (b : Byte) (s : State) : (holdByte b s).errInfo = s.errInfo := rfl
@[simp] theorem holdByte_nb (b : Byte) (s : State) : (holdByte b s).nb = s.nb := rfl
@[simp] theorem holdByte_bb (b : Byte) (s : State) : (holdByte b s).bb = s.bb := rfl
@[simp] theorem holdByte_hdr (b : Byte) (s : State) : (holdByte b s).hdr = s.hdr := rfl
@[simp] theorem holdByte_dpad (b : Byte) (s : State) : (holdByte b s).dpad = s.dpad := rfl
@[simp] theorem holdByte_holdV (b : Byte) (s : State) : (holdByte b s).holdV = true := rfl
@[simp] theorem holdByte_hold (b : Byte) (s : State) : (holdByte b s).hold = b := rfl
@[simp] theorem holdByte_accLen (b : Byte) (s : State) : (holdByte b s).accLen = s.accLen := rfl
@[simp] theorem holdByte_acc (b : Byte) (s : State) : (holdByte b s).acc = s.acc := rfl
@[simp] theorem holdByte_out (b : Byte) (s : State) : (holdByte b s).out = s.out := rfl
@[simp] theorem holdByte_leaving (b : Byte) (s : State) : (holdByte b s).leaving = s.leaving := rfl
@[simp] theorem holdByte_sink (b : Byte) (s : State) : (holdByte b s).sink = s.sink := rfl
@[simp] theorem holdByte_pending (b : Byte) (s : State) : (holdByte b s).pending = s.pending := rfl
@[simp] theorem holdByte_reads (b : Byte) (s : State) : (holdByte b s).reads = s.reads := rfl

/-! ## `readReg` -/

@[simp] theorem readReg_mode (r : Reg) (s : State) : (readReg r s).mode = s.mode := rfl
@[simp] theorem readReg_ct (r : Reg) (s : State) : (readReg r s).ct = s.ct := rfl
@[simp] theorem readReg_code (r : Reg) (s : State) : (readReg r s).code = s.code := rfl
@[simp] theorem readReg_done (r : Reg) (s : State) : (readReg r s).done = s.done := rfl
@[simp] theorem readReg_pad (r : Reg) (s : State) : (readReg r s).pad = s.pad := rfl
@[simp] theorem readReg_err (r : Reg) (s : State) : (readReg r s).err = s.err := rfl
@[simp] theorem readReg_errInfo (r : Reg) (s : State) : (readReg r s).errInfo = s.errInfo := rfl
@[simp] theorem readReg_nb (r : Reg) (s : State) : (readReg r s).nb = s.nb := rfl
@[simp] theorem readReg_bb (r : Reg) (s : State) : (readReg r s).bb = s.bb := rfl
@[simp] theorem readReg_hdr (r : Reg) (s : State) : (readReg r s).hdr = s.hdr := rfl
@[simp] theorem readReg_dpad (r : Reg) (s : State) : (readReg r s).dpad = s.dpad := rfl
@[simp] theorem readReg_holdV (r : Reg) (s : State) : (readReg r s).holdV = s.holdV := rfl
@[simp] theorem readReg_hold (r : Reg) (s : State) : (readReg r s).hold = s.hold := rfl
@[simp] theorem readReg_accLen (r : Reg) (s : State) : (readReg r s).accLen = s.accLen := rfl
@[simp] theorem readReg_acc (r : Reg) (s : State) : (readReg r s).acc = s.acc := rfl
@[simp] theorem readReg_out (r : Reg) (s : State) : (readReg r s).out = s.out := rfl
@[simp] theorem readReg_leaving (r : Reg) (s : State) : (readReg r s).leaving = s.leaving := rfl
@[simp] theorem readReg_sink (r : Reg) (s : State) : (readReg r s).sink = s.sink := rfl
@[simp] theorem readReg_pending (r : Reg) (s : State) : (readReg r s).pending = s.pending := rfl
@[simp] theorem readReg_reads (r : Reg) (s : State) : (readReg r s).reads = s.reads ++ [regView Config.LMAX r s.toBlock] := rfl

/-! ## `offer` -/

@[simp] theorem offer_mode (s : State) : (offer s).mode = s.mode := rfl
@[simp] theorem offer_ct (s : State) : (offer s).ct = s.ct := rfl
@[simp] theorem offer_code (s : State) : (offer s).code = s.code := rfl
@[simp] theorem offer_done (s : State) : (offer s).done = s.done := rfl
@[simp] theorem offer_pad (s : State) : (offer s).pad = s.pad := rfl
@[simp] theorem offer_err (s : State) : (offer s).err = s.err := rfl
@[simp] theorem offer_errInfo (s : State) : (offer s).errInfo = s.errInfo := rfl
@[simp] theorem offer_nb (s : State) : (offer s).nb = s.nb := rfl
@[simp] theorem offer_bb (s : State) : (offer s).bb = s.bb := rfl
@[simp] theorem offer_hdr (s : State) : (offer s).hdr = s.hdr := rfl
@[simp] theorem offer_dpad (s : State) : (offer s).dpad = s.dpad := rfl
@[simp] theorem offer_holdV (s : State) : (offer s).holdV = s.holdV := rfl
@[simp] theorem offer_hold (s : State) : (offer s).hold = s.hold := rfl
@[simp] theorem offer_accLen (s : State) : (offer s).accLen = s.accLen := rfl
@[simp] theorem offer_acc (s : State) : (offer s).acc = s.acc := rfl
@[simp] theorem offer_out (s : State) :
    (offer s).out = s.out ++ s.leaving.take (sinkAccepts s.sink s.leaving.length).1 := rfl
@[simp] theorem offer_leaving (s : State) :
    (offer s).leaving = s.leaving.drop (sinkAccepts s.sink s.leaving.length).1 := rfl
@[simp] theorem offer_sink (s : State) : (offer s).sink = (sinkAccepts s.sink s.leaving.length).2 := rfl
@[simp] theorem offer_pending (s : State) : (offer s).pending = s.pending := rfl
@[simp] theorem offer_reads (s : State) : (offer s).reads = s.reads := rfl

@[simp] theorem emit_toBlock (bs : List Byte) (s : State) : (emit bs s).toBlock = s.toBlock := rfl

@[simp] theorem readReg_toBlock (r : Reg) (s : State) : (readReg r s).toBlock = s.toBlock := rfl

@[simp] theorem offer_toBlock (s : State) : (offer s).toBlock = s.toBlock := rfl

@[simp] theorem hardReset_toBlock (s : State) : (hardReset s).toBlock = Block.reset := rfl

@[simp] theorem emit_nil (s : State) : emit [] s = s := by simp [emit]

theorem emit_emit (bs cs : List Byte) (s : State) : emit cs (emit bs s) = emit (bs ++ cs) s := by simp [emit]

@[simp] theorem entryAt_replicate (e : Entry) (sym : Byte) : entryAt (Vector.replicate 256 e) sym = e := by
  simp [entryAt]

@[simp] theorem entryAt_setEntry_self (ct : Vector Entry 256) (sym : Byte) (e : Entry) :
    entryAt (setEntry ct sym e) sym = e := by
  simp [entryAt, setEntry]

theorem entryAt_setEntry_ne (ct : Vector Entry 256) {sym other : Byte} (e : Entry) (h : other ≠ sym) :
    entryAt (setEntry ct sym e) other = entryAt ct other := by
  have : sym.toNat ≠ other.toNat := fun hn => h (BitVec.eq_of_toNat_eq hn.symm)
  simp [entryAt, setEntry, this]

end Sys2Proof.Machine
end

