-- ==== Sys2Proof/Laws/Ops.lean ====
section
/-! SUPPORT. One law per shared operation, saying all that it can do: the checks every command begins with, the table
search, the barrel shifter, the decoder's bit step, and the sink. -/

namespace Sys2Proof.Machine

/-! ## The order of checks -/

/-- The three ways a checked command ends (rules R96, R206): ignored, `SEQ`, or its own effect. -/
theorem issue_cases {i : Instr} {e : State → State} {s : State} {o : Host.Outcome State Fault Refusal}
    (h : issue i e s = o) :
    (s.mode = .fault ∧ o = .next s) ∨
    (s.mode ≠ .fault ∧ permittedIn i s.mode = false ∧ o = .next (raiseFault .seq (encode i) s)) ∨
    (s.mode ≠ .fault ∧ permittedIn i s.mode = true ∧ o = .next (e s)) := by
  subst h
  by_cases hf : s.mode = .fault
  · simp [issue, hf]
  · cases hp : permittedIn i s.mode <;> simp [issue, hf, hp]

theorem issue_ignored {i : Instr} {e : State → State} {s : State} (h : s.mode = .fault) : issue i e s = .next s := by
  simp [issue, h]

theorem issue_refused {i : Instr} {e : State → State} {s : State} (h : s.mode ≠ .fault)
    (hp : permittedIn i s.mode = false) : issue i e s = .next (raiseFault .seq (encode i) s) := by
  simp [issue, h, hp]

theorem issue_permitted {i : Instr} {e : State → State} {s : State} (h : s.mode ≠ .fault)
    (hp : permittedIn i s.mode = true) : issue i e s = .next (e s) := by
  simp [issue, h, hp]

/-- What a command does by its own rule where it is permitted. -/
def effectOf (i : Instr) : State → State :=
  match i with
  | .nop => id
  | .rst => softReset
  | .ctClr => ctClrEffect
  | .ctSet sym len => ctSetEffect Config.LMAX sym len
  | .encStart => encStartEffect
  | .encSym sym => encSymEffect sym
  | .encFin => encFinEffect
  | .decStart => decStartEffect
  | .decByte byte => decByteEffect Config.LMAX byte
  | .decFin => decFinEffect Config.LMAX

theorem exec_rst (s : State) : exec .rst s = .next (softReset s) := rfl

/-- Every command but `RST` is the order of checks around its effect. -/
theorem exec_eq_issue {i : Instr} (h : i ≠ .rst) (s : State) : exec i s = issue i (effectOf i) s := by
  cases i with
  | rst => exact absurd rfl h
  | nop => simp [exec, execNop, issue, permittedIn, effectOf]
  | _ => rfl

/-- A permitted command runs its effect (rule R158). -/
theorem exec_permitted {i : Instr} {s : State} (h : s.mode ≠ .fault) (hp : permittedIn i s.mode = true) :
    exec i s = .next (effectOf i s) := by
  by_cases hi : i = .rst
  · subst hi; rfl
  · rw [exec_eq_issue hi, issue_permitted h hp]

/-! ## The table search -/

theorem ofNat_toNat_of_lt {n : Nat} (h : n < 256) : (BitVec.ofNat 8 n).toNat = n := by
  simp [Nat.mod_eq_of_lt h]

theorem getElem_toList_ct (ct : Vector Entry 256) (j : Nat) (h : j < ct.toList.length) :
    ct.toList[j] = entryAt ct (BitVec.ofNat 8 j) := by
  have hj : j < 256 := by simpa using h
  simp [entryAt, Nat.mod_eq_of_lt hj]

/-- An entry matches the accumulated bits when its length and its bits are theirs (rule R67). -/
abbrev Entry.holds (e : Entry) (acc : CodeBits) (n : BitVec 8) : Prop := e.len = n ∧ e.code = acc

theorem lookup_eq_some {ct : Vector Entry 256} {acc : CodeBits} {n : BitVec 8} {sym : Byte} :
    lookup ct acc n = some sym ↔
      (entryAt ct sym).holds acc n ∧ ∀ other : Byte, other.toNat < sym.toNat → ¬ (entryAt ct other).holds acc n := by
  have hs := sym.isLt
  rw [lookup, Option.map_eq_some_iff]
  constructor
  · rintro ⟨j, hj, rfl⟩
    rw [List.findIdx?_eq_some_iff_getElem] at hj
    obtain ⟨hl, hm, hlow⟩ := hj
    have hj' : j < 256 := by simpa using hl
    rw [getElem_toList_ct] at hm
    refine ⟨by simpa using hm, fun o ho => ?_⟩
    rw [ofNat_toNat_of_lt hj'] at ho
    have := hlow o.toNat ho
    rw [getElem_toList_ct] at this
    simpa using this
  · rintro ⟨hm, hlow⟩
    refine ⟨sym.toNat, ?_, by simp⟩
    rw [List.findIdx?_eq_some_iff_getElem]
    refine ⟨by simp; omega, by rw [getElem_toList_ct]; simpa using hm, fun j hj => ?_⟩
    have := hlow (BitVec.ofNat 8 j) (by rw [ofNat_toNat_of_lt (by omega)]; exact hj)
    rw [getElem_toList_ct]
    simpa using this

theorem lookup_eq_none {ct : Vector Entry 256} {acc : CodeBits} {n : BitVec 8} :
    lookup ct acc n = none ↔ ∀ sym : Byte, ¬ (entryAt ct sym).holds acc n := by
  rw [lookup, Option.map_eq_none_iff, List.findIdx?_eq_none_iff]
  constructor
  · intro h sym hm
    have := h (entryAt ct sym) (by simp [entryAt])
    simp_all
  · intro h e he
    obtain ⟨j, hj, rfl⟩ := List.getElem_of_mem he
    rw [getElem_toList_ct]
    simpa using h (BitVec.ofNat 8 j)

/-! ## The decoder's bit step -/

/-- The three outcomes of `ShiftBit` (rule R136). -/
theorem shiftBit_cases (lmax : Nat) (x : Bool) (s : State) :
    (s.accLen.toNat = lmax ∧ shiftBit lmax x s = none) ∨
    (∃ sym, s.accLen.toNat ≠ lmax ∧ lookup s.ct (accPush s.acc x) (s.accLen + 1#8) = some sym ∧
      shiftBit lmax x s = some { emit [sym] s with acc := 0#255, accLen := 0#8 }) ∨
    (s.accLen.toNat ≠ lmax ∧ lookup s.ct (accPush s.acc x) (s.accLen + 1#8) = none ∧
      shiftBit lmax x s = some { s with acc := accPush s.acc x, accLen := s.accLen + 1#8 }) := by
  unfold shiftBit
  by_cases h : s.accLen.toNat = lmax
  · simp [h]
  · cases hl : lookup s.ct (accPush s.acc x) (s.accLen + 1#8) <;> simp [h]

/-- Everything but the accumulator and the output is as before. -/
def sameButAcc (s t : State) : Prop :=
  ∃ bs : List Byte, t = { emit bs s with acc := t.acc, accLen := t.accLen }

theorem sameButAcc_refl (s : State) : sameButAcc s s := ⟨[], by simp⟩

theorem sameButAcc_trans {s t u : State} (h : sameButAcc s t) (k : sameButAcc t u) : sameButAcc s u := by
  obtain ⟨bs, h⟩ := h
  obtain ⟨cs, k⟩ := k
  refine ⟨bs ++ cs, ?_⟩
  rw [k, h]; simp [emit]

theorem shiftBit_sameButAcc {lmax : Nat} {x : Bool} {s t : State} (h : shiftBit lmax x s = some t) :
    sameButAcc s t := by
  obtain ⟨_, h'⟩ | ⟨sym, _, _, h'⟩ | ⟨_, _, h'⟩ := shiftBit_cases lmax x s
  · simp [h'] at h
  · rw [h'] at h; cases h; exact ⟨[sym], rfl⟩
  · rw [h'] at h; cases h; exact ⟨[], by simp⟩

@[simp] theorem shiftBits_nil (lmax : Nat) (s : State) : shiftBits lmax [] s = (s, true) := rfl

theorem shiftBits_cons_some {lmax : Nat} {x : Bool} {s t : State} (h : shiftBit lmax x s = some t) (xs : List Bool) :
    shiftBits lmax (x :: xs) s = shiftBits lmax xs t := by simp [shiftBits, h]

theorem shiftBits_cons_none {lmax : Nat} {x : Bool} {s : State} (h : shiftBit lmax x s = none) (xs : List Bool) :
    shiftBits lmax (x :: xs) s = (s, false) := by simp [shiftBits, h]

/-- The frame of shifting (rule R135): the table, the staging register, the encoder's registers and the held byte stay. -/
theorem shiftBits_sameButAcc (lmax : Nat) (bits : List Bool) (s : State) :
    sameButAcc s (shiftBits lmax bits s).1 := by
  induction bits generalizing s with
  | nil => exact sameButAcc_refl s
  | cons x xs ih =>
    cases h : shiftBit lmax x s with
    | none => rw [shiftBits_cons_none h]; exact sameButAcc_refl s
    | some t => rw [shiftBits_cons_some h]; exact sameButAcc_trans (shiftBit_sameButAcc h) (ih t)

theorem shiftBits_append (lmax : Nat) (xs ys : List Bool) (s : State) :
    shiftBits lmax (xs ++ ys) s =
      if (shiftBits lmax xs s).2 then shiftBits lmax ys (shiftBits lmax xs s).1 else shiftBits lmax xs s := by
  induction xs generalizing s with
  | nil => simp
  | cons x xs ih =>
    cases h : shiftBit lmax x s with
    | none => rw [List.cons_append, shiftBits_cons_none h, shiftBits_cons_none h]; simp
    | some t => rw [List.cons_append, shiftBits_cons_some h, shiftBits_cons_some h, ih]

theorem sameButAcc_fields {s t : State} (h : sameButAcc s t) :
    t.mode = s.mode ∧ t.ct = s.ct ∧ t.code = s.code ∧ t.done = s.done ∧ t.pad = s.pad ∧ t.err = s.err ∧
    t.errInfo = s.errInfo ∧ t.nb = s.nb ∧ t.bb = s.bb ∧ t.hdr = s.hdr ∧ t.dpad = s.dpad ∧ t.holdV = s.holdV ∧
    t.hold = s.hold ∧ s.out <+: t.out ∧ t.leaving = s.leaving ∧ t.sink = s.sink ∧ t.pending = s.pending ∧
    t.reads = s.reads := by
  obtain ⟨bs, h⟩ := h
  rw [h]; simp

/-- What shifting bits gives: the symbols matched, the accumulator and its length at the end, and whether every bit was
shifted. -/
structure Scan where
  matched : List Byte
  acc     : CodeBits
  accLen  : BitVec 8
  allDone : Bool

/-- Shifting bits, told by the table and the accumulator alone (rule R136). -/
def scan (lmax : Nat) (ct : Vector Entry 256) : List Bool → CodeBits → BitVec 8 → Scan
  | [], acc, n => ⟨[], acc, n, true⟩
  | x :: xs, acc, n =>
    if n.toNat = lmax then ⟨[], acc, n, false⟩
    else
      match lookup ct (accPush acc x) (n + 1#8) with
      | some sym => { scan lmax ct xs 0#255 0#8 with matched := sym :: (scan lmax ct xs 0#255 0#8).matched }
      | none => scan lmax ct xs (accPush acc x) (n + 1#8)

/-- Shifting reads the table and the accumulator alone, and writes the accumulator and the output alone. -/
theorem shiftBits_eq_scan (lmax : Nat) (bits : List Bool) (s : State) :
    shiftBits lmax bits s =
      ({ emit (scan lmax s.ct bits s.acc s.accLen).matched s with
          acc := (scan lmax s.ct bits s.acc s.accLen).acc, accLen := (scan lmax s.ct bits s.acc s.accLen).accLen },
        (scan lmax s.ct bits s.acc s.accLen).allDone) := by
  induction bits generalizing s with
  | nil => simp [scan]
  | cons x xs ih =>
    obtain ⟨h, h'⟩ | ⟨sym, h, hl, h'⟩ | ⟨h, hl, h'⟩ := shiftBit_cases lmax x s
    · rw [shiftBits_cons_none h']; simp [scan, h]
    · rw [shiftBits_cons_some h', ih]; simp [scan, h, hl, emit]
    · rw [shiftBits_cons_some h', ih]; simp [scan, h, hl, emit]

theorem scan_full {lmax : Nat} {n : BitVec 8} (h : n.toNat = lmax) (ct : Vector Entry 256) (x : Bool) (xs : List Bool)
    (acc : CodeBits) : scan lmax ct (x :: xs) acc n = ⟨[], acc, n, false⟩ := by simp [scan, h]

theorem scan_match {lmax : Nat} {n : BitVec 8} {ct : Vector Entry 256} {x : Bool} {acc : CodeBits} {sym : Byte}
    (h : n.toNat ≠ lmax) (hl : lookup ct (accPush acc x) (n + 1#8) = some sym) (xs : List Bool) :
    scan lmax ct (x :: xs) acc n =
      { scan lmax ct xs 0#255 0#8 with matched := sym :: (scan lmax ct xs 0#255 0#8).matched } := by
  simp [scan, h, hl]

theorem scan_push {lmax : Nat} {n : BitVec 8} {ct : Vector Entry 256} {x : Bool} {acc : CodeBits}
    (h : n.toNat ≠ lmax) (hl : lookup ct (accPush acc x) (n + 1#8) = none) (xs : List Bool) :
    scan lmax ct (x :: xs) acc n = scan lmax ct xs (accPush acc x) (n + 1#8) := by
  simp [scan, h, hl]

/-- Shifting two bit strings one after the other. -/
theorem scan_append (lmax : Nat) (ct : Vector Entry 256) (xs ys : List Bool) (acc : CodeBits) (n : BitVec 8)
    (h : (scan lmax ct xs acc n).allDone = true) :
    scan lmax ct (xs ++ ys) acc n =
      { scan lmax ct ys (scan lmax ct xs acc n).acc (scan lmax ct xs acc n).accLen with
        matched := (scan lmax ct xs acc n).matched ++
          (scan lmax ct ys (scan lmax ct xs acc n).acc (scan lmax ct xs acc n).accLen).matched } := by
  induction xs generalizing acc n with
  | nil => simp [scan]
  | cons x xs ih =>
    rw [List.cons_append]
    by_cases hn : n.toNat = lmax
    · simp [scan_full hn] at h
    · cases hl : lookup ct (accPush acc x) (n + 1#8) with
      | none => rw [scan_push hn hl] at h ⊢; rw [ih _ _ h, scan_push hn hl]
      | some sym =>
        rw [scan_match hn hl] at h ⊢
        rw [ih _ _ h, scan_match hn hl]; rfl

/-- Once a bit is refused, the bits after it play no part. -/
theorem scan_append_of_refused (lmax : Nat) (ct : Vector Entry 256) (xs ys : List Bool) (acc : CodeBits) (n : BitVec 8)
    (h : (scan lmax ct xs acc n).allDone = false) : scan lmax ct (xs ++ ys) acc n = scan lmax ct xs acc n := by
  induction xs generalizing acc n with
  | nil => simp [scan] at h
  | cons x xs ih =>
    rw [List.cons_append]
    by_cases hn : n.toNat = lmax
    · rw [scan_full hn, scan_full hn]
    · cases hl : lookup ct (accPush acc x) (n + 1#8) with
      | none => rw [scan_push hn hl] at h ⊢; rw [ih _ _ h, scan_push hn hl]
      | some sym => rw [scan_match hn hl] at h ⊢; rw [ih _ _ h, scan_match hn hl]

theorem shiftThen_eq (lmax : Nat) (w : Word) (bits : List Bool) (k : State → State) (s : State) :
    shiftThen lmax w bits k s =
      if (shiftBits lmax bits s).2 then k (shiftBits lmax bits s).1
      else raiseFault .accOvf w (shiftBits lmax bits s).1 := by
  unfold shiftThen
  rcases shiftBits lmax bits s with ⟨t, _ | _⟩ <;> rfl

/-! ## The sink -/

@[simp] theorem sinkAccepts_zero (sink : List Bool) : sinkAccepts sink 0 = (0, sink) := by
  cases sink with
  | nil => rfl
  | cons b bs => cases b <;> rfl

/-- The sink accepts at most the bytes offered. -/
theorem sinkAccepts_le (sink : List Bool) (n : Nat) : (sinkAccepts sink n).1 ≤ n := by
  induction sink generalizing n with
  | nil => cases n <;> simp [sinkAccepts]
  | cons b bs ih =>
    cases n with
    | zero => simp
    | succ n =>
      cases b
      · simp [sinkAccepts]
      · simpa [sinkAccepts] using ih n

/-- It accepts all of them, or it answers no and has fewer answers left (rule R82). -/
theorem sinkAccepts_all_or_shorter (sink : List Bool) (n : Nat) :
    (sinkAccepts sink n).1 = n ∨ (sinkAccepts sink n).2.length < sink.length := by
  induction sink generalizing n with
  | nil => cases n <;> simp [sinkAccepts]
  | cons b bs ih =>
    cases n with
    | zero => simp
    | succ n =>
      cases b
      · simp [sinkAccepts]
      · rcases ih n with h | h
        · simp [sinkAccepts, h]
        · right; simp [sinkAccepts]; omega

theorem sinkAccepts_shorter (sink : List Bool) (n : Nat) : (sinkAccepts sink n).2.length ≤ sink.length := by
  induction sink generalizing n with
  | nil => cases n <;> simp [sinkAccepts]
  | cons b bs ih =>
    cases n with
    | zero => simp
    | succ n =>
      cases b
      · simp [sinkAccepts]
      · have := ih n; simp [sinkAccepts]; omega

/-- A block that is not held offers nothing. -/
theorem offer_of_leaving_nil {s : State} (h : s.leaving = []) : offer s = s := by
  cases s; simp_all [offer]

/-- Offering moves bytes to `OUT` in their order and loses none (rule R68). -/
theorem offer_out_append_leaving (s : State) : (offer s).out ++ (offer s).leaving = s.out ++ s.leaving := by simp

/-- Offering only appends to `OUT` (rule R37). -/
theorem offer_out_prefix (s : State) : s.out <+: (offer s).out := by simp

/-- All bytes are handed over, or the sink has fewer answers left (rule R82). -/
theorem offer_all_or_shorter (s : State) : (offer s).leaving = [] ∨ (offer s).sink.length < s.sink.length := by
  rcases sinkAccepts_all_or_shorter s.sink s.leaving.length with h | h
  · exact .inl (by simp [h])
  · exact .inr (by simpa using h)

theorem emittedSince_of_append {s t : State} {bs : List Byte} (h : t.out = s.out ++ bs) : emittedSince s t = bs := by
  simp [emittedSince, h]

end Sys2Proof.Machine
end

