-- ==== Sys2Proof/Laws/Registers.lean ====
section
/-! SUPPORT. The register views bit by bit: the staging register under a write of one of its words (rules R27, R63), the
fields of `STATUS` (rule R29), and which offsets the map holds (rules R61, R64). -/

namespace Sys2Proof.Machine

theorem getLsbD_codeMask (i : Nat) : ((BitVec.allOnes 32).setWidth 256).getLsbD i = decide (i < 32) := by
  rw [BitVec.getLsbD_setWidth, BitVec.getLsbD_allOnes]
  by_cases h : i < 32
  · simp [h]; omega
  · simp [h]

/-- A write to `CODEk` replaces bits `32k+31 : 32k` and no others (rule R63). -/
theorem getLsbD_setCodeWord (code : Staging) (k : Fin 8) (v : Word) (i : Nat) (hi : i < 256) :
    (setCodeWord code k v).getLsbD i =
      if 32 * k.val ≤ i ∧ i < 32 * k.val + 32 then v.getLsbD (i - 32 * k.val) else code.getLsbD i := by
  rw [setCodeWord, BitVec.getLsbD_or, BitVec.getLsbD_and, BitVec.getLsbD_not, BitVec.getLsbD_shiftLeft,
    BitVec.getLsbD_shiftLeft, getLsbD_codeMask, BitVec.getLsbD_setWidth]
  by_cases h1 : i < 32 * k.val
  · simp [h1, hi]
  · by_cases h2 : i < 32 * k.val + 32
    · simp [h1, hi, show i - 32 * k.val < 32 by omega, show i - 32 * k.val < 256 by omega,
        show 32 * k.val ≤ i by omega, h2]
    · have hv : v.getLsbD (i - 32 * k.val) = false := BitVec.getLsbD_of_ge _ _ (by omega)
      simp [hi, show ¬ (i - 32 * k.val < 32) by omega, h2, hv]

/-- The bits of `STATUS` (rule R29). -/
theorem getLsbD_statusView (b : Block) (i : Nat) : (statusView b).getLsbD i =
    if i < 2 then b.mode.bits.getLsbD i else if i = 2 then b.done else if i = 3 then b.hdr else if i = 4 then b.holdV
    else if i < 8 then b.nb.getLsbD (i - 5) else if i < 16 then b.accLen.getLsbD (i - 8)
    else if i < 19 then b.dpad.getLsbD (i - 16) else if i < 24 then false else b.hold.getLsbD (i - 24) := by
  by_cases h : i < 32
  · simp only [statusView, BitVec.getLsbD_append, BitVec.getLsbD_ofBool]
    interval_cases i <;> simp
  · rw [BitVec.getLsbD_of_ge _ _ (by omega)]
    simp [show ¬ i < 2 by omega, show ¬ i < 8 by omega, show ¬ i < 16 by omega, show ¬ i < 19 by omega,
      show ¬ i < 24 by omega, show i ≠ 2 by omega, show i ≠ 3 by omega, show i ≠ 4 by omega,
      BitVec.getLsbD_of_ge b.hold (i - 24) (by omega)]

/-- The offsets of the map (rules R61, R64). -/
theorem regAt_isSome (off : Nat) :
    (regAt off).isSome = true ↔ off % 4 = 0 ∧ off < 0x40 ∧ off ≠ 0x18 ∧ off ≠ 0x1C := by
  by_cases h : off < 64
  · interval_cases off <;> simp [regAt]
  · have : regAt off = none := by
      unfold regAt; split <;> simp_all
    simp [this]; omega

end Sys2Proof.Machine
end

