-- ==== Sys2Proof/Laws/Commands.lean ====
section
/-! SUPPORT. All that a command, a command word and a host operation can do, each taken apart once. -/

namespace Sys2Proof.Machine

/-- Every command answers a next state: the block's faults are next states (rule R204). -/
theorem exec_next (i : Instr) (s : State) : ∃ t, exec i s = .next t := by
  by_cases h : i = .rst
  · subst h; exact ⟨_, rfl⟩
  · rw [exec_eq_issue h]
    obtain ⟨_, h⟩ | ⟨_, _, h⟩ | ⟨_, _, h⟩ := issue_cases (rfl : issue i (effectOf i) s = _) <;> exact ⟨_, h⟩

/-- The ways a command ends: ignored, `SEQ`, or its own effect (rules R158, R206). -/
theorem exec_cases {i : Instr} {s t : State} (h : exec i s = .next t) :
    (s.mode = .fault ∧ i ≠ .rst ∧ t = s) ∨
    (s.mode ≠ .fault ∧ permittedIn i s.mode = false ∧ t = raiseFault .seq (encode i) s) ∨
    (s.mode ≠ .fault ∧ permittedIn i s.mode = true ∧ t = effectOf i s) ∨
    (s.mode = .fault ∧ i = .rst ∧ t = softReset s) := by
  by_cases hi : i = .rst
  · subst hi; cases h
    by_cases hf : s.mode = .fault
    · simp [hf]
    · right; right; left; exact ⟨hf, rfl, rfl⟩
  · rw [exec_eq_issue hi] at h
    obtain ⟨h1, h⟩ | ⟨h1, h2, h⟩ | ⟨h1, h2, h⟩ := issue_cases h <;> cases h
    · simp [h1, hi]
    · simp [h1, h2]
    · simp [h1, h2]

/-- The ways a command word ends (rule R96). -/
theorem execWord_cases {w : Word} {s t : State} (h : execWord w s = .next t) :
    (s.mode = .fault ∧ w ≠ encode .rst ∧ t = s) ∨
    (s.mode ≠ .fault ∧ decodeWord w = none ∧ t = raiseFault .illCmd w s) ∨
    (∃ i, (decodeWord w = some i ∨ (s.mode = .fault ∧ w = encode i)) ∧ exec i s = .next t ∧
      (s.mode = .fault → i = .rst)) := by
  unfold execWord at h
  by_cases hf : s.mode = .fault
  · rw [if_pos hf] at h
    by_cases hw : w = encode .rst
    · rw [if_pos hw] at h
      exact .inr (.inr ⟨.rst, .inr ⟨hf, hw⟩, h, fun _ => rfl⟩)
    · rw [if_neg hw] at h; cases h
      exact .inl ⟨hf, hw, rfl⟩
  · rw [if_neg hf] at h
    cases hd : decodeWord w with
    | none => simp only [hd] at h; cases h; exact .inr (.inl ⟨hf, rfl, rfl⟩)
    | some i => simp only [hd] at h; exact .inr (.inr ⟨i, .inl rfl, h, fun hm => absurd hm hf⟩)

theorem execWord_next (w : Word) (s : State) : ∃ t, execWord w s = .next t := by
  unfold execWord
  split
  · split
    · exact exec_next _ _
    · exact ⟨_, rfl⟩
  · split
    · exact exec_next _ _
    · exact ⟨_, rfl⟩

theorem accessReg_ok {bytes off : Nat} {r : Reg} :
    accessReg bytes off = .ok r ↔ bytes = 4 ∧ off % 4 = 0 ∧ regAt off = some r := by
  unfold accessReg widthOk alignedOk
  by_cases hb : bytes = 4
  · by_cases ha : off % 4 = 0
    · cases hr : regAt off <;> simp [hb, ha]
    · simp [hb, ha]
  · simp [hb]

theorem regAt_cmd {off : Nat} (h : regAt off = some .cmd) : off = 0 := by
  have := (regAt_isSome off).1 (by simp [h])
  obtain ⟨_, _, _, _⟩ := this
  interval_cases off <;> simp_all [regAt]

theorem regAt_codeWord {off : Nat} {k : Fin 8} (h : regAt off = some (.codeWord k)) : off = 0x20 + 4 * k.val := by
  have := (regAt_isSome off).1 (by simp [h])
  obtain ⟨_, _, _, _⟩ := this
  interval_cases off <;> simp_all [regAt] <;> subst h <;> rfl

/-- All that a host operation can do (rules R62, R63, R231). -/
theorem hostOp_cases {op : HostOp} {s t : State} (h : hostOp op s = .next t) :
    (op = .reset ∧ t = hardReset s) ∨
    (∃ off r, op = .read 4 off ∧ regAt off = some r ∧ t = readReg r s) ∨
    (∃ w, op = .write 4 0 w ∧ execWord w s = .next t) ∨
    (∃ (k : Fin 8) (v : Word), op = .write 4 (0x20 + 4 * k.val) v ∧ t = { s with code := setCodeWord s.code k v }) ∨
    (∃ off v, op = .write 4 off v ∧ off ≠ 0 ∧ t = s) := by
  cases op with
  | reset => cases h; simp
  | read bytes off =>
    cases ha : accessReg bytes off with
    | error e => simp [hostOp, ha] at h
    | ok r =>
      obtain ⟨rfl, _, hr⟩ := accessReg_ok.1 ha
      simp only [hostOp, ha] at h; cases h
      exact .inr (.inl ⟨off, r, rfl, hr, rfl⟩)
  | write bytes off v =>
    cases ha : accessReg bytes off with
    | error e => simp [hostOp, ha] at h
    | ok r =>
      obtain ⟨rfl, _, hr⟩ := accessReg_ok.1 ha
      simp only [hostOp, ha] at h
      cases r with
      | cmd => obtain rfl := regAt_cmd hr; exact .inr (.inr (.inl ⟨v, rfl, h⟩))
      | codeWord k => obtain rfl := regAt_codeWord hr; cases h; exact .inr (.inr (.inr (.inl ⟨k, v, rfl, rfl⟩)))
      | _ => cases h; exact .inr (.inr (.inr (.inr ⟨off, v, rfl, by rintro rfl; simp [regAt] at hr, rfl⟩)))

/-- A host operation that is not refused answers a next state. -/
theorem hostOp_next_of_wellFormed {op : HostOp} (h : op.wellFormed = true) (s : State) : ∃ t, hostOp op s = .next t := by
  have ok : ∀ {bytes off : Nat}, (widthOk bytes && alignedOk off && mappedOk off) = true →
      ∃ r, accessReg bytes off = .ok r := by
    intro bytes off hw
    simp only [Bool.and_eq_true, widthOk, alignedOk, mappedOk, beq_iff_eq] at hw
    obtain ⟨r, hr⟩ := Option.isSome_iff_exists.1 hw.2
    exact ⟨r, accessReg_ok.2 ⟨hw.1.1, hw.1.2, hr⟩⟩
  cases op with
  | reset => exact ⟨_, rfl⟩
  | read bytes off => obtain ⟨r, hr⟩ := ok h; exact ⟨_, by simp [hostOp, hr]; rfl⟩
  | write bytes off v =>
    obtain ⟨r, hr⟩ := ok h
    simp only [hostOp, hr]
    cases r with
    | cmd => exact execWord_next v s
    | _ => exact ⟨_, rfl⟩

end Sys2Proof.Machine
end

