-- ==== Sys2Proof/Laws/Decode.lean ====
section
/-! SUPPORT. The fields of a command word (rule R90): what the masks of rule R95 test, and that the four fields determine
the word. -/

namespace Sys2Proof

/-- The operation code `OPC`: bits 7 to 0 (rule R90). -/
abbrev fieldOpc (w : Word) : BitVec 8 := w.extractLsb' 0 8

/-- The reserved field `Z`: bits 31 to 24 (rule R90). -/
abbrev fieldZ (w : Word) : BitVec 8 := w.extractLsb' 24 8

theorem getLsbD_field (w : Word) (k i : Nat) (h : i < 8) : (w.extractLsb' k 8).getLsbD i = w.getLsbD (k + i) := by
  rw [BitVec.getLsbD_extractLsb', decide_eq_true h, Bool.true_and]

/-- Two words with the same four fields are equal. -/
theorem word_eq_of_fields {v w : Word} (ho : fieldOpc v = fieldOpc w) (ha : fieldA v = fieldA w)
    (hb : fieldB v = fieldB w) (hz : fieldZ v = fieldZ w) : v = w := by
  refine BitVec.eq_of_getLsbD_eq fun i hi => ?_
  have key : ∀ k, v.extractLsb' k 8 = w.extractLsb' k 8 → k ≤ i → i < k + 8 → v.getLsbD i = w.getLsbD i := by
    intro k hk h1 h2
    have := congrArg (fun x : BitVec 8 => x.getLsbD (i - k)) hk
    simp only [getLsbD_field _ _ _ (show i - k < 8 by omega)] at this
    rwa [show k + (i - k) = i by omega] at this
  by_cases h8 : i < 8
  · exact key 0 ho (by omega) (by omega)
  by_cases h16 : i < 16
  · exact key 8 ha (by omega) (by omega)
  by_cases h24 : i < 24
  · exact key 16 hb (by omega) (by omega)
  · exact key 24 hz (by omega) (by omega)

theorem word_eq_iff_fields {v w : Word} :
    v = w ↔ fieldOpc v = fieldOpc w ∧ fieldA v = fieldA w ∧ fieldB v = fieldB w ∧ fieldZ v = fieldZ w :=
  ⟨fun h => by subst h; simp, fun ⟨ho, ha, hb, hz⟩ => word_eq_of_fields ho ha hb hz⟩

theorem field_and (w m : Word) (k : Nat) : (w &&& m).extractLsb' k 8 = w.extractLsb' k 8 &&& m.extractLsb' k 8 := by
  refine BitVec.eq_of_getLsbD_eq fun i hi => ?_
  simp only [getLsbD_field _ _ _ hi, BitVec.getLsbD_and]

theorem field_or (v w : Word) (k : Nat) : (v ||| w).extractLsb' k 8 = v.extractLsb' k 8 ||| w.extractLsb' k 8 := by
  refine BitVec.eq_of_getLsbD_eq fun i hi => ?_
  simp only [getLsbD_field _ _ _ hi, BitVec.getLsbD_or]

/-- What the mask of `CT.SET` tests (rule R92): `OPC` and `Z`. -/
theorem maskOpcZ_iff (w c : Word) : w &&& 0xFF0000FF#32 = c ↔
    fieldOpc w = fieldOpc c ∧ 0#8 = fieldA c ∧ 0#8 = fieldB c ∧ fieldZ w = fieldZ c := by
  have h1 : (0xFF0000FF#32).extractLsb' 0 8 = BitVec.allOnes 8 := by decide
  have h2 : (0xFF0000FF#32).extractLsb' 8 8 = 0#8 := by decide
  have h3 : (0xFF0000FF#32).extractLsb' 16 8 = 0#8 := by decide
  have h4 : (0xFF0000FF#32).extractLsb' 24 8 = BitVec.allOnes 8 := by decide
  rw [word_eq_iff_fields]
  simp only [fieldOpc, fieldA, fieldB, fieldZ, field_and, h1, h2, h3, h4, BitVec.and_allOnes, BitVec.and_zero]

/-- What the mask of `ENC.SYM` and `DEC.BYTE` tests (rule R92): `OPC`, `B` and `Z`. -/
theorem maskOpcBZ_iff (w c : Word) : w &&& 0xFFFF00FF#32 = c ↔
    fieldOpc w = fieldOpc c ∧ 0#8 = fieldA c ∧ fieldB w = fieldB c ∧ fieldZ w = fieldZ c := by
  have h1 : (0xFFFF00FF#32).extractLsb' 0 8 = BitVec.allOnes 8 := by decide
  have h2 : (0xFFFF00FF#32).extractLsb' 8 8 = 0#8 := by decide
  have h3 : (0xFFFF00FF#32).extractLsb' 16 8 = BitVec.allOnes 8 := by decide
  have h4 : (0xFFFF00FF#32).extractLsb' 24 8 = BitVec.allOnes 8 := by decide
  rw [word_eq_iff_fields]
  simp only [fieldOpc, fieldA, fieldB, fieldZ, field_and, h1, h2, h3, h4, BitVec.and_allOnes, BitVec.and_zero]

/-- An operand placed at bit `n` stands in the field at `n` and in no other. -/
theorem field_placeAt (n k : Nat) (v : BitVec 8) (hn : n = 8 ∨ n = 16) (hk : k = 0 ∨ k = 8 ∨ k = 16 ∨ k = 24) :
    (placeAt n v).extractLsb' k 8 = if k = n then v else 0#8 := by
  refine BitVec.eq_of_getLsbD_eq fun i hi => ?_
  rw [getLsbD_field _ _ _ hi, placeAt, BitVec.getLsbD_shiftLeft, BitVec.getLsbD_setWidth]
  by_cases h1 : k + i < n
  · have : k ≠ n := by omega
    simp [h1, this]
  · by_cases h2 : k = n
    · subst h2
      simp [show k + i < 32 by omega, show i < 32 by omega]
    · rw [if_neg h2, BitVec.getLsbD_of_ge v _ (by omega)]
      simp

/-- The four fields of an encoding (rule R101). -/
theorem fields_encode (i : Instr) :
    fieldOpc (encode i) = (match i with
      | .nop => 0x00#8 | .rst => 0x01#8 | .ctClr => 0x10#8 | .ctSet _ _ => 0x11#8 | .encStart => 0x20#8
      | .encSym _ => 0x21#8 | .encFin => 0x22#8 | .decStart => 0x30#8 | .decByte _ => 0x31#8 | .decFin => 0x32#8) ∧
    fieldA (encode i) = (match i with
      | .ctSet sym _ => sym | .encSym sym => sym | .decByte byte => byte
      | .nop | .rst | .ctClr | .encStart | .encFin | .decStart | .decFin => 0#8) ∧
    fieldB (encode i) = (match i with
      | .ctSet _ len => len
      | .nop | .rst | .ctClr | .encStart | .encSym _ | .encFin | .decStart | .decByte _ | .decFin => 0#8) ∧
    fieldZ (encode i) = 0#8 := by
  cases i <;> simp only [encode, fieldOpc, fieldA, fieldB, fieldZ, field_or, field_placeAt _ _ _ (Or.inl rfl),
    field_placeAt _ _ _ (Or.inr rfl), true_or, or_true] <;> simp

end Sys2Proof
end

