-- ==== Sys2Proof/Laws/Decoder.lean ====
section
/-! SUPPORT. All that `DEC.BYTE` and `DEC.FIN` can do where they are permitted (rules R138, R139), case by case. -/

namespace Sys2Proof.Machine

theorem decByteEffect_cases (lmax : Nat) (byte : Byte) (s : State) :
    (s.hdr = false ∧ byte.toNat > 7 ∧ decByteEffect lmax byte s = raiseFault .padHdr (encode (.decByte byte)) s) ∨
    (s.hdr = false ∧ byte.toNat ≤ 7 ∧ decByteEffect lmax byte s = { s with dpad := byte.extractLsb' 0 3, hdr := true }) ∨
    (s.hdr = true ∧ s.holdV = false ∧ decByteEffect lmax byte s = holdByte byte s) ∨
    (s.hdr = true ∧ s.holdV = true ∧ (shiftBits lmax (byteBits s.hold) s).2 = true ∧
      decByteEffect lmax byte s = holdByte byte (shiftBits lmax (byteBits s.hold) s).1) ∨
    (s.hdr = true ∧ s.holdV = true ∧ (shiftBits lmax (byteBits s.hold) s).2 = false ∧
      decByteEffect lmax byte s =
        raiseFault .accOvf (encode (.decByte byte)) (shiftBits lmax (byteBits s.hold) s).1) := by
  unfold decByteEffect
  cases hh : s.hdr
  · by_cases hb : byte.toNat > 7
    · left; simp [decHeaderEffect, hb]
    · right; left; simp [decHeaderEffect, hb]; omega
  · cases hv : s.holdV
    · simp
    · cases hs : (shiftBits lmax (byteBits s.hold) s).2 <;> simp [shiftThen_eq, hs]

/-- The bits `DEC.FIN` shifts from the held byte: `HOLD[7]` down to `HOLD[DPAD]` (rule R139). -/
abbrev lastBits (s : State) : List Bool := (byteBits s.hold).take (8 - s.dpad.toNat)

theorem decCloseEffect_cases (s : State) :
    (s.accLen ≠ 0#8 ∧ decCloseEffect s = raiseFault .unmatched (encode .decFin) s) ∨
    (s.accLen = 0#8 ∧ decCloseEffect s = { s with hold := 0#8, holdV := false, mode := .idle, done := true }) := by
  by_cases h : s.accLen = 0#8 <;> simp [decCloseEffect, h]

theorem decFinEffect_cases (lmax : Nat) (s : State) :
    (s.hdr = false ∧ decFinEffect lmax s = raiseFault .trunc (encode .decFin) s) ∨
    (s.hdr = true ∧ s.holdV = false ∧ s.dpad ≠ 0#3 ∧ decFinEffect lmax s = raiseFault .trunc (encode .decFin) s) ∨
    (s.hdr = true ∧ s.holdV = false ∧ s.dpad = 0#3 ∧ decFinEffect lmax s = decCloseEffect s) ∨
    (s.hdr = true ∧ s.holdV = true ∧ (shiftBits lmax (lastBits s) s).2 = true ∧
      decFinEffect lmax s = decCloseEffect (shiftBits lmax (lastBits s) s).1) ∨
    (s.hdr = true ∧ s.holdV = true ∧ (shiftBits lmax (lastBits s) s).2 = false ∧
      decFinEffect lmax s = raiseFault .accOvf (encode .decFin) (shiftBits lmax (lastBits s) s).1) := by
  unfold decFinEffect
  cases hh : s.hdr
  · simp
  · cases hv : s.holdV
    · by_cases hd : s.dpad = 0#3 <;> simp [hd]
    · cases hs : (shiftBits lmax (lastBits s) s).2 <;> simp [shiftThen_eq, hs]

end Sys2Proof.Machine
end

