-- ==== Sys2Proof/Laws/Encoder.lean ====
section
/-! SUPPORT. The barrel shifter in bit strings (rules R122, R124): what it emits and keeps is the pending bits and the
codeword, in order. -/

namespace Sys2Proof.Machine

theorem pendingValue_lt (nb : BitVec 3) (bb : Byte) : pendingValue nb bb < 2 ^ nb.toNat := by
  unfold pendingValue
  have h1 := bb.isLt
  have h2 := nb.isLt
  rw [Nat.div_lt_iff_lt_mul (by positivity), ← pow_add]
  calc bb.toNat < 2 ^ 8 := h1
    _ = 2 ^ (nb.toNat + (8 - nb.toNat)) := by congr 1; omega

theorem pendingBits_eq (b : Block) : pendingBits b = bitString b.nb.toNat (pendingValue b.nb b.bb) := by
  have := b.nb.isLt
  rw [pendingBits, byteBits, bitString_take _ _ _ (by omega), pendingValue]

@[simp] theorem pendingBits_length (b : Block) : (pendingBits b).length = b.nb.toNat := by simp [pendingBits_eq]

/-- The shifted number spells the pending bits and then the codeword. -/
theorem bitString_barrelValue (nb : BitVec 3) (bb : Byte) {l c : Nat} (hc : c < 2 ^ l) :
    bitString (nb.toNat + l) (barrelValue nb bb l c) = bitString nb.toNat (pendingValue nb bb) ++ bitString l c :=
  bitString_append _ _ _ _ hc

/-- The bytes of rule R122's loop are the bit string cut into bytes. -/
theorem barrelBytes_eq_cutBytes (t v : Nat) : barrelBytes t v = cutBytes (bitString t v) := by
  rw [barrelBytes, cutBytes, bitString_length]
  refine List.map_congr_left fun i hi => ?_
  have hi' : i < t / 8 := by simpa using hi
  rw [bitString_drop, bitString_take _ _ _ (by omega), bitValue_bitString, show t - 8 * i - 8 = t - 8 - 8 * i by omega]
  apply BitVec.eq_of_toNat_eq; simp

@[simp] theorem barrelBytes_length (t v : Nat) : (barrelBytes t v).length = t / 8 := by simp [barrelBytes]

theorem keptBits_lt (v r : Nat) (hr : r < 8) : v % 2 ^ r * 2 ^ (8 - r) < 256 := by
  have h := Nat.mod_lt v (show 0 < 2 ^ r by positivity)
  calc v % 2 ^ r * 2 ^ (8 - r) < 2 ^ r * 2 ^ (8 - r) := Nat.mul_lt_mul_of_pos_right h (by positivity)
    _ = 2 ^ 8 := by rw [← pow_add]; congr 1; omega

theorem appendBits_nb (l c : Nat) (s : State) : (appendBits l c s).nb.toNat = (s.nb.toNat + l) % 8 := by
  simp [appendBits]

theorem appendBits_bb (l c : Nat) (s : State) :
    (appendBits l c s).bb.toNat =
      barrelValue s.nb s.bb l c % 2 ^ ((s.nb.toNat + l) % 8) * 2 ^ (8 - (s.nb.toNat + l) % 8) := by
  have := keptBits_lt (barrelValue s.nb s.bb l c) ((s.nb.toNat + l) % 8) (by omega)
  simp [appendBits, Nat.mod_eq_of_lt this]

/-- The shifter writes the pending bits and the output, and nothing else (rule R120). -/
theorem appendBits_frame (l c : Nat) (s : State) :
    appendBits l c s =
      { emit (barrelBytes (s.nb.toNat + l) (barrelValue s.nb s.bb l c)) s with
        bb := (appendBits l c s).bb, nb := (appendBits l c s).nb } := rfl

@[simp] theorem appendBits_out (l c : Nat) (s : State) :
    (appendBits l c s).out = s.out ++ barrelBytes (s.nb.toNat + l) (barrelValue s.nb s.bb l c) := rfl

/-- The kept bits are left-aligned and zero-filled, whatever was pending (rule R34). -/
theorem appendBits_pendingWf (l c : Nat) (s : State) : pendingWf (appendBits l c s).nb (appendBits l c s).bb := by
  rw [pendingWf, appendBits_nb, appendBits_bb, Nat.mul_mod_left]

/-- The barrel shifter loses no bit (rule R124). -/
theorem appendBits_bits {l c : Nat} (hc : c < 2 ^ l) (s : State) :
    streamBits (barrelBytes (s.nb.toNat + l) (barrelValue s.nb s.bb l c)) ++ pendingBits (appendBits l c s).toBlock =
      pendingBits s.toBlock ++ bitString l c := by
  have hkept : pendingBits (appendBits l c s).toBlock =
      (bitString (s.nb.toNat + l) (barrelValue s.nb s.bb l c)).drop (8 * ((s.nb.toNat + l) / 8)) := by
    rw [pendingBits_eq, pendingValue, appendBits_nb, appendBits_bb, Nat.mul_div_cancel _ (by positivity), bitString_mod,
      bitString_drop]
    congr 1; omega
  rw [barrelBytes_eq_cutBytes, streamBits_cutBytes_take, bitString_length, hkept, List.take_append_drop,
    bitString_barrelValue _ _ hc, pendingBits_eq]

end Sys2Proof.Machine
end

