-- ==== Sys2Proof/Laws/Table.lean ====
section
/-! SUPPORT. All that `CT.SET` can do where it is permitted (rule R112), and the table invariant (rule R24). -/

namespace Sys2Proof.Machine

/-- The three outcomes of `CT.SET`, in the order of its checks (rules R112, R206). -/
theorem ctSetEffect_cases (lmax : Nat) (sym : Byte) (len : BitVec 8) (s : State) :
    (len.toNat > lmax ∧ ctSetEffect lmax sym len s = raiseFault .len (encode (.ctSet sym len)) s) ∨
    (len.toNat ≤ lmax ∧ s.code.toNat ≥ 2 ^ len.toNat ∧
      ctSetEffect lmax sym len s = raiseFault .code (encode (.ctSet sym len)) s) ∨
    (len.toNat ≤ lmax ∧ s.code.toNat < 2 ^ len.toNat ∧
      ctSetEffect lmax sym len s =
        { s with ct := setEntry s.ct sym { len := len, code := BitVec.ofNat 255 s.code.toNat } }) := by
  unfold ctSetEffect
  by_cases h1 : len.toNat > lmax
  · simp [h1]
  · by_cases h2 : s.code.toNat ≥ 2 ^ len.toNat
    · simp [h1, h2]; omega
    · have h3 : s.code.toNat < 2 ^ lmax :=
        lt_of_lt_of_le (not_le.mp h2) (Nat.pow_le_pow_right (by omega) (by omega))
      right; right
      rw [if_neg h1, if_neg h2, Nat.mod_eq_of_lt h3]
      exact ⟨by omega, by omega, rfl⟩

/-- With `LMAX` = 255 no length is too long (rule R112). -/
theorem len_le_LMAX (len : BitVec 8) : len.toNat ≤ Config.LMAX := by
  have := len.isLt; unfold Config.LMAX; omega

/-- The empty table has the invariant (rules R24, R39). -/
theorem tableWf_empty (lmax : Nat) : tableWf lmax (Vector.replicate 256 Entry.empty) := by
  intro sym; simp [Entry.wf, Entry.empty]

/-- Writing an entry that has the invariant keeps it (rule R24). -/
theorem tableWf_setEntry {lmax : Nat} {ct : Vector Entry 256} (h : tableWf lmax ct) (sym : Byte) {e : Entry}
    (he : e.wf lmax) : tableWf lmax (setEntry ct sym e) := by
  intro other
  by_cases ho : other = sym
  · subst ho; rw [entryAt_setEntry_self]; exact he
  · rw [entryAt_setEntry_ne _ _ ho]; exact h other

end Sys2Proof.Machine
end

