-- ==== Sys2Proof/Laws/Invariant.lean ====
section
/-! SUPPORT. The invariant of the block under the operations the commands share (rules R24, R30, R34, R35). -/

namespace Sys2Proof.Machine

/-- Shifting bits keeps the accumulator within its length (rule R35). -/
theorem scan_acc_lt (ct : Vector Entry 256) (bits : List Bool) (acc : CodeBits) (n : BitVec 8)
    (h : acc.toNat < 2 ^ n.toNat) :
    (scan Config.LMAX ct bits acc n).acc.toNat < 2 ^ (scan Config.LMAX ct bits acc n).accLen.toNat := by
  induction bits generalizing acc n with
  | nil => exact h
  | cons x xs ih =>
    by_cases hn : n.toNat = Config.LMAX
    · rw [scan_full hn]; exact h
    · cases hl : lookup ct (accPush acc x) (n + 1#8) with
      | some sym => rw [scan_match hn hl]; exact ih _ _ (by simp)
      | none =>
        rw [scan_push hn hl]; apply ih
        have h1 : (n + 1#8).toNat = n.toNat + 1 := by
          have := n.isLt; unfold Config.LMAX at hn; simp; omega
        rw [h1, accPush, pow_succ]
        have := x.toNat_lt
        refine lt_of_le_of_lt (b := acc.toNat * 2 + x.toNat) ?_ (by omega)
        simpa using Nat.mod_le _ _

/-- Entering a fault keeps the invariant. -/
theorem raiseFault_inv {c : Cause} {w : Word} {s : State} (h : s.toBlock.Inv Config.LMAX) :
    (raiseFault c w s).toBlock.Inv Config.LMAX where
  table := h.table
  pendingAligned := h.pendingAligned
  pendingOutside := by simp
  header := h.header
  noHold := h.noHold
  holdAfterHeader := h.holdAfterHeader
  accBound := h.accBound
  accLenBound := h.accLenBound
  decoderOutside := by simp
  recorded := by cases c <;> simp [raiseFault, Cause.bits]
  recordedWord := by cases c <;> simp [raiseFault, Cause.bits]
  causeKnown := .inr ⟨c, rfl⟩
  notDone := by simp

/-- The reset values have the invariant with any table that has its own. -/
theorem resetWith_inv (ct : Vector Entry 256) (h : tableWf Config.LMAX ct) :
    ({ Block.reset with ct := ct } : Block).Inv Config.LMAX := by
  refine ⟨h, ?_, ?_, ?_, ?_, ?_, ?_, ?_, ?_, ?_, ?_, ?_, ?_⟩ <;> simp [Block.reset, pendingWf]

/-- Shifting bits in a decode session keeps the invariant. -/
theorem shiftBits_inv {s : State} (h : s.toBlock.Inv Config.LMAX) (hm : s.mode = .dec) (bits : List Bool) :
    (shiftBits Config.LMAX bits s).1.toBlock.Inv Config.LMAX := by
  have hb := scan_acc_lt s.ct bits s.acc s.accLen h.accBound
  rw [shiftBits_eq_scan]
  exact { h with
    accBound := hb
    accLenBound := len_le_LMAX _
    decoderOutside := by simp [hm] }

end Sys2Proof.Machine
end

