-- ==== Sys2Proof/Laws/Matching.lean ====
section
/-! SUPPORT. The accumulator and the table search in bit strings (rules R35, R67, R136): the accumulator that holds a
string, and when a string matches. -/

namespace Sys2Proof.Machine

/-- The accumulator that holds a bit string (rule R35). -/
def accOf (w : List Bool) : CodeBits := BitVec.ofNat 255 (bitValue w)

/-- The accumulator length of a bit string (rule R35). -/
def lenOf (w : List Bool) : BitVec 8 := BitVec.ofNat 8 w.length

@[simp] theorem accOf_nil : accOf [] = 0#255 := rfl
@[simp] theorem lenOf_nil : lenOf [] = 0#8 := rfl

theorem bitValue_lt_acc {w : List Bool} (h : w.length ≤ 255) : bitValue w < 2 ^ 255 :=
  lt_of_lt_of_le (bitValue_lt w) (Nat.pow_le_pow_right (by omega) h)

theorem accOf_toNat {w : List Bool} (h : w.length ≤ 255) : (accOf w).toNat = bitValue w := by
  rw [accOf, BitVec.toNat_ofNat, Nat.mod_eq_of_lt (bitValue_lt_acc h)]

theorem lenOf_toNat {w : List Bool} (h : w.length ≤ 255) : (lenOf w).toNat = w.length := by simp [lenOf]; omega

theorem accPush_accOf {w : List Bool} (x : Bool) (h : w.length < 255) : accPush (accOf w) x = accOf (w ++ [x]) := by
  rw [accPush, accOf_toNat (by omega), accOf, bitValue_append]; simp

theorem lenOf_add_one (w : List Bool) (x : Bool) : lenOf w + 1#8 = lenOf (w ++ [x]) := by
  apply BitVec.eq_of_toNat_eq; simp [lenOf]

theorem lenOf_eq_zero {w : List Bool} (h : w.length ≤ 255) : lenOf w = 0#8 ↔ w = [] := by
  rw [← List.length_eq_zero_iff, ← lenOf_toNat h]
  exact ⟨fun e => by rw [e]; rfl, fun e => BitVec.eq_of_toNat_eq (by simpa using e)⟩

/-- The accumulated bit string of a block whose accumulator holds `w`. -/
theorem accBits_of {b : Block} {w : List Bool} (h : w.length ≤ 255) (ha : b.acc = accOf w) (hl : b.accLen = lenOf w) :
    accBits b = w := by
  rw [accBits, ha, hl, accOf_toNat h, lenOf_toNat h, bitString_bitValue]

theorem Entry.bits_length (e : Entry) : e.bits.length = e.len.toNat := by simp [Entry.bits]

/-- A symbol has a codeword when its bit string is not empty (rule R23). -/
theorem hasCode_iff {ct : Vector Entry 256} {sym : Byte} : hasCode ct sym ↔ (entryAt ct sym).bits ≠ [] := by
  rw [hasCode, not_iff_not, ← List.length_eq_zero_iff, Entry.bits_length]
  exact ⟨fun h => by rw [h]; rfl, fun h => BitVec.eq_of_toNat_eq (by simpa using h)⟩

/-- An entry equals the accumulator, in length and bits, when its codeword is the accumulated string (rule R67). -/
theorem Entry.holds_accOf {e : Entry} (hw : e.wf Config.LMAX) {w : List Bool} (h : w.length ≤ 255) :
    e.holds (accOf w) (lenOf w) ↔ e.bits = w := by
  constructor
  · rintro ⟨h2, h3⟩
    rw [Entry.bits, h2, h3, lenOf_toNat h, accOf_toNat h, bitString_bitValue]
  · rintro rfl
    refine ⟨BitVec.eq_of_toNat_eq ?_, ?_⟩
    · rw [lenOf_toNat h, Entry.bits_length]
    · rw [accOf, Entry.bits, bitValue_bitString, Nat.mod_eq_of_lt hw.2]; simp

/-- The search finds a symbol: its codeword is the string, and no lower symbol's is. -/
theorem lookup_accOf_some {ct : Vector Entry 256} (hw : tableWf Config.LMAX ct) {w : List Bool} (h : w.length ≤ 255)
    {sym : Byte} : lookup ct (accOf w) (lenOf w) = some sym ↔
      (entryAt ct sym).bits = w ∧ ∀ other : Byte, other.toNat < sym.toNat → (entryAt ct other).bits ≠ w := by
  rw [lookup_eq_some, Entry.holds_accOf (hw sym) h]
  exact and_congr_right fun _ => forall_congr' fun o => imp_congr_right fun _ => not_congr (Entry.holds_accOf (hw o) h)

/-- The search finds nothing: no codeword is the string. -/
theorem lookup_accOf_none {ct : Vector Entry 256} (hw : tableWf Config.LMAX ct) {w : List Bool} (h : w.length ≤ 255) :
    lookup ct (accOf w) (lenOf w) = none ↔ ∀ sym : Byte, (entryAt ct sym).bits ≠ w := by
  rw [lookup_eq_none]
  exact forall_congr' fun o => not_congr (Entry.holds_accOf (hw o) h)

/-- One bit shifted that completes a codeword. -/
theorem scan_accOf_some {ct : Vector Entry 256} {w : List Bool} {x : Bool} (h : w.length < 255) {sym : Byte}
    (hl : lookup ct (accOf (w ++ [x])) (lenOf (w ++ [x])) = some sym) (xs : List Bool) :
    scan Config.LMAX ct (x :: xs) (accOf w) (lenOf w) =
      { scan Config.LMAX ct xs 0#255 0#8 with matched := sym :: (scan Config.LMAX ct xs 0#255 0#8).matched } :=
  scan_match (by rw [lenOf_toNat (by omega)]; unfold Config.LMAX; omega)
    (by rw [accPush_accOf x h, lenOf_add_one]; exact hl) xs

/-- One bit shifted that completes none. -/
theorem scan_accOf_none {ct : Vector Entry 256} {w : List Bool} {x : Bool} (h : w.length < 255)
    (hl : lookup ct (accOf (w ++ [x])) (lenOf (w ++ [x])) = none) (xs : List Bool) :
    scan Config.LMAX ct (x :: xs) (accOf w) (lenOf w) = scan Config.LMAX ct xs (accOf (w ++ [x])) (lenOf (w ++ [x])) := by
  rw [scan_push (by rw [lenOf_toNat (by omega)]; unfold Config.LMAX; omega)
    (by rw [accPush_accOf x h, lenOf_add_one]; exact hl), accPush_accOf x h, lenOf_add_one]

/-- Shifting a bit string into an accumulator that holds `w` gives one that holds some string again. -/
theorem scan_accOf_holds (ct : Vector Entry 256) (bits w : List Bool) (h : w.length ≤ 255) :
    ∃ v : List Bool, v.length ≤ 255 ∧ (scan Config.LMAX ct bits (accOf w) (lenOf w)).acc = accOf v ∧
      (scan Config.LMAX ct bits (accOf w) (lenOf w)).accLen = lenOf v := by
  induction bits generalizing w with
  | nil => exact ⟨w, h, rfl, rfl⟩
  | cons x xs ih =>
    by_cases hf : w.length = 255
    · rw [scan_full (by rw [lenOf_toNat h, hf]; rfl)]; exact ⟨w, h, rfl, rfl⟩
    · have hlt : w.length < 255 := by omega
      cases hl : lookup ct (accOf (w ++ [x])) (lenOf (w ++ [x])) with
      | none => rw [scan_accOf_none hlt hl]; exact ih _ (by simp; omega)
      | some sym => rw [scan_accOf_some hlt hl]; exact ih [] (by simp)

end Sys2Proof.Machine
end

