-- ==== Sys2Proof/Laws/PerInstr.lean ====
section
/-! SUPPORT. Statements about every command as syntax, one lemma per constructor. -/

namespace Sys2Proof.Laws.ReservedFieldZero

/-- The reserved field `Z` of a command's encoding is zero (rules R90, R92). -/
def Statement (i : Instr) : Prop := (encode i).extractLsb' 24 8 = 0#8

theorem nop : Statement .nop := (fields_encode .nop).2.2.2
theorem rst : Statement .rst := (fields_encode .rst).2.2.2
theorem ctClr : Statement .ctClr := (fields_encode .ctClr).2.2.2
theorem ctSet (sym : Byte) (len : BitVec 8) : Statement (.ctSet sym len) := (fields_encode (.ctSet sym len)).2.2.2
theorem encStart : Statement .encStart := (fields_encode .encStart).2.2.2
theorem encSym (sym : Byte) : Statement (.encSym sym) := (fields_encode (.encSym sym)).2.2.2
theorem encFin : Statement .encFin := (fields_encode .encFin).2.2.2
theorem decStart : Statement .decStart := (fields_encode .decStart).2.2.2
theorem decByte (byte : Byte) : Statement (.decByte byte) := (fields_encode (.decByte byte)).2.2.2
theorem decFin : Statement .decFin := (fields_encode .decFin).2.2.2

end Sys2Proof.Laws.ReservedFieldZero
end

