-- ==== Sys2Proof/Laws/Port.lean ====
section
/-! SUPPORT. No operation of the block looks at the world around it: the record of its output, the bytes still leaving,
the sink, the host's operations and the values read before (rules R37, R40). So a host operation does in any state what
the block's own step says. -/

namespace Sys2Proof.Machine

/-- The state `s`, with its records standing behind those of `w`, in the world of `w`. -/
def inWorld (w s : State) : State := { w with toBlock := s.toBlock, out := w.out ++ s.out, reads := w.reads ++ s.reads }

/-- An operation that does the same in every world. -/
def Blind (f : State → State) : Prop := ∀ w s, f (inWorld w s) = inWorld w (f s)

theorem inWorld_alone (w : State) : inWorld w w.toBlock.alone = w := by
  simp [inWorld, Block.alone, State.reset]

theorem emit_blind (bs : List Byte) : Blind (emit bs) := fun w s => by simp [emit, inWorld]

/-- Two operations chosen by a test of the block. -/
theorem Blind.ite {p : Block → Prop} [∀ b, Decidable (p b)] {f g : State → State} (hf : Blind f) (hg : Blind g) :
    Blind fun s => if p s.toBlock then f s else g s := fun w s => by
  show (if p s.toBlock then f (inWorld w s) else g (inWorld w s)) = _
  by_cases h : p s.toBlock <;> simp [h, hf w s, hg w s]

theorem appendBits_blind (l c : Nat) : Blind (appendBits l c) := fun w s => by
  simp only [appendBits]
  rw [show (inWorld w s).nb = s.nb from rfl, show (inWorld w s).bb = s.bb from rfl, emit_blind]; rfl

theorem shiftBits_inWorld (lmax : Nat) (bits : List Bool) (w s : State) :
    shiftBits lmax bits (inWorld w s) = (inWorld w (shiftBits lmax bits s).1, (shiftBits lmax bits s).2) := by
  rw [shiftBits_eq_scan, shiftBits_eq_scan, emit_blind]; rfl

theorem shiftThen_blind (lmax : Nat) (w : Word) (bits : Block → List Bool) {k : State → State} (hk : Blind k) :
    Blind fun s => shiftThen lmax w (bits s.toBlock) k s := fun v s => by
  show shiftThen lmax w (bits s.toBlock) k (inWorld v s) = _
  rw [show inWorld v ((fun s => shiftThen lmax w (bits s.toBlock) k s) s) =
    inWorld v (shiftThen lmax w (bits s.toBlock) k s) from rfl, shiftThen_eq, shiftThen_eq, shiftBits_inWorld]
  cases (shiftBits lmax (bits s.toBlock) s).2
  · rfl
  · exact hk _ _

/-- The effect of every command does the same in every world. -/
theorem effectOf_blind (i : Instr) : Blind (effectOf i) := by
  have close : Blind decCloseEffect :=
    Blind.ite (p := fun b => b.accLen ≠ 0#8) (f := raiseFault .unmatched (encode .decFin)) (fun _ _ => rfl)
      (fun _ _ => rfl)
  cases i with
  | nop => exact fun _ _ => rfl
  | rst => exact fun _ _ => rfl
  | ctClr => exact fun _ _ => rfl
  | ctSet sym len =>
    exact Blind.ite (p := fun _ => len.toNat > Config.LMAX) (f := raiseFault .len (encode (.ctSet sym len)))
      (fun _ _ => rfl)
      (Blind.ite (p := fun b => b.code.toNat ≥ 2 ^ len.toNat) (f := raiseFault .code (encode (.ctSet sym len)))
        (fun _ _ => rfl) (fun _ _ => rfl))
  | encStart => exact fun _ _ => rfl
  | encSym sym =>
    exact Blind.ite (p := fun b => (entryAt b.ct sym).len = 0#8) (f := raiseFault .noCode (encode (.encSym sym)))
      (fun _ _ => rfl) (fun w s => appendBits_blind (entryAt s.ct sym).len.toNat (entryAt s.ct sym).code.toNat w s)
  | encFin =>
    refine Blind.ite (p := fun b => b.nb = 0#3) (fun _ _ => rfl) (fun w s => ?_)
    rw [show (inWorld w s).bb = s.bb from rfl, emit_blind]; rfl
  | decStart => exact fun _ _ => rfl
  | decByte byte =>
    exact Blind.ite (p := fun b => b.hdr = false)
      (Blind.ite (p := fun _ => byte.toNat > 7) (f := raiseFault .padHdr (encode (.decByte byte))) (fun _ _ => rfl)
        (fun _ _ => rfl))
      (Blind.ite (p := fun b => b.holdV = true)
        (shiftThen_blind Config.LMAX _ (fun b => byteBits b.hold) (fun _ _ => rfl)) (fun _ _ => rfl))
  | decFin =>
    exact Blind.ite (p := fun b => b.hdr = false) (f := raiseFault .trunc (encode .decFin)) (fun _ _ => rfl)
      (Blind.ite (p := fun b => b.holdV = true)
        (shiftThen_blind Config.LMAX _ (fun b => (byteBits b.hold).take (8 - b.dpad.toNat)) close)
        (Blind.ite (p := fun b => b.dpad ≠ 0#3) (f := raiseFault .trunc (encode .decFin)) (fun _ _ => rfl) close))

/-- The outcome of an operation, in the world of `w`. -/
def outcomeIn (w : State) : Host.Outcome State Fault Refusal → Host.Outcome State Fault Refusal
  | .next t => .next (inWorld w t)
  | .fault f => .fault f
  | .refused r => .refused r

theorem exec_inWorld (i : Instr) (w s : State) : exec i (inWorld w s) = outcomeIn w (exec i s) := by
  by_cases hr : i = .rst
  · subst hr; rfl
  rw [exec_eq_issue hr, exec_eq_issue hr, issue, issue, effectOf_blind i w s,
    show (inWorld w s).mode = s.mode from rfl]
  by_cases hf : s.mode = .fault
  · simp only [if_pos hf]; rfl
  · cases hp : permittedIn i s.mode <;> simp only [if_neg hf] <;> rfl

theorem execWord_inWorld (v : Word) (w s : State) : execWord v (inWorld w s) = outcomeIn w (execWord v s) := by
  rw [execWord, execWord, show (inWorld w s).mode = s.mode from rfl, exec_inWorld]
  by_cases hf : s.mode = .fault
  · by_cases hv : v = encode .rst
    · simp only [if_pos hf, if_pos hv]
    · simp only [if_pos hf, if_neg hv]; rfl
  · simp only [if_neg hf]
    cases decodeWord v with
    | none => rfl
    | some i => exact exec_inWorld i w s

/-- A host operation other than reset does the same in every world. -/
theorem hostOp_inWorld {op : HostOp} (h : op ≠ .reset) (w s : State) :
    hostOp op (inWorld w s) = outcomeIn w (hostOp op s) := by
  cases op with
  | reset => exact absurd rfl h
  | read bytes off =>
    cases ha : accessReg bytes off with
    | error e => simp only [hostOp, ha]; rfl
    | ok r => simp only [hostOp, ha]; simp [readReg, inWorld, outcomeIn]
  | write bytes off v =>
    cases ha : accessReg bytes off with
    | error e => simp only [hostOp, ha]; rfl
    | ok r =>
      simp only [hostOp, ha]
      cases r with
      | cmd => exact execWord_inWorld v w s
      | _ => rfl

/-- A host operation other than reset, in any state, is its run on the block by itself, put back into that state. -/
theorem hostOp_eq_alone {op : HostOp} (h : op ≠ .reset) (s : State) :
    hostOp op s = outcomeIn s (hostOp op s.toBlock.alone) := by
  conv_lhs => rw [← inWorld_alone s]
  exact hostOp_inWorld h s _

/-- No command returns a value to the host. -/
theorem effectOf_reads (i : Instr) (s : State) : (effectOf i s).reads = s.reads := by
  have shift := fun bits => (sameButAcc_fields (shiftBits_sameButAcc Config.LMAX bits s)).2.2.2.2.2.2.2.2.2.2.2.2.2.2.2.2.2
  have close : ∀ u : State, (decCloseEffect u).reads = u.reads := fun u => by
    rcases decCloseEffect_cases u with ⟨_, h⟩ | ⟨_, h⟩ <;> rw [h]; rfl
  cases i with
  | ctSet sym len =>
    simp only [effectOf, ctSetEffect]
    split
    · rfl
    · split <;> rfl
  | encSym sym => simp only [effectOf, encSymEffect]; split <;> rfl
  | encFin => simp only [effectOf, encFinEffect]; split <;> rfl
  | decByte byte =>
    rcases decByteEffect_cases Config.LMAX byte s with ⟨_, _, h⟩ | ⟨_, _, h⟩ | ⟨_, _, h⟩ | ⟨_, _, _, h⟩ | ⟨_, _, _, h⟩ <;>
      simp only [effectOf, h] <;> simp [shift]
  | decFin =>
    rcases decFinEffect_cases Config.LMAX s with ⟨_, h⟩ | ⟨_, _, _, h⟩ | ⟨_, _, _, h⟩ | ⟨_, _, _, h⟩ | ⟨_, _, _, h⟩ <;>
      simp only [effectOf, h] <;> simp [shift, close]
  | _ => rfl

theorem exec_reads {i : Instr} {s t : State} (h : exec i s = .next t) : t.reads = s.reads := by
  by_cases hr : i = .rst
  · subst hr; cases h; rfl
  rw [exec_eq_issue hr] at h
  obtain ⟨_, h⟩ | ⟨_, _, h⟩ | ⟨_, _, h⟩ := issue_cases h <;> cases h
  · rfl
  · rfl
  · exact effectOf_reads i s

/-- A host operation on the block by itself returns at most one value. -/
theorem hostOp_alone_reads {op : HostOp} {b : Block} {t : State} (h : hostOp op b.alone = .next t) :
    t.reads = t.reads.head?.toList := by
  have none : t.reads = [] → t.reads = t.reads.head?.toList := fun e => by rw [e]; rfl
  obtain ⟨_, rfl⟩ | ⟨_, _, _, _, rfl⟩ | ⟨w, _, hx⟩ | ⟨_, _, _, rfl⟩ | ⟨_, _, _, _, rfl⟩ := hostOp_cases h
  · rfl
  · rfl
  · obtain ⟨_, _, rfl⟩ | ⟨_, _, rfl⟩ | ⟨i, _, he, _⟩ := execWord_cases hx
    · rfl
    · rfl
    · exact none (exec_reads he)
  · rfl
  · rfl

/-- What the block's step answers is what the operation does in any state (rules R9, R40): the same block, the bytes
appended to `OUT`, and the value added to those read. -/
theorem hostOp_eq_blockStep {op : HostOp} (h : op ≠ .reset) (s : State) :
    hostOp op s = match blockStep op s.toBlock with
      | .next r => .next { s with toBlock := r.block, out := s.out ++ r.emitted, reads := s.reads ++ r.read.toList }
      | .fault f => .fault f
      | .refused e => .refused e := by
  rw [hostOp_eq_alone h, blockStep]
  cases he : hostOp op s.toBlock.alone with
  | next t => simp only [outcomeIn, inWorld]; rw [← hostOp_alone_reads he]
  | fault f => rfl
  | refused e => rfl

/-- The block taking an operation is the complete operation with its bytes handed over as far as the sink accepts them. -/
theorem takeOp_eq_handOver {op : HostOp} (h : op ≠ .reset) (s : State) : takeOp op s = handOver s (hostOp op s) := by
  rw [hostOp_eq_blockStep h, takeOp]
  cases blockStep op s.toBlock with
  | next r => simp [handOver, emittedSince]
  | fault f => rfl
  | refused e => rfl

theorem takeOp_reset (s : State) : takeOp .reset s = .next (hardReset s) := by
  have e : takeOp .reset s = .next (offer (hardReset s)) := by
    simp [takeOp, blockStep, hostOp, hardReset, Block.alone, State.reset]
  rw [e, offer_of_leaving_nil rfl]

end Sys2Proof.Machine
end

