-- ==== Sys2Proof/Laws/Step.lean ====
section
/-! SUPPORT. All that a step can do, taken apart once. -/

namespace Sys2Proof.Machine

/-- All that a step can do (rules R9, R68, R82, R217). -/
theorem step_cases {s : State} {o : Host.Outcome State Fault Refusal} (h : step s = o) :
    (s.pending = [] ∧ o = .next (offer s)) ∨
    (∃ rest, s.pending = .reset :: rest ∧ o = .next (hardReset { s with pending := rest })) ∨
    (∃ op rest, s.pending = op :: rest ∧ op ≠ .reset ∧ s.leaving ≠ [] ∧ o = .next (offer s)) ∨
    (∃ op rest, s.pending = op :: rest ∧ op ≠ .reset ∧ s.leaving = [] ∧
      o = handOver s (hostOp op { s with pending := rest })) := by
  subst h
  cases hp : s.pending with
  | nil => exact .inl ⟨rfl, by simp [step, hostStep, hp]⟩
  | cons op rest =>
    by_cases hr : op = .reset
    · subst hr; exact .inr (.inl ⟨rest, rfl, by simp [step, hostStep, hp, takeOp_reset]⟩)
    · have e : step s =
          if s.leaving = [] then takeOp op { s with pending := rest } else .next (offer s) := by
        unfold step hostStep
        rw [hp]
        cases op <;> first | rfl | exact absurd rfl hr
      by_cases hu : s.leaving = []
      · exact .inr (.inr (.inr ⟨op, rest, rfl, hr, hu, by rw [e, if_pos hu, takeOp_eq_handOver hr]; rfl⟩))
      · exact .inr (.inr (.inl ⟨op, rest, rfl, hr, hu, by rw [e, if_neg hu]⟩))

theorem handOver_next {s t : State} {o : Host.Outcome State Fault Refusal} (h : handOver s o = .next t) :
    ∃ u, o = .next u ∧ t = offer { u with out := s.out, leaving := emittedSince s u } := by
  cases o with
  | next u => cases h; exact ⟨u, rfl, rfl⟩
  | fault f => exact absurd h (by simp [handOver])
  | refused r => exact absurd h (by simp [handOver])

/-- Where a host operation emits nothing, its step is the operation. -/
theorem handOver_of_out_eq {s u : State} (hl : u.leaving = []) (ho : u.out = s.out) :
    handOver s (.next u) = .next u := by
  have h : ({ u with out := s.out, leaving := emittedSince s u } : State) = u := by
    rw [emittedSince_of_append (bs := []) (by simp [ho])]
    cases u; simp_all
  rw [handOver, h, offer_of_leaving_nil hl]

end Sys2Proof.Machine
end

