-- ==== Sys2Proof/Laws/Sequence.lean ====
section
/-! SUPPORT. Host operations one after another (rule R75) and runs of the machine. -/

namespace Sys2Proof.Machine

theorem performAll_cons {op : HostOp} {s t : State} (h : hostOp op s = .next t) (ops : List HostOp) :
    performAll (op :: ops) s = performAll ops t := by simp [performAll, h]

/-- The operations of a sequence's second part begin where those of its first part end. -/
theorem performAll_append (xs ys : List HostOp) {s t : State} (h : performAll xs s = .next t) :
    performAll (xs ++ ys) s = performAll ys t := by
  induction xs generalizing s with
  | nil => cases h; rfl
  | cons x xs ih =>
    cases hx : hostOp x s with
    | next u => rw [performAll_cons hx] at h; rw [List.cons_append, performAll_cons hx, ih h]
    | fault f => simp [performAll, hx] at h
    | refused r => simp [performAll, hx] at h

/-- Writing a command's word to `CMD` executes that word (rule R101). -/
theorem hostOp_command (i : Instr) (s : State) : hostOp (command i) s = execWord (encode i) s := rfl

/-- Writing `CODEk` in any `MODE` (rule R63). -/
theorem hostOp_writeCode (k : Fin 8) (v : Word) (s : State) :
    hostOp (.write 4 (0x20 + 4 * k.val) v) s = .next { s with code := setCodeWord s.code k v } := by
  fin_cases k <;> rfl

/-- One more step of a run, for any machine behind the host's interface. -/
theorem run_succ_eq (M : Host.Core) (s : M.State) (n : Nat) :
    M.run (n + 1) s = match M.step s with
      | .next t => M.run n t
      | .fault f => .fault f
      | .refused r => .refused r := rfl

/-- One more step of a run, where that step answers a next state. -/
theorem core_run_succ {s t : State} (n : Nat) (h : step s = .next t) :
    Sys2Proof.core.run (n + 1) s = Sys2Proof.core.run n t := by
  have h' : Sys2Proof.core.step s = .next t := h
  have e := run_succ_eq Sys2Proof.core s n
  rw [h'] at e; exact e

end Sys2Proof.Machine
end

