-- ==== Sys2Proof/Laws/Trees.lean ====
section
/-! SUPPORT. The host's trees (rules R166 to R169): following a path, the codes as paths, counting leaves, and what
building a tree keeps. -/

namespace Sys2Proof.Machine

@[simp] theorem CodeTree.follow_nil (t : CodeTree) : t.follow [] = some t := by cases t <;> rfl

theorem CodeTree.follow_append (t : CodeTree) (u v : List Bool) :
    t.follow (u ++ v) = (t.follow u).bind fun t' => t'.follow v := by
  induction u generalizing t with
  | nil => simp
  | cons b bs ih =>
    cases t with
    | leaf _ => simp [CodeTree.follow]
    | node l r => simp [CodeTree.follow, ih]

/-- The codes of a tree are its paths to leaves (rule R169). -/
theorem CodeTree.mem_paths (t : CodeTree) (w : List Bool) (p : Byte × List Bool) :
    p ∈ t.paths w ↔ ∃ u, p.2 = w ++ u ∧ t.follow u = some (.leaf p.1) := by
  induction t generalizing w with
  | leaf s =>
    simp only [CodeTree.paths, List.mem_singleton]
    constructor
    · rintro rfl; exact ⟨[], by simp⟩
    · rintro ⟨u, h1, h2⟩
      cases u with
      | nil => simp at h2; cases p; simp_all
      | cons _ _ => simp [CodeTree.follow] at h2
  | node l r ihl ihr =>
    simp only [CodeTree.paths, List.mem_append, ihl, ihr]
    constructor
    · rintro (⟨u, h1, h2⟩ | ⟨u, h1, h2⟩)
      · exact ⟨false :: u, by simp [h1], by simp [CodeTree.follow, h2]⟩
      · exact ⟨true :: u, by simp [h1], by simp [CodeTree.follow, h2]⟩
    · rintro ⟨u, h1, h2⟩
      cases u with
      | nil => simp at h2
      | cons b bs =>
        cases b
        · left; exact ⟨bs, by simp [h1], by simpa [CodeTree.follow] using h2⟩
        · right; exact ⟨bs, by simp [h1], by simpa [CodeTree.follow] using h2⟩

theorem CodeTree.paths_symbols (t : CodeTree) (w : List Bool) : (t.paths w).map Prod.fst = t.symbols := by
  induction t generalizing w with
  | leaf s => rfl
  | node l r ihl ihr => simp [CodeTree.paths, CodeTree.symbols, ihl, ihr]

theorem CodeTree.symbols_pos (t : CodeTree) : 1 ≤ t.symbols.length := by
  induction t with
  | leaf s => simp [CodeTree.symbols]
  | node l r ihl ihr => simp [CodeTree.symbols]; omega

/-- Every subtree has a leaf below it. -/
theorem CodeTree.exists_leaf (t : CodeTree) : ∃ u sym, t.follow u = some (.leaf sym) := by
  induction t with
  | leaf sym => exact ⟨[], sym, rfl⟩
  | node l r ihl _ => obtain ⟨u, sym, h⟩ := ihl; exact ⟨false :: u, sym, by simpa [CodeTree.follow] using h⟩

/-- Going down a path leaves leaves behind: each edge at least one. -/
theorem CodeTree.follow_size {t u : CodeTree} {w : List Bool} (h : t.follow w = some u) :
    u.symbols.length + w.length ≤ t.symbols.length := by
  induction t generalizing w with
  | leaf sym =>
    cases w with
    | nil => simp at h; subst h; simp
    | cons _ _ => simp [CodeTree.follow] at h
  | node l r ihl ihr =>
    have h1 := l.symbols_pos
    have h2 := r.symbols_pos
    cases w with
    | nil => simp at h; subst h; simp
    | cons y ys =>
      simp only [CodeTree.follow] at h
      simp only [CodeTree.symbols, List.length_append, List.length_cons]
      cases y
      · have := ihl h; omega
      · have := ihr h; omega

/-- There are 256 symbols (rule R2). -/
theorem length_le_of_nodup {l : List Byte} (h : l.Nodup) : l.length ≤ 256 := by
  have h1 : (l.map BitVec.toNat).Nodup := h.map fun a b e => BitVec.eq_of_toNat_eq e
  have h2 : (l.map BitVec.toNat) ⊆ List.range 256 := by
    intro n hn; obtain ⟨b, _, rfl⟩ := List.mem_map.1 hn; exact List.mem_range.2 b.isLt
  have := (List.subperm_of_subset h1 h2).length_le
  simpa using this

theorem mem_firstOccurrences (x : List Byte) (b : Byte) : b ∈ firstOccurrences x ↔ b ∈ x := by
  induction x with
  | nil => simp [firstOccurrences]
  | cons a as ih =>
    simp only [firstOccurrences, List.mem_cons, List.mem_filter, ih]
    by_cases h : b = a <;> simp [h]

theorem firstOccurrences_nodup (x : List Byte) : (firstOccurrences x).Nodup := by
  induction x with
  | nil => simp [firstOccurrences]
  | cons a as ih => simp only [firstOccurrences, List.nodup_cons]; exact ⟨by simp, ih.filter _⟩

/-- The symbols of the leaves under a list of nodes. -/
def symbolsUnder (ns : List Node) : List Byte := ns.flatMap fun n => n.tree.symbols

theorem insertNode_perm (n : Node) (ns : List Node) : (insertNode n ns).Perm (n :: ns) := by
  induction ns with
  | nil => simp [insertNode]
  | cons m ms ih =>
    simp only [insertNode]
    split
    · rfl
    · exact (ih.cons m).trans (List.Perm.swap n m ms)

theorem foldr_insertNode_perm (ns : List Node) : (ns.foldr insertNode []).Perm ns := by
  induction ns with
  | nil => rfl
  | cons n ns ih => exact (insertNode_perm n _).trans (ih.cons n)

/-- Merging ends in one tree over the same leaves, given a merge for each node but one (rule R167). -/
theorem mergeNodes_spec (fuel next : Nat) (ns : List Node) (hf : ns.length ≤ fuel + 1) :
    (mergeNodes fuel next ns = none ↔ ns = []) ∧
      ∀ t, mergeNodes fuel next ns = some t → t.symbols.Perm (symbolsUnder ns) := by
  induction fuel generalizing next ns with
  | zero =>
    match ns with
    | [] => simp [mergeNodes]
    | [n] => simp only [mergeNodes]; refine ⟨by simp, fun t h => ?_⟩; cases h; simp [symbolsUnder]
    | _ :: _ :: _ => simp at hf
  | succ fuel ih =>
    match ns with
    | [] => simp [mergeNodes]
    | [n] => simp only [mergeNodes]; refine ⟨by simp, fun t h => ?_⟩; cases h; simp [symbolsUnder]
    | a :: b :: rest =>
      simp only [mergeNodes]
      have hp := insertNode_perm { weight := a.weight + b.weight, seq := next, tree := .node a.tree b.tree } rest
      obtain ⟨h1, h2⟩ := ih (next + 1) _ (by rw [hp.length_eq]; simp at hf ⊢; omega)
      refine ⟨?_, fun t ht => (h2 t ht).trans ((hp.flatMap_right fun n : Node => n.tree.symbols).trans ?_)⟩
      · rw [h1]
        exact ⟨fun h => by rw [h] at hp; have := hp.length_eq; simp at this, fun h => by cases h⟩
      · simp [symbolsUnder, CodeTree.symbols]

theorem symbolsUnder_leafNodes (x : List Byte) : symbolsUnder (leafNodes x) = firstOccurrences x := by
  rw [symbolsUnder, leafNodes, List.flatMap_map]
  simp only [CodeTree.symbols]
  rw [← List.map_eq_flatMap]; simp

end Sys2Proof.Machine
end

