-- ==== Sys2Proof/Tests/Slice0.lean ====
section
/-! SUPPORT. The model's own tests. Expected values come from the spec: its encodings (rules R92, R101, R103), its worked
examples (rules R111 to R139) and its vectors (95_test_vectors.md, named V-*). Then one witness per statement that has
hypotheses: concrete data that meets them. -/

namespace Sys2Proof.Tests

open Sys2Proof Sys2Proof.Machine

/-- The state an outcome carries. -/
def after (o : Host.Outcome State Fault Refusal) : State :=
  match o with
  | .next t => t
  | .fault _ => State.reset
  | .refused _ => State.reset

/-- The reset state in a `MODE`. -/
def inMode (m : Mode) : State := { State.reset with mode := m }

/-- An entry from its length and its number. -/
def entry (len code : Nat) : Entry := { len := BitVec.ofNat 8 len, code := BitVec.ofNat 255 code }

/-- The empty table of rule R39. -/
def noCodes : Vector Entry 256 := Vector.replicate 256 Entry.empty

/-- The table of the spec's vectors: `a` = "0", `b` = "110", `c` = "100", `d` = "101", `r` = "111". -/
def abra : Vector Entry 256 :=
  setEntry (setEntry (setEntry (setEntry (setEntry noCodes 0x61#8 (entry 1 0)) 0x62#8 (entry 3 6)) 0x63#8 (entry 3 4))
    0x64#8 (entry 3 5)) 0x72#8 (entry 3 7)

/-- The reset state with that table, in a `MODE`. -/
def abraIn (m : Mode) : State := { State.reset with ct := abra, mode := m }

/-! ## Ill-formed terms (rule R64, V-R5) -/

theorem test_wellFormed_refuses_byte_access : (HostOp.read 1 0x04).wellFormed = false := by decide
theorem test_wellFormed_refuses_misaligned : (HostOp.write 4 0x02 0#32).wellFormed = false := by decide
theorem test_wellFormed_refuses_gap : (HostOp.read 4 0x18).wellFormed = false ∧ (HostOp.read 4 0x1C).wellFormed = false ∧
    (HostOp.read 4 0x40).wellFormed = false := by decide
theorem test_wellFormed_accepts_map : (HostOp.read 4 0x14).wellFormed = true ∧ (HostOp.read 4 0x20).wellFormed = true ∧
    (HostOp.write 4 0x3C 0#32).wellFormed = true ∧ HostOp.reset.wellFormed = true := by decide

/-! ## Decoding, words written out from rules R92 and R103 -/

theorem test_decode_nop : decodeWord 0b00000000000000000000000000000000#32 = some .nop := by decide
theorem test_decode_rst : decodeWord 0b00000000000000000000000000000001#32 = some .rst := by decide
theorem test_decode_ctClr : decodeWord 0b00000000000000000000000000010000#32 = some .ctClr := by decide
/-- `CT.SET 0x72, 3`: `B` = 00000011, `A` = 01110010, `OPC` = 00010001. -/
theorem test_decode_ctSet : decodeWord 0b00000000000000110111001000010001#32 = some (.ctSet 0x72#8 3#8) := by decide
theorem test_decode_encStart : decodeWord 0b00000000000000000000000000100000#32 = some .encStart := by decide
/-- `ENC.SYM 'a'`: `A` = 01100001, `OPC` = 00100001. -/
theorem test_decode_encSym : decodeWord 0b00000000000000000110000100100001#32 = some (.encSym 0x61#8) := by decide
theorem test_decode_encFin : decodeWord 0b00000000000000000000000000100010#32 = some .encFin := by decide
theorem test_decode_decStart : decodeWord 0b00000000000000000000000000110000#32 = some .decStart := by decide
/-- `DEC.BYTE 0x6E`: `A` = 01101110, `OPC` = 00110001. -/
theorem test_decode_decByte : decodeWord 0b00000000000000000110111000110001#32 = some (.decByte 0x6E#8) := by decide
theorem test_decode_decFin : decodeWord 0b00000000000000000000000000110010#32 = some .decFin := by decide
/-- V-X2 to V-X5 and V-X8: illegal words. -/
theorem test_decode_illegal : decodeWord 0x01000000#32 = none ∧ decodeWord 0x00000120#32 = none ∧
    decodeWord 0x00010021#32 = none ∧ decodeWord 0x00000002#32 = none ∧ decodeWord 0x00000101#32 = none := by decide
/-- The rows of the opcode map do not overlap (rule R92): each row's match meets no other row's mask. -/
theorem test_rows_disjoint : opcodeMap.Pairwise fun p q => p.1 &&& (p.2 &&& q.2) ≠ q.1 &&& (p.2 &&& q.2) := by decide
theorem test_table_word : decodeTableWord 32 0x00037211 = some (.ctSet 0x72#8 3#8) ∧ decodeTableWord 8 0x22 = some .encFin := by
  decide

/-! ## Commands, one step each -/

/-- V-S1: `NOP` inside a session. -/
theorem test_nop : statusView (after (exec .nop { abraIn .enc with nb := 3#3, bb := 0xC0#8 })).toBlock = 0x61#32 := by
  decide
/-- V-S2: `RST` drops pending bits, zeroes `CODE` and keeps the table. -/
theorem test_rst : let t := after (exec .rst { abraIn .enc with nb := 3#3, bb := 0xC0#8, code := 7#256 })
    statusView t.toBlock = 0#32 ∧ t.code = 0#256 ∧ t.out = [] ∧ entryAt t.ct 0x72#8 = entry 3 7 := by decide
/-- V-T7: `CT.CLR` in a session. -/
theorem test_ctClr_seq : let t := after (exec .ctClr (abraIn .enc))
    t.err = 2#4 ∧ t.errInfo = 0x10#32 ∧ statusView t.toBlock = 3#32 ∧ entryAt t.ct 0x72#8 = entry 3 7 := by decide
/-- Rule R111's example. -/
theorem test_ctClr : entryAt (after (exec .ctClr (abraIn .idle))).ct 0x61#8 = entry 0 0 := by decide
/-- V-T1: `CT.SET 'B', 4` of the staged value 13. -/
theorem test_ctSet : entryAt (after (exec (.ctSet 0x42#8 4#8) { inMode .idle with code := 0xD#256 })).ct 0x42#8 = entry 4 13 := by
  decide
/-- V-T2, and V-T9: with `LMAX` = 15 the length is checked before the value. -/
theorem test_ctSet_refuses : let t := after (exec (.ctSet 0x42#8 3#8) { inMode .idle with code := 0xD#256 })
    t.err = 4#4 ∧ t.errInfo = 0x00034211#32 ∧ entryAt t.ct 0x42#8 = entry 0 0 ∧
    (ctSetEffect 15 5#8 16#8 { inMode .idle with code := 0x10000#256 }).err = 3#4 := by decide
/-- V-E10: `ENC.START` leaves the decoder's registers. -/
theorem test_encStart :
    statusView (after (exec .encStart { abraIn .idle with done := true, hdr := true, dpad := 1#3 })).toBlock = 0x00010009#32 := by
  decide
/-- Rule R122's example: `'b'` after `'a'`, then `'a'` after `'r'` fills a byte exactly. -/
theorem test_encSym : let t := after (exec (.encSym 0x62#8) { abraIn .enc with nb := 1#3 })
    t.nb = 4#3 ∧ t.bb = 0x60#8 ∧ t.out = [] := by decide
theorem test_encSym_emits : let t := after (exec (.encSym 0x61#8) { abraIn .enc with nb := 7#3, bb := 0x6E#8 })
    t.nb = 0#3 ∧ t.bb = 0#8 ∧ t.out = [0x6E#8] := by decide
/-- Rule R123's example. -/
theorem test_encFin : let t := after (exec .encFin { abraIn .enc with nb := 3#3, bb := 0xC0#8 })
    t.out = [0xC0#8] ∧ t.pad = 5#3 ∧ statusView t.toBlock = 4#32 := by decide
/-- V-E5: an empty session. -/
theorem test_encFin_empty : let t := after (exec .encFin (abraIn .enc))
    t.out = [] ∧ t.pad = 0#3 ∧ statusView t.toBlock = 4#32 := by decide
/-- Rule R137's example. -/
theorem test_decStart : statusView (after (exec .decStart State.reset)).toBlock = 2#32 := by decide
/-- V-D1: the fourth row. -/
theorem test_decByte : let t := after (exec (.decByte 0x8A#8)
      { abraIn .dec with hdr := true, dpad := 1#3, holdV := true, hold := 0x6E#8 })
    t.out = [0x61#8, 0x62#8, 0x72#8, 0x61#8] ∧ statusView t.toBlock = 0x8A01001A#32 := by decide +kernel
/-- V-D2: a header above 7. -/
theorem test_decByte_padHdr : let t := after (exec (.decByte 8#8) (abraIn .dec))
    t.err = 8#4 ∧ t.errInfo = 0x00000831#32 ∧ statusView t.toBlock = 3#32 := by decide
/-- V-D1: the last row. -/
theorem test_decFin : let t := after (exec .decFin
      { abraIn .dec with hdr := true, dpad := 1#3, holdV := true, hold := 0xDC#8 })
    t.out = [0x62#8, 0x72#8, 0x61#8] ∧ statusView t.toBlock = 0x0001000C#32 := by decide +kernel
/-- V-D7: leftover bits. -/
theorem test_decFin_unmatched : let t := after (exec .decFin
      { abraIn .dec with hdr := true, holdV := true, hold := 1#8 })
    t.out = List.replicate 7 0x61#8 ∧ t.err = 10#4 ∧ statusView t.toBlock = 0x0100011B#32 := by decide +kernel

/-! ## Registers, the port and the step -/

/-- V-R2: `CODE3` is bits 127 to 96 of `CODE`. -/
theorem test_code_words : let t := after (hostOp (.write 4 0x2C 0xDEADBEEF#32) State.reset)
    t.code = 0xDEADBEEF#256 <<< 96 ∧ (after (hostOp (.read 4 0x2C) t)).reads = [0xDEADBEEF#32] ∧
    (after (hostOp (.read 4 0x28) t)).reads = [0#32] := by decide
/-- V-R1: `CAP`. -/
theorem test_cap : (after (hostOp (.read 4 0x14) State.reset)).reads = [0xFF#32] := by decide
/-- A word placed where the step takes it from runs as the next command, with the sink taking its byte. -/
theorem test_step_runs_word : let t := after (step (State.withFetchWord { abraIn .enc with nb := 3#3, bb := 0xC0#8 } 32 0x22))
    t.out = [0xC0#8] ∧ t.leaving = [] ∧ t.mode = .idle ∧ t.pending = [] := by decide
/-- While the sink refuses the byte the next operation waits (rule R82). -/
theorem test_step_held :
    let t := after (step { abraIn .enc with leaving := [0x6E#8], sink := [false], pending := [command .encFin] })
    t.mode = .enc ∧ t.out = [] ∧ t.leaving = [0x6E#8] := by decide
/-- A reset while a byte waits: the byte handed over before stays in `OUT`, the waiting one never gets there (rules R37,
R230). -/
theorem test_step_reset_held :
    let t := after (step { abraIn .enc with out := [0x6E#8], leaving := [0x8B#8], pending := [.reset] })
    t.out = [0x6E#8] ∧ t.leaving = [] ∧ t.mode = .idle := by decide
/-- `FIN` has not ended the run while its byte waits (rule R248). -/
theorem test_endedWell :
    let s := { abraIn .enc with nb := 7#3, bb := 0x6E#8, sink := [false], pending := [command .encFin] }
    ¬ (after (step s)).endedWell ∧ (after (step (after (step s)))).endedWell := by unfold State.endedWell; decide

/-! ## Witnesses: data that meets the hypotheses of each statement -/

/-- Two codewords, "0" and "1". -/
def pair : Vector Entry 256 := setEntry (setEntry noCodes 1#8 (entry 1 0)) 2#8 (entry 1 1)

theorem entry_wf (len code : Nat) (hl : len < 256) (hc : code < 2 ^ len) : (entry len code).wf Config.LMAX := by
  have h1 : (BitVec.ofNat 8 len).toNat = len := by simp; omega
  have h2 : code < 2 ^ 255 := lt_of_lt_of_le hc (Nat.pow_le_pow_right (by omega) (by omega))
  refine ⟨len_le_LMAX _, ?_⟩
  show (BitVec.ofNat 255 code).toNat < 2 ^ (BitVec.ofNat 8 len).toNat
  rw [h1, BitVec.toNat_ofNat, Nat.mod_eq_of_lt h2]; exact hc

theorem pair_wf : tableWf Config.LMAX pair :=
  tableWf_setEntry (tableWf_setEntry (tableWf_empty _) _ (entry_wf 1 0 (by decide) (by decide))) _
    (entry_wf 1 1 (by decide) (by decide))

theorem pair_entry (sym : Byte) : sym = 1#8 ∨ sym = 2#8 ∨ (entryAt pair sym).len = 0#8 := by
  by_cases h2 : sym = 2#8
  · exact .inr (.inl h2)
  · by_cases h1 : sym = 1#8
    · exact .inl h1
    · right; right
      rw [pair, entryAt_setEntry_ne _ _ h2, entryAt_setEntry_ne _ _ h1]
      simp [noCodes, Entry.empty]

theorem pair_prefixFree : prefixFree pair := by
  have h : ¬ (entryAt pair 1#8).bits <+: (entryAt pair 2#8).bits ∧ ¬ (entryAt pair 2#8).bits <+: (entryAt pair 1#8).bits := by
    decide
  intro a b hab ha hb
  rcases pair_entry a with rfl | rfl | h1 <;> rcases pair_entry b with rfl | rfl | h2
  · exact absurd rfl hab
  · exact h.1
  · exact absurd h2 hb
  · exact h.2
  · exact absurd rfl hab
  · exact absurd h2 hb
  all_goals exact absurd h1 ha

/-- The commands alone are a session without quiet operations. -/
theorem interleaved_commands (cmds : List Instr) : Interleaved cmds (cmds.map command) := by
  induction cmds with
  | nil => exact .done
  | cons i is ih => exact .cmd ih

theorem witness_DecodeIsInverseOfEncode : (Instr.ctSet 255#8 255#8).wellFormed = true ∧
    decodeWord 0x00FFFF11#32 = some (.ctSet 255#8 255#8) := by decide

/-- One word for each way of being illegal, and both kinds of `MODE`. -/
theorem witness_IllegalWordsRaiseIllCmd : legalWord 0x00000002#32 = false ∧ legalWord 0x01000000#32 = false ∧
    legalWord 0x00000120#32 = false ∧ legalWord 0x00010021#32 = false ∧ (inMode .idle).mode ≠ .fault ∧
    (inMode .fault).mode = .fault := by decide

/-- A legal word, and an illegal one outside `FAULT` and in it. -/
theorem witness_StepRunsTheDecodedCommand :
    ({ inMode .enc with pending := [.write 4 0 0x22#32] }).pending = [.write 4 0 0x22#32] ∧
    ({ inMode .enc with pending := [.write 4 0 0x22#32] }).leaving = [] ∧ decodeWord 0x22#32 = some .encFin ∧
    decodeWord 2#32 = none ∧ ({ inMode .fault with pending := [.write 4 0 2#32] }).leaving = [] ∧
    (inMode .enc).mode ≠ .fault := by decide

/-- A ready sink, and a step and a command that answer next states. -/
theorem witness_StepRunsTheDecodedCommand_handOver : let s := { inMode .enc with pending := [.write 4 0 0x22#32] }
    s.sink = [] ∧ step s = .next (encFinEffect (inMode .enc)) ∧
    exec .encFin { s with pending := [] } = .next (encFinEffect (inMode .enc)) := ⟨rfl, rfl, rfl⟩

/-- Reset while a byte waits for the sink, and with none waiting. -/
theorem witness_ResetKeepsTheBytesHandedOver :
    ({ abraIn .enc with pending := [.reset], out := [1#8], leaving := [2#8] }).pending = [HostOp.reset] ∧
    ({ abraIn .enc with pending := [.reset], out := [1#8] }).leaving = [] := by decide

theorem witness_ResetZeroesEveryElement : ({ abraIn .fault with pending := [.reset] }).pending = [HostOp.reset] ∧
    exec .rst (abraIn .fault) = .next (softReset (abraIn .fault)) := ⟨by decide, rfl⟩

theorem witness_ReadsReturnTheRegisterViews :
    hostOp (.read 4 0x3C) (inMode .dec) = .next (readReg (.codeWord 7) (inMode .dec)) := rfl

/-- The offsets and widths on both sides of each bound (rule R64). -/
theorem witness_ReservedAccessesAreRefused :
    (∀ p ∈ [(3, 0), (5, 0), (4, 1), (4, 2), (4, 3), (4, 0x18), (4, 0x1C), (4, 0x40), (4, 0x44)],
      p.1 ≠ 4 ∨ p.2 % 4 ≠ 0 ∨ p.2 = 0x18 ∨ p.2 = 0x1C ∨ 0x40 ≤ p.2) ∧
    (∀ p ∈ [(4, 0), (4, 0x14), (4, 0x20), (4, 0x3C)],
      ¬ (p.1 ≠ 4 ∨ p.2 % 4 ≠ 0 ∨ p.2 = 0x18 ∨ p.2 = 0x1C ∨ 0x40 ≤ p.2)) := by decide

theorem witness_FaultRecordIsKept : (inMode .fault).mode = .fault ∧ (0x00000101#32 : Word) ≠ 0x00000001#32 ∧
    regAt 0x08 = some .err ∧
    step { inMode .fault with pending := [command .ctClr] } = .next (offer (inMode .fault)) ∧
    (∀ rest, [command .ctClr] ≠ HostOp.reset :: rest) ∧
    (∀ rest, [command .ctClr] ≠ HostOp.write 4 0 0x00000001#32 :: rest) :=
  ⟨by decide, by decide, by decide, rfl,
    fun rest h => absurd (List.cons.inj h).1 (by decide), fun rest h => absurd (List.cons.inj h).1 (by decide)⟩

theorem witness_ModeMovesByTheTransitionTable : decodeWord 2#32 = none ∧
    hostOp (.read 4 0x04) (inMode .enc) = .next (readReg .status (inMode .enc)) ∧
    hostOp (.write 4 0x04 1#32) (inMode .enc) = .next (inMode .enc) := ⟨by decide, rfl, rfl⟩

/-- A fault of another command's `MODE`, and one of a command's own rule. -/
theorem witness_CommandsRaiseOnlyTheirCauses :
    exec .encFin (inMode .idle) = .next (raiseFault .seq (encode .encFin) (inMode .idle)) ∧
    exec (.encSym 1#8) (inMode .enc) = .next (raiseFault .noCode (encode (.encSym 1#8)) (inMode .enc)) ∧
    (raiseFault .seq (encode .encFin) (inMode .idle)).mode = .fault ∧ (inMode .enc).mode ≠ .fault ∧
    (inMode .idle).mode ≠ .fault ∧ permittedIn .encFin (inMode .idle).mode = false :=
  ⟨rfl, rfl, rfl, by decide, by decide, by decide⟩

theorem witness_FaultEntryWritesOnlyTheRecord :
    exec .encFin (inMode .idle) = .next (raiseFault .seq (encode .encFin) (inMode .idle)) ∧
    (inMode .idle).mode ≠ .fault ∧ Cause.seq.bits ≠ Cause.unmatched.bits ∧ Cause.seq.bits ≠ Cause.accOvf.bits :=
  ⟨rfl, by decide, by decide, by decide⟩

theorem witness_SoftResetKeepsOnlyTheTable : (0x00000101#32 : Word).extractLsb' 0 8 = 0x01#8 ∧
    (0x00000101#32 : Word) ≠ 0x00000001#32 ∧ (inMode .dec).mode ≠ .fault ∧ (inMode .fault).mode = .fault := by decide

theorem witness_NopChangesNothing : (0x01000000#32 : Word).extractLsb' 0 8 = 0x00#8 ∧
    (0x01000000#32 : Word) ≠ 0x00000000#32 ∧ (inMode .dec).mode ≠ .fault := by decide

/-- The hypotheses of `checkedFirst`, for every command it is stated of: `FAULT`, a `MODE` that does not permit the command,
and an illegal word with its operation code. -/
theorem witness_checkedFirst : (inMode .fault).mode = .fault ∧
    (∀ p ∈ [(Instr.ctClr, Mode.idle), (.ctSet 1#8 255#8, .idle), (.encStart, .idle), (.encSym 1#8, .enc),
        (.encFin, .enc), (.decStart, .idle), (.decByte 255#8, .dec), (.decFin, .dec)],
      (∃ m ∈ [Mode.idle, .enc, .dec], m ≠ .fault ∧ m ≠ p.2) ∧
      (encode p.1 ||| 0x01000000#32).extractLsb' 0 8 = (encode p.1).extractLsb' 0 8 ∧
      legalWord (encode p.1 ||| 0x01000000#32) = false) := by decide

theorem witness_CtClrEmptiesTheTable : (abraIn .idle).mode = .idle := by decide

/-- The bounds of `CODE < 2^len`: no bit for length 0, and 255 ones for length 255. -/
theorem witness_CtSetWritesOneEntry : (inMode .idle).mode = .idle ∧ (inMode .idle).code.toNat < 2 ^ (0#8).toNat ∧
    (BitVec.ofNat 256 (2 ^ 255 - 1)).toNat < 2 ^ (255#8).toNat := by decide

/-- Each clause at its bound, with `LMAX` = 15 and 255. -/
theorem witness_CtSetChecksLengthThenCode : Config.legalLmax 1 ∧ Config.legalLmax 255 ∧ (16#8).toNat > 15 ∧
    (15#8).toNat ≤ 15 ∧ (BitVec.ofNat 256 (2 ^ 15)).toNat ≥ 2 ^ (15#8).toNat ∧
    (BitVec.ofNat 256 (2 ^ 15 - 1)).toNat < 2 ^ (15#8).toNat ∧ (1#256).toNat ≥ 2 ^ (0#8).toNat ∧
    (BitVec.ofNat 256 (2 ^ 255)).getLsbD 255 = true := by decide

/-- A command that changes the table, and one refused in a session. -/
theorem witness_OnlyTableCommandsWriteTheTable :
    exec .ctClr (abraIn .idle) = .next (ctClrEffect (abraIn .idle)) ∧ (ctClrEffect (abraIn .idle)).ct ≠ abra ∧
    exec .ctClr (abraIn .enc) = .next (raiseFault .seq (encode .ctClr) (abraIn .enc)) ∧ (abraIn .enc).mode = .enc :=
  ⟨rfl, fun h => absurd (congrArg (fun ct => (entryAt ct 0x61#8).len) h) (by decide), rfl, rfl⟩

/-- The shortest and the longest codeword. -/
theorem witness_CtLoadStoresTheCodeword : (inMode .idle).mode = .idle ∧ ([] : List Bool).length ≤ 255 ∧
    (List.replicate 255 true).length ≤ 255 := by decide +kernel

theorem witness_EncStartOpensASession : (abraIn .idle).mode = .idle := by decide

theorem witness_EncSymFollowsTheBarrelShifter : (abraIn .enc).mode = .enc ∧ (entryAt abra 0x72#8).len ≠ 0#8 ∧
    (entryAt abra 0x7A#8).len = 0#8 := by decide

/-- The seven pending bits of V-E3 and a codeword of three bits. -/
theorem witness_BarrelShifterLosesNoBit : (abraIn .enc).mode = .enc ∧ pendingWf 7#3 0xAA#8 ∧
    (entryAt abra 0x72#8).wf Config.LMAX ∧ (entryAt abra 0x72#8).len ≠ 0#8 := by
  refine ⟨by decide, by unfold pendingWf; decide, ?_, by decide⟩
  unfold Entry.wf; decide

theorem witness_EncFinPadsAndCloses : (abraIn .enc).mode = .enc ∧ ({ abraIn .enc with nb := 7#3 }).nb ≠ 0#3 ∧
    (abraIn .enc).nb = 0#3 := by decide

/-- A session with a register read and a `NOP` inside, and an unfinished one. -/
theorem witness_EncoderSessionPacksTheCodewords : (inMode .idle).mode = .idle ∧ tableWf Config.LMAX pair ∧
    (∀ sym ∈ [1#8, 2#8], hasCode pair sym) ∧
    Interleaved (encSession [1#8, 2#8])
      [command .encStart, .read 4 0x04, command (.encSym 1#8), command .nop, command (.encSym 2#8), command .encFin] ∧
    Interleaved (.encStart :: [1#8].map .encSym) [command .encStart, command (.encSym 1#8)] := by
  refine ⟨by decide, pair_wf, ?_, ?_, interleaved_commands _⟩
  · unfold hasCode; decide
  · exact .cmd (.quiet (by decide) (.cmd (.quiet (by decide) (.cmd (.cmd .done)))))

theorem witness_EncoderCommandsFrame : exec (.encSym 0x7A#8) (abraIn .enc) =
    .next (raiseFault .noCode (encode (.encSym 0x7A#8)) (abraIn .enc)) := rfl

theorem witness_CommandsEmitAtMostTheirBound : exec .encFin (abraIn .enc) = .next (encFinEffect (abraIn .enc)) := rfl

theorem witness_LookupFindsTheLeastMatch : (1#8 : BitVec 8) ≠ 0#8 ∧ (255#8 : BitVec 8) ≠ 0#8 := by decide

/-- The accumulator full and with room for one bit, for the least and the greatest `LMAX`. -/
theorem witness_ShiftBitAccumulatesAndMatches : Config.legalLmax 1 ∧ Config.legalLmax 255 ∧
    (0#255).toNat < 2 ^ (0#8).toNat ∧ (255#8).toNat = 255 ∧ (BitVec.ofNat 255 (2 ^ 255 - 1)).toNat < 2 ^ (255#8).toNat ∧
    (254#8).toNat ≠ 255 ∧ (BitVec.ofNat 255 (2 ^ 254 - 1)).toNat < 2 ^ (254#8).toNat := by decide

theorem witness_DecStartOpensASession : (abraIn .idle).mode = .idle := by decide

/-- The header at 7 and at 8, a first payload byte, a held byte that shifts whole, and one that finds the accumulator
full. -/
theorem witness_DecByteTakesHeaderThenHolds : (abraIn .dec).mode = .dec ∧ (abraIn .dec).hdr = false ∧
    (7#8).toNat ≤ 7 ∧ (8#8).toNat > 7 ∧ (abraIn .dec).holdV = false ∧
    (shiftBits Config.LMAX (byteBits 0x6E#8) (abraIn .dec)).2 = true ∧
    (shiftBits Config.LMAX (byteBits 0x6E#8) { abraIn .dec with accLen := 255#8 }).2 = false := by decide +kernel

/-- Each ending of `DEC.FIN`: a padding of 0 and of 7, no byte, leftover bits, a full accumulator. -/
theorem witness_DecFinDropsThePaddingAndCloses : (abraIn .dec).mode = .dec ∧ (abraIn .dec).hdr = false ∧
    (abraIn .dec).dpad = 0#3 ∧ (7#3 : BitVec 3) ≠ 0#3 ∧ (abraIn .dec).accLen = 0#8 ∧ (1#8 : BitVec 8) ≠ 0#8 ∧
    (shiftBits Config.LMAX ((byteBits 0#8).take 1) (abraIn .dec)).2 = true ∧
    (shiftBits Config.LMAX ((byteBits 0#8).take 1) (abraIn .dec)).1.accLen = 0#8 ∧
    (shiftBits Config.LMAX ((byteBits 1#8).take 8) (abraIn .dec)).2 = true ∧
    (shiftBits Config.LMAX ((byteBits 1#8).take 8) (abraIn .dec)).1.accLen ≠ 0#8 ∧
    (shiftBits Config.LMAX ((byteBits 1#8).take 8) { abraIn .dec with accLen := 255#8 }).2 = false := by decide +kernel

/-- Each ending of a decode session: V-D2, V-D5, V-D4, leftover bits (V-D7) and an overflow (V-D8). -/
theorem witness_DecoderSessionRunsShiftBit : (abraIn .idle).mode = .idle ∧ (8#8).toNat > 7 ∧
    ((3#8).toNat ≤ 7 ∧ (3#8 : Byte) ≠ 0#8) ∧
    Interleaved (decSession 0#8 [1#8]) ((decSession 0#8 [1#8]).map command) ∧
    (shiftBits Config.LMAX [] (abraIn .idle)).1.accLen = 0#8 ∧
    (shiftBits Config.LMAX ((streamBits [1#8]).take (8 * 1 - 0)) (abraIn .idle)).2 = true ∧
    (shiftBits Config.LMAX ((streamBits [1#8]).take (8 * 1 - 0)) (abraIn .idle)).1.accLen ≠ 0#8 ∧
    Interleaved (.decStart :: .decByte 7#8 :: [1#8].map .decByte) ([.decStart, .decByte 7#8, .decByte 1#8].map command) :=
  ⟨by decide +kernel, by decide +kernel, by decide +kernel, interleaved_commands _, by decide +kernel, by decide +kernel, by decide +kernel, interleaved_commands _⟩

theorem witness_DecoderSession_overflow :
    (shiftBits Config.LMAX ((streamBits (List.replicate 32 0xA5#8)).take (8 * 32 - 0)) (inMode .idle)).2 = false := by
  decide +kernel

theorem witness_DecoderInvertsEncoder :
    let s : State := { inMode .idle with ct := pair }
    let t := after (performAll ((encSession [2#8, 1#8]).map command) s)
    s.mode = .idle ∧ tableWf Config.LMAX s.ct ∧ prefixFree s.ct ∧ (∀ sym ∈ [2#8, 1#8], hasCode s.ct sym) ∧
    Interleaved (encSession [2#8, 1#8]) ((encSession [2#8, 1#8]).map command) ∧
    performAll ((encSession [2#8, 1#8]).map command) s = .next t ∧
    Interleaved (decSession (t.pad.setWidth 8) (emittedSince s t))
      ((decSession (t.pad.setWidth 8) (emittedSince s t)).map command) :=
  ⟨by decide, pair_wf, pair_prefixFree, by unfold hasCode; decide, interleaved_commands _, rfl, interleaved_commands _⟩

/-- Three padding bits that differ. -/
theorem witness_PaddingBitsAreDroppedUnseen :
    let s : State := { abraIn .dec with hdr := true, holdV := true, dpad := 3#3, hold := 0xD8#8 }
    s.mode = .dec ∧ s.hdr = true ∧ s.holdV = true ∧
    ∀ j, s.dpad.toNat ≤ j → j < 8 → (0xDF#8).getLsbD j = s.hold.getLsbD j := by
  refine ⟨by decide, by decide, by decide, ?_⟩
  intro j h1 h2
  have : 3 ≤ j := h1
  interval_cases j <;> rfl

/-- A proper prefix ("0" of "01"), and an equal codeword of a lower symbol. -/
theorem witness_ShadowedSymbolsAreNeverDecoded :
    let ct := setEntry (setEntry (setEntry noCodes 1#8 (entry 1 0)) 2#8 (entry 2 1)) 3#8 (entry 1 0)
    tableWf Config.LMAX ct ∧ hasCode ct 1#8 ∧ (entryAt ct 1#8).bits <+: (entryAt ct 2#8).bits ∧
    (entryAt ct 1#8).len ≠ (entryAt ct 2#8).len ∧ (entryAt ct 1#8).bits <+: (entryAt ct 3#8).bits ∧
    (1#8).toNat < (3#8).toNat ∧ (inMode .dec).acc = 0#255 ∧ (inMode .dec).accLen = 0#8 := by
  refine ⟨?_, by unfold hasCode; decide, by decide, by decide, by decide, by decide, by decide, by decide⟩
  exact tableWf_setEntry (tableWf_setEntry (tableWf_setEntry (tableWf_empty _) _ (entry_wf 1 0 (by decide) (by decide)))
    _ (entry_wf 2 1 (by decide) (by decide))) _ (entry_wf 1 0 (by decide) (by decide))

theorem witness_DecoderCommandsFrame : exec .decStart (abraIn .idle) = .next (decStartEffect (abraIn .idle)) := rfl

theorem witness_EveryStepKeepsTheInvariant : State.Inv { State.reset with pending := [command .encStart] } ∧
    step { State.reset with pending := [command .encStart] } = .next (offer (encStartEffect State.reset)) :=
  ⟨⟨resetWith_inv _ (tableWf_empty _), by decide⟩, rfl⟩

theorem witness_OutputOnlyGrows :
    step { State.reset with pending := [.reset] } = .next (hardReset State.reset) ∧
    step { State.reset with leaving := [1#8], sink := [false] } = .next { State.reset with leaving := [1#8] } ∧
    hostOp (command .encFin) { abraIn .enc with nb := 7#3, bb := 0x6E#8 } =
      .next (encFinEffect { abraIn .enc with nb := 7#3, bb := 0x6E#8 }) := ⟨rfl, rfl, rfl⟩

theorem witness_SinkScheduleChangesNoValue :
    let s : State := { abraIn .enc with nb := 7#3, bb := 0x6E#8, sink := [false, false, true], pending := [command .encFin] }
    (∀ op ∈ s.pending, op ≠ .reset) ∧ s.leaving = [] ∧
    performAll s.pending { s with pending := [] } = .next (after (performAll s.pending { s with pending := [] })) :=
  ⟨by decide, by decide, rfl⟩

theorem witness_HeldBlockOnlyOffersItsBytes :
    ({ State.reset with out := [1#8], leaving := [2#8], sink := [false] }).leaving ≠ [] ∧
    (∀ rest, State.reset.pending ≠ .reset :: rest) := ⟨by decide, fun rest h => absurd h (by simp [State.reset])⟩

/-- A held block with a command to come. -/
theorem witness_EveryHoldEnds :
    let s := { State.reset with leaving := [2#8], sink := [false], pending := [command .nop] }
    s.leaving ≠ [] ∧ ∀ rest, s.pending ≠ .reset :: rest := ⟨by decide, fun rest => by simp [command]⟩

theorem witness_IdleBlockKeepsItsState : State.reset.pending = [] ∧ State.reset.leaving = [] := by decide

theorem witness_LoadedTableHoldsExactlyTheCodes : (inMode .idle).mode = .idle ∧
    (([(1#8, [false]), (2#8, List.replicate 255 true)] : List (Byte × List Bool)).map Prod.fst).Nodup ∧
    ∀ p ∈ ([(1#8, [false]), (2#8, List.replicate 255 true)] : List (Byte × List Bool)),
      1 ≤ p.2.length ∧ p.2.length ≤ 255 := by decide +kernel

theorem witness_TreeLeavesAreTheInputSymbols : buildTree [0x62#8, 0x61#8] = some (.node (.leaf 0x62#8) (.leaf 0x61#8)) := by
  decide

theorem pair_holdsCodes : holdsCodes pair (CodeTree.node (.leaf 1#8) (.leaf 2#8)).codes := by
  refine ⟨?_, fun sym h => ?_⟩
  · unfold hasCode; decide
  · rcases pair_entry sym with rfl | rfl | h0
    · exact ⟨(1#8, [false]), by decide, rfl⟩
    · exact ⟨(2#8, [true]), by decide, rfl⟩
    · exact absurd h0 h

/-- A tree of two leaves, and a lone leaf. -/
theorem witness_TableDecodingIsTreeWalking :
    ((CodeTree.node (.leaf 1#8) (.leaf 2#8)).symbols.Nodup ∧ tableWf Config.LMAX pair ∧
      holdsCodes pair (CodeTree.node (.leaf 1#8) (.leaf 2#8)).codes) ∧
    tableWf Config.LMAX (setEntry noCodes 1#8 (entry 1 0)) ∧
    holdsCodes (setEntry noCodes 1#8 (entry 1 0)) (CodeTree.leaf 1#8).codes ∧ (inMode .dec).acc = 0#255 ∧
    (inMode .dec).accLen = 0#8 := by
  refine ⟨⟨by decide, pair_wf, pair_holdsCodes⟩,
    tableWf_setEntry (tableWf_empty _) _ (entry_wf 1 0 (by decide) (by decide)), ⟨?_, fun sym h => ?_⟩, by decide, by decide⟩
  · unfold hasCode; decide
  · by_cases hs : sym = 1#8
    · exact ⟨(1#8, [false]), by decide, hs.symm⟩
    · rw [hasCode, entryAt_setEntry_ne _ _ hs] at h
      exact absurd (by simp [noCodes, Entry.empty]) h

theorem witness_DecompressInvertsCompress : (abraIn .idle).mode = .idle ∧ (inMode .idle).mode = .idle := by decide

theorem witness_EmptyAndUnreadableContainers : (2#8 : Byte) ≠ 0x00#8 ∧ (2#8 : Byte) ≠ 0x01#8 := by decide

/-- A `FIN` whose byte the sink refuses once, and one that emits nothing. -/
theorem witness_RunEndsWellWhenFinCompletes :
    let s := { abraIn .enc with nb := 7#3, bb := 0x6E#8, sink := [false], pending := [command .encFin] }
    (permittedIn .encFin s.mode = true ∧ s.err = 0#4 ∧ s.leaving = [] ∧
      exec .encFin { s with pending := [] } = .next (encFinEffect { s with pending := [] }) ∧
      (encFinEffect { s with pending := [] }).mode ≠ .fault) ∧
    (let d := { abraIn .dec with hdr := true, pending := [command .decFin] }
     permittedIn .decFin d.mode = true ∧ d.err = 0#4 ∧ d.leaving = [] ∧
      exec .decFin { d with pending := [] } = .next (decFinEffect Config.LMAX { d with pending := [] }) ∧
      (decFinEffect Config.LMAX { d with pending := [] }).mode ≠ .fault) ∧
    ∀ later, ([] : List HostOp) ≠ .reset :: later :=
  ⟨⟨by decide, by decide, by decide, rfl, by decide⟩, ⟨by decide, by decide, by decide, rfl, by decide⟩, by simp⟩

/-- An operation that emits, one that returns a value and one that is refused, each with a different program behind it. -/
theorem witness_BlockStepTakesTheOperation :
    let b := ({ inMode .enc with nb := 7#3, bb := 0x6E#8 }).toBlock
    blockStep (command .encFin) b =
      .next { block := { b with nb := 0#3, bb := 0#8, pad := 1#3, mode := .idle, done := true }, emitted := [0x6E#8],
              read := none } ∧
    blockStep (.read 4 0x14) b = .next { block := b, emitted := [], read := some 255#32 } ∧
    blockStep (.read 3 0x14) b = .refused (.reservedWidth 3) ∧
    ({ State.reset with toBlock := b, pending := [command .encFin, .reset] }).leaving = [] := ⟨rfl, rfl, rfl, rfl⟩

/-- Rule R169: no tree has no codes, and a lone leaf has "0". -/
theorem test_codesOf : codesOf (buildTree []) = [] ∧ codesOf (buildTree [7#8, 7#8]) = [(7#8, [false])] ∧
    inverseCodesOf (buildTree [7#8, 7#8]) = [([false], 7#8)] := by decide

end Sys2Proof.Tests
end

section
/-! PROOFS. What every element and every register holds after a reset (rules R39, R157, R230), and the fields of
`STATUS` at the port (rule R29). -/

namespace Sys2Proof.Machine

/-! ## Reset -/

/-- When reset is next the step is hardware reset, also while a byte waits for the sink (rules R230, R231). -/
theorem step_of_pending_reset {s : State} {rest : List HostOp} (h : s.pending = .reset :: rest) :
    step s = .next (hardReset { s with pending := rest }) := by
  rw [step, hostStep, h]
  exact takeOp_reset _

@[simp] theorem softReset_toBlock (s : State) : (softReset s).toBlock = { Block.reset with ct := s.ct } := rfl

/-- Every entry of the table is empty after hardware reset (rule R39). -/
@[simp] theorem entryAt_reset (sym : Byte) : entryAt Block.reset.ct sym = Entry.empty :=
  entryAt_replicate Entry.empty sym

/-- Every word of the staging register reads 0 after a reset (rules R27, R39). -/
@[simp] theorem regView_codeWord_reset (lmax : Nat) (k : Fin 8) : regView lmax (.codeWord k) Block.reset = 0#32 :=
  BitVec.extractLsb'_zero

/-- Settles O5: the step is `hardReset`, whose block is the constant `Block.reset`, and `RST` leaves that constant but
for the table. -/
theorem resetZeroesEveryElement : Obligations.ResetZeroesEveryElement := by
  intro s rest hreset
  refine ⟨_, step_of_pending_reset hreset, rfl, fun sym => ?entries, rfl, rfl, rfl, rfl, rfl, rfl, rfl, rfl, rfl, rfl,
    rfl, rfl, rfl, ?status, rfl, rfl, rfl, rfl, fun k => ?staging, fun u v hrst => ?rst⟩
  case entries =>
    rw [hardReset_ct, entryAt_reset]
    exact ⟨rfl, rfl⟩
  case status => rw [hardReset_toBlock]; decide
  case staging => rw [hardReset_toBlock, regView_codeWord_reset]
  case rst =>
    obtain rfl : softReset u = v := Host.Outcome.next.inj ((exec_rst u).symm.trans hrst)
    rw [softReset_toBlock, hardReset_toBlock]

/-! ## `STATUS` -/

/-- A field of a word is the value whose bits stand at the field's place. -/
theorem extractLsb'_eq_of_getLsbD {w n start : Nat} {x : BitVec w} {v : BitVec n}
    (h : ∀ i < n, x.getLsbD (start + i) = v.getLsbD i) : x.extractLsb' start n = v :=
  BitVec.eq_of_getLsbD_eq fun i hi => by rw [BitVec.getLsbD_extractLsb', decide_eq_true hi, Bool.true_and, h i hi]

theorem statusView_mode (b : Block) : (statusView b).extractLsb' 0 2 = b.mode.bits :=
  extractLsb'_eq_of_getLsbD fun i hi => by simp [getLsbD_statusView, hi]

theorem statusView_done (b : Block) : (statusView b).getLsbD 2 = b.done := getLsbD_statusView b 2

theorem statusView_hdr (b : Block) : (statusView b).getLsbD 3 = b.hdr := getLsbD_statusView b 3

theorem statusView_holdV (b : Block) : (statusView b).getLsbD 4 = b.holdV := getLsbD_statusView b 4

theorem statusView_nb (b : Block) : (statusView b).extractLsb' 5 3 = b.nb :=
  extractLsb'_eq_of_getLsbD fun i hi => by rw [getLsbD_statusView]; interval_cases i <;> simp

theorem statusView_accLen (b : Block) : (statusView b).extractLsb' 8 8 = b.accLen :=
  extractLsb'_eq_of_getLsbD fun i hi => by rw [getLsbD_statusView]; interval_cases i <;> simp

theorem statusView_dpad (b : Block) : (statusView b).extractLsb' 16 3 = b.dpad :=
  extractLsb'_eq_of_getLsbD fun i hi => by rw [getLsbD_statusView]; interval_cases i <;> simp

theorem statusView_zeros (b : Block) : (statusView b).extractLsb' 19 5 = 0#5 :=
  extractLsb'_eq_of_getLsbD fun i hi => by rw [getLsbD_statusView]; interval_cases i <;> simp

theorem statusView_hold (b : Block) : (statusView b).extractLsb' 24 8 = b.hold :=
  extractLsb'_eq_of_getLsbD fun i hi => by rw [getLsbD_statusView]; interval_cases i <;> simp

theorem hostOp_read_status (s : State) : hostOp (.read 4 0x04) s = .next (readReg .status s) := rfl

theorem hostOp_write_status (v : Word) (s : State) : hostOp (.write 4 0x04 v) s = .next s := rfl

/-- Settles O8: each field by the bits of `STATUS` at its place, and the register port at offset 4. -/
theorem statusFieldsStandAtTheirPlaces : Obligations.StatusFieldsStandAtTheirPlaces := by
  intro s
  have codes : Mode.idle.bits = 0#2 ∧ Mode.enc.bits = 1#2 ∧ Mode.dec.bits = 2#2 ∧ Mode.fault.bits = 3#2 :=
    ⟨rfl, rfl, rfl, rfl⟩
  exact ⟨statusView_mode _, statusView_done _, statusView_hdr _, statusView_holdV _, statusView_nb _,
    statusView_accLen _, statusView_dpad _, statusView_zeros _, statusView_hold _, codes, hostOp_read_status s,
    fun v => hostOp_write_status v s⟩

end Sys2Proof.Machine
end

section
/-! PROOFS. The register port: which accesses it answers and what a read and a write of each register do (rules R62 to
R64), and the table's inverse lookup (rule R67). -/

namespace Sys2Proof.Machine

/-! ## Accesses through the register map -/

/-- A read at an offset of the map is `readReg` of the register there (rule R62). -/
theorem hostOp_read_of_regAt {off : Nat} {r : Reg} (h : regAt off = some r) (s : State) :
    hostOp (.read 4 off) s = .next (readReg r s) := by
  obtain ⟨aligned, -⟩ := (regAt_isSome off).1 (by rw [h]; rfl)
  rw [hostOp, accessReg_ok.2 ⟨rfl, aligned, h⟩]

/-- A write at an offset of the map is `writeReg` of the register there (rule R63). -/
theorem hostOp_write_of_regAt {off : Nat} {r : Reg} (h : regAt off = some r) (v : Word) (s : State) :
    hostOp (.write 4 off v) s = writeReg r v s := by
  obtain ⟨aligned, -⟩ := (regAt_isSome off).1 (by rw [h]; rfl)
  rw [hostOp, accessReg_ok.2 ⟨rfl, aligned, h⟩]

/-- `CODEk` stands at `0x20 + 4k` (rule R61). -/
theorem regAt_codeWord_offset (k : Fin 8) : regAt (0x20 + 4 * k.val) = some (.codeWord k) := by
  fin_cases k <;> rfl

/-- A read that is answered is `readReg` of the register at its offset. -/
theorem regAt_of_hostOp_read {bytes off : Nat} {s t : State} (h : hostOp (.read bytes off) s = .next t) :
    ∃ r, regAt off = some r ∧ t = readReg r s := by
  cases ha : accessReg bytes off with
  | error e => rw [hostOp, ha] at h; cases h
  | ok r =>
    obtain ⟨-, -, hr⟩ := accessReg_ok.1 ha
    rw [hostOp, ha] at h
    exact ⟨r, hr, (Host.Outcome.next.inj h).symm⟩

/-- Settles O7: each read is `readReg` of the register at its offset, which leaves the block that the view is taken of
as it was. -/
theorem readsReturnTheRegisterViews : Obligations.ReadsReturnTheRegisterViews := by
  intro s
  refine ⟨hostOp_read_of_regAt (r := .cmd) rfl s, hostOp_read_of_regAt (r := .status) rfl s,
    hostOp_read_of_regAt (r := .err) rfl s, hostOp_read_of_regAt (r := .errInfo) rfl s,
    hostOp_read_of_regAt (r := .pad) rfl s, hostOp_read_of_regAt (r := .cap) rfl s,
    fun k => hostOp_read_of_regAt (regAt_codeWord_offset k) s, fun off t hread => ?again⟩
  case again =>
    obtain ⟨r, hr, rfl⟩ := regAt_of_hostOp_read hread
    have second : hostOp (.read 4 off) (readReg r s) = .next (readReg r (readReg r s)) := hostOp_read_of_regAt hr _
    exact ⟨regView Config.LMAX r s.toBlock, rfl, second⟩

/-! ## Writes -/

/-- A word of `CODE` just written holds the value written (rule R63). -/
@[simp] theorem codeWordOf_setCodeWord_self (code : Staging) (k : Fin 8) (v : Word) :
    codeWordOf (setCodeWord code k v) k = v :=
  extractLsb'_eq_of_getLsbD fun i hi => by
    rw [getLsbD_setCodeWord _ _ _ _ (by omega), if_pos (by omega), Nat.add_sub_cancel_left]

/-- A write to one word of `CODE` leaves the other words as they were (rule R63). -/
theorem codeWordOf_setCodeWord_ne (code : Staging) {j k : Fin 8} (v : Word) (h : j ≠ k) :
    codeWordOf (setCodeWord code k v) j = codeWordOf code j :=
  extractLsb'_eq_of_getLsbD fun i hi => by
    have apart : j.val ≠ k.val := Fin.val_ne_of_ne h
    rw [getLsbD_setCodeWord _ _ _ _ (by omega), if_neg (by omega), codeWordOf, BitVec.getLsbD_extractLsb',
      decide_eq_true hi, Bool.true_and]

/-- Settles O9: a write goes to the register at its offset, and a write of one word of `CODE` is `setCodeWord`. -/
theorem writesReachOnlyCommandAndStaging : Obligations.WritesReachOnlyCommandAndStaging := by
  intro s v
  exact ⟨hostOp_write_of_regAt (r := .cmd) rfl v s,
    fun k => ⟨setCodeWord s.code k v, hostOp_writeCode k v s, codeWordOf_setCodeWord_self s.code k v,
      fun _ hj => codeWordOf_setCodeWord_ne s.code v hj⟩,
    hostOp_write_of_regAt (r := .status) rfl v s, hostOp_write_of_regAt (r := .err) rfl v s,
    hostOp_write_of_regAt (r := .errInfo) rfl v s, hostOp_write_of_regAt (r := .pad) rfl v s,
    hostOp_write_of_regAt (r := .cap) rfl v s⟩

/-! ## Reserved accesses -/

/-- The accesses that rule R64 reserves. -/
def reservedAccess (bytes off : Nat) : Prop :=
  bytes ≠ 4 ∨ off % 4 ≠ 0 ∨ off = 0x18 ∨ off = 0x1C ∨ 0x40 ≤ off

/-- The accesses that are not reserved are those of 4 bytes at an offset of the map. -/
theorem not_reservedAccess_iff {bytes off : Nat} :
    ¬ reservedAccess bytes off ↔ bytes = 4 ∧ (regAt off).isSome = true := by
  rw [regAt_isSome, reservedAccess]
  omega

theorem accessReg_error_of_reserved {bytes off : Nat} (h : reservedAccess bytes off) :
    ∃ e, accessReg bytes off = .error e := by
  cases ha : accessReg bytes off with
  | error e => exact ⟨e, rfl⟩
  | ok r =>
    obtain ⟨width, -, hr⟩ := accessReg_ok.1 ha
    exact absurd h (not_reservedAccess_iff.2 ⟨width, by rw [hr]; rfl⟩)

/-- Settles O10: a reserved access reaches no register, and any other reaches one, where a read and a write are
answered. -/
theorem reservedAccessesAreRefused : Obligations.ReservedAccessesAreRefused := by
  intro bytes off v s
  constructor
  · intro reserved
    obtain ⟨e, he⟩ := accessReg_error_of_reserved reserved
    exact ⟨e, by rw [hostOp, he], by rw [hostOp, he]⟩
  · intro allowed
    obtain ⟨rfl, mapped⟩ := not_reservedAccess_iff.1 allowed
    obtain ⟨aligned, -⟩ := (regAt_isSome off).1 mapped
    have accepted : (HostOp.read 4 off).wellFormed = true := by
      simp [HostOp.wellFormed, widthOk, alignedOk, mappedOk, aligned, mapped]
    exact ⟨hostOp_next_of_wellFormed accepted s,
      hostOp_next_of_wellFormed (op := .write 4 off v) accepted s⟩

/-! ## Lookup -/

/-- The number of a symbol is the least among the numbers of the symbols with a property exactly if the symbol has it
and no symbol with a lower number does. -/
theorem isLeast_symbolNumbers_iff (p : Byte → Prop) (sym : Byte) :
    IsLeast { k : Nat | ∃ o : Byte, o.toNat = k ∧ p o } sym.toNat ↔
      p sym ∧ ∀ other : Byte, other.toNat < sym.toNat → ¬ p other := by
  constructor
  · rintro ⟨⟨o, ho, hp⟩, least⟩
    obtain rfl : o = sym := BitVec.eq_of_toNat_eq ho
    exact ⟨hp, fun other lower h => absurd (least ⟨other, rfl, h⟩) (Nat.not_le.2 lower)⟩
  · rintro ⟨hp, none_lower⟩
    refine ⟨⟨sym, rfl, hp⟩, ?_⟩
    rintro _ ⟨o, rfl, h⟩
    exact Nat.not_lt.1 fun lower => none_lower o lower h

/-- Settles O29: `lookup_eq_none` and `lookup_eq_some`, the latter with its lowest-numbered match said as a least
number. -/
theorem lookupFindsTheLeastMatch : Obligations.LookupFindsTheLeastMatch := by
  intro ct acc n _
  refine ⟨?absent, fun sym => ?least⟩
  case absent => exact lookup_eq_none.trans not_exists.symm
  case least => exact lookup_eq_some.trans (isLeast_symbolNumbers_iff (fun o => (entryAt ct o).holds acc n) sym).symm

end Sys2Proof.Machine
end

section
/-! PROOFS. Which command words are legal (rules R92, R93), what executing an illegal one does (rule R96), and the
encoding examples (rule R103). -/

namespace Sys2Proof.Machine

/-! ## The rows of the opcode map -/

/-- The mask of a command without operands keeps the whole word (rule R92). -/
@[simp] theorem and_maskAll (w : Word) : w &&& 0xFFFFFFFF#32 = w := BitVec.and_allOnes

/-- A chain of tests finds a command if this test succeeds or the rest of the chain finds one. -/
theorem isSome_ite_some {α : Type} (p : Prop) [Decidable p] (x : α) (rest : Option α) :
    (if p then some x else rest).isSome = (decide p || rest.isSome) := by
  by_cases h : p <;> simp [h]

/-- The decoder tests the rows of the opcode map in their order, so it finds a command exactly for a word that matches
a row (rules R92, R95). -/
theorem decodeWord_isSome (w : Word) : (decodeWord w).isSome = legalWord w := by
  simp only [decodeWord, isSome_ite_some, Option.isSome_none, legalWord, opcodeMap, List.any_cons, List.any_nil,
    and_maskAll, beq_eq_decide]

theorem decodeWord_eq_none_iff (w : Word) : decodeWord w = none ↔ legalWord w = false := by
  rw [← decodeWord_isSome, Option.isSome_eq_false_iff, Option.isNone_iff_eq_none]

/-! ## Legality, field by field -/

/-- The row a word matches, field by field: it has the row's `OPC`, zero in `Z`, and zero in each operand field that the
row's mask keeps (rule R92). -/
theorem legalWord_iff_row (w : Word) : legalWord w = true ↔
    fieldOpc w = 0x00#8 ∧ fieldA w = 0#8 ∧ fieldB w = 0#8 ∧ fieldZ w = 0#8 ∨
    fieldOpc w = 0x01#8 ∧ fieldA w = 0#8 ∧ fieldB w = 0#8 ∧ fieldZ w = 0#8 ∨
    fieldOpc w = 0x10#8 ∧ fieldA w = 0#8 ∧ fieldB w = 0#8 ∧ fieldZ w = 0#8 ∨
    fieldOpc w = 0x11#8 ∧ fieldZ w = 0#8 ∨
    fieldOpc w = 0x20#8 ∧ fieldA w = 0#8 ∧ fieldB w = 0#8 ∧ fieldZ w = 0#8 ∨
    fieldOpc w = 0x21#8 ∧ fieldB w = 0#8 ∧ fieldZ w = 0#8 ∨
    fieldOpc w = 0x22#8 ∧ fieldA w = 0#8 ∧ fieldB w = 0#8 ∧ fieldZ w = 0#8 ∨
    fieldOpc w = 0x30#8 ∧ fieldA w = 0#8 ∧ fieldB w = 0#8 ∧ fieldZ w = 0#8 ∨
    fieldOpc w = 0x31#8 ∧ fieldB w = 0#8 ∧ fieldZ w = 0#8 ∨
    fieldOpc w = 0x32#8 ∧ fieldA w = 0#8 ∧ fieldB w = 0#8 ∧ fieldZ w = 0#8 := by
  simp only [legalWord, opcodeMap, List.any_cons, List.any_nil, Bool.or_eq_true, beq_iff_eq, and_maskAll,
    maskOpcZ_iff, maskOpcBZ_iff]
  simp [word_eq_iff_fields, fieldOpc, fieldA, fieldB, fieldZ]

/-- A word matches a row of the opcode map exactly if its `OPC` is assigned, `Z` is zero, and `A` and `B` are zero
where the command does not use them (rules R92, R93). -/
theorem legalWord_iff_fields (w : Word) : legalWord w = true ↔
    fieldOpc w ∈ assignedOpcodes ∧ fieldZ w = 0#8 ∧
      (fieldA w = 0#8 ∨ fieldOpc w ∈ [0x11#8, 0x21#8, 0x31#8]) ∧ (fieldB w = 0#8 ∨ fieldOpc w = 0x11#8) := by
  rw [legalWord_iff_row]
  generalize fieldOpc w = opc
  constructor
  · rintro (h | h | h | h | h | h | h | h | h | h) <;> simp [h, assignedOpcodes]
  · rintro ⟨assigned, hz, ha, hb⟩
    simp only [assignedOpcodes, List.mem_cons, List.not_mem_nil, or_false] at assigned
    rcases assigned with rfl | rfl | rfl | rfl | rfl | rfl | rfl | rfl | rfl | rfl <;> simp_all

/-- The ways of being illegal, as rule R93 lists them. -/
theorem legalWord_eq_false_iff (w : Word) : legalWord w = false ↔
    fieldOpc w ∉ assignedOpcodes ∨ fieldZ w ≠ 0#8 ∨
      (fieldA w ≠ 0#8 ∧ fieldOpc w ∉ [0x11#8, 0x21#8, 0x31#8]) ∨ (fieldB w ≠ 0#8 ∧ fieldOpc w ≠ 0x11#8) := by
  rw [← Bool.not_eq_true, legalWord_iff_fields]
  simp only [not_and_or, not_or, ne_eq]

/-! ## Executing an illegal word -/

/-- Outside `FAULT` an illegal word raises `ILLCMD` with itself as `ERRINFO` (rules R93, R204). -/
theorem execWord_illegal {w : Word} {s : State} (hw : legalWord w = false) (hm : s.mode ≠ .fault) :
    execWord w s = .next (raiseFault .illCmd w s) := by
  rw [execWord, if_neg hm, (decodeWord_eq_none_iff w).2 hw]

/-- In `FAULT` an illegal word is ignored: the only word that is not is that of `RST`, which is legal (rule R207). -/
theorem execWord_illegal_in_fault {w : Word} {s : State} (hw : legalWord w = false) (hm : s.mode = .fault) :
    execWord w s = .next s := by
  have not_rst : w ≠ encode .rst := by
    rintro rfl
    exact absurd hw (by decide)
  rw [execWord, if_pos hm, if_neg not_rst]

/-- The reserved operation codes are the 256 but the ten assigned ones (rule R93). -/
theorem length_unassigned_opcodes :
    ((List.range 256).filter fun o => decide (BitVec.ofNat 8 o ∉ assignedOpcodes)).length = 246 := by decide +kernel

/-- Settles O2: legality field by field, and the two ways an illegal word ends. -/
theorem illegalWordsRaiseIllCmd : Obligations.IllegalWordsRaiseIllCmd :=
  ⟨decodeWord_isSome, legalWord_eq_false_iff, fun _ _ => execWord_illegal, fun _ _ => execWord_illegal_in_fault,
    length_unassigned_opcodes⟩

/-! ## The encoding examples -/

/-- Settles O3: the examples are evaluated, and each illegal one is illegal in the way that rule R103 names. -/
theorem encodingExamplesDecode : Obligations.EncodingExamplesDecode := by
  have nonzeroZ : legalWord 0x01000000#32 = false := (legalWord_eq_false_iff _).2 (.inr (.inl (by decide)))
  have unusedA : legalWord 0x00000120#32 = false := (legalWord_eq_false_iff _).2 (.inr (.inr (.inl (by decide))))
  have unusedB : legalWord 0x00010021#32 = false := (legalWord_eq_false_iff _).2 (.inr (.inr (.inr (by decide))))
  have unassigned : legalWord 0x00000002#32 = false := (legalWord_eq_false_iff _).2 (.inl (by decide))
  exact ⟨rfl, rfl, rfl, rfl, rfl, rfl, rfl, rfl, rfl, rfl, nonzeroZ, unusedA, unusedB, unassigned⟩

end Sys2Proof.Machine
end

section
/-! PROOFS. The code-table commands: the checks that come before a command's own rule (rules R96, R206), what `CT.CLR`
and `CT.SET` write (rules R111, R112), and that no other command writes the table (rule R114). -/

namespace Sys2Proof.Machine

/-! ## The checks before a command's own rule -/

/-- A command other than `RST` that the table of rule R158 permits in one `MODE` begins with the checks of rules R96 and
R206. -/
theorem checkedFirst_of_permittedIn {i : Instr} {allowed : Mode} (not_rst : i ≠ .rst)
    (permitted : ∀ m, permittedIn i m = (m == allowed)) : checkedFirst i allowed := by
  refine ⟨fun s inFault => ?ignored, fun s outside other => ?seq, fun w s _ illegal outside => ?illCmd⟩
  case ignored => rw [exec_eq_issue not_rst, issue_ignored inFault]
  case seq =>
    have refused : permittedIn i s.mode = false := by rw [permitted, beq_eq_false_iff_ne]; exact other
    rw [exec_eq_issue not_rst, issue_refused outside refused]
    rfl
  case illCmd =>
    rw [execWord_illegal illegal outside]
    rfl

theorem ctClr_checkedFirst : checkedFirst .ctClr .idle := checkedFirst_of_permittedIn nofun fun _ => rfl

theorem ctSet_checkedFirst (sym : Byte) (len : BitVec 8) : checkedFirst (.ctSet sym len) .idle :=
  checkedFirst_of_permittedIn nofun fun _ => rfl

/-! ## `CT.CLR` and `CT.SET` in `IDLE` -/

theorem exec_ctClr_of_idle {s : State} (idle : s.mode = .idle) : exec .ctClr s = .next (ctClrEffect s) :=
  exec_permitted (by rw [idle]; decide) (by rw [idle]; rfl)

theorem exec_ctSet_of_idle {s : State} (idle : s.mode = .idle) (sym : Byte) (len : BitVec 8) :
    exec (.ctSet sym len) s = .next (ctSetEffect Config.LMAX sym len s) :=
  exec_permitted (by rw [idle]; decide) (by rw [idle]; rfl)

/-- Settles O17: the effect is `ctClrEffect`, and every entry of its table is the empty one. -/
theorem ctClrEmptiesTheTable : Obligations.CtClrEmptiesTheTable := by
  refine ⟨fun s idle => ⟨Vector.replicate 256 Entry.empty, exec_ctClr_of_idle idle, fun sym => ?empty⟩,
    ctClr_checkedFirst⟩
  rw [entryAt_replicate]
  exact ⟨rfl, rfl⟩

/-! ## The checks of `CT.SET` and its write -/

section
variable {lmax : Nat} {sym : Byte} {len : BitVec 8} {s : State}

theorem ctSetEffect_of_len_gt (long : len.toNat > lmax) :
    ctSetEffect lmax sym len s = raiseFault .len (encode (.ctSet sym len)) s := if_pos long

theorem ctSetEffect_of_code_ge (fits : len.toNat ≤ lmax) (large : s.code.toNat ≥ 2 ^ len.toNat) :
    ctSetEffect lmax sym len s = raiseFault .code (encode (.ctSet sym len)) s :=
  (if_neg (Nat.not_lt.2 fits)).trans (if_pos large)

theorem ctSetEffect_of_code_lt (fits : len.toNat ≤ lmax) (small : s.code.toNat < 2 ^ len.toNat) :
    ctSetEffect lmax sym len s =
      { s with ct := setEntry s.ct sym { len := len, code := BitVec.ofNat 255 (s.code.toNat % 2 ^ lmax) } } :=
  (if_neg (Nat.not_lt.2 fits)).trans (if_neg (Nat.not_le.2 small))

/-- `CT.SET` that changes the table raises no fault. -/
theorem ctSetEffect_mode_of_ct_ne (changed : (ctSetEffect lmax sym len s).ct ≠ s.ct) :
    (ctSetEffect lmax sym len s).mode = s.mode := by
  obtain ⟨-, h⟩ | ⟨-, -, h⟩ | ⟨-, -, h⟩ := ctSetEffect_cases lmax sym len s
  · exact absurd (congrArg (fun t : State => t.ct) h) changed
  · exact absurd (congrArg (fun t : State => t.ct) h) changed
  · rw [h]

/-- A staged value with bit 255 set is too large for every length (rule R112). -/
theorem code_ge_of_top_bit (top : s.code.getLsbD 255 = true) : s.code.toNat ≥ 2 ^ len.toNat :=
  calc 2 ^ len.toNat ≤ 2 ^ 255 := Nat.pow_le_pow_right Nat.two_pos (len_le_LMAX len)
    _ ≤ s.code.toNat := Nat.ge_two_pow_of_testBit top

end

/-- The low bits of the staged value that a table entry takes fit its field, for every legal `LMAX` (rules R7, R112). -/
theorem toNat_ofNat_mod_two_pow {lmax : Nat} (legal : Config.legalLmax lmax) (n : Nat) :
    (BitVec.ofNat 255 (n % 2 ^ lmax)).toNat = n % 2 ^ lmax := by
  obtain ⟨-, atMost⟩ := legal
  have fits : n % 2 ^ lmax < 2 ^ 255 :=
    (Nat.mod_lt n (Nat.two_pow_pos lmax)).trans_le (Nat.pow_le_pow_right Nat.two_pos atMost)
  rw [BitVec.toNat_ofNat, Nat.mod_eq_of_lt fits]

/-- Settles O19: the effect's three cases, which `exec` reaches from `IDLE` with `LMAX` = 255. -/
theorem ctSetChecksLengthThenCode : Obligations.CtSetChecksLengthThenCode := by
  refine ⟨fun lmax s sym len legal => ⟨ctSetEffect_of_len_gt, ctSetEffect_of_code_ge, fun fits small => ?write⟩,
    fun s sym len idle => ?machine, ctSet_checkedFirst⟩
  case write =>
    exact ⟨_, _, ctSetEffect_of_code_lt fits small, toNat_ofNat_mod_two_pow legal _, entryAt_setEntry_self _ _ _,
      fun _ apart => entryAt_setEntry_ne _ _ apart⟩
  case machine =>
    have run := exec_ctSet_of_idle idle sym len
    have refuse (large : s.code.toNat ≥ 2 ^ len.toNat) :
        exec (.ctSet sym len) s = .next (raiseFault .code (encode (.ctSet sym len)) s) := by
      rw [run, ctSetEffect_of_code_ge (len_le_LMAX len) large]
    exact ⟨run, Nat.not_lt.2 (len_le_LMAX len), refuse, fun top => refuse (code_ge_of_top_bit top)⟩

/-! ## The other commands leave the table -/

@[simp] theorem shiftBits_ct (lmax : Nat) (bits : List Bool) (s : State) : (shiftBits lmax bits s).1.ct = s.ct := by
  rw [shiftBits_eq_scan]
  rfl

@[simp] theorem encSymEffect_ct (sym : Byte) (s : State) : (encSymEffect sym s).ct = s.ct := by
  rw [encSymEffect]
  split <;> rfl

@[simp] theorem encFinEffect_ct (s : State) : (encFinEffect s).ct = s.ct := by
  rw [encFinEffect]
  split <;> rfl

@[simp] theorem decByteEffect_ct (lmax : Nat) (byte : Byte) (s : State) : (decByteEffect lmax byte s).ct = s.ct := by
  obtain ⟨-, -, h⟩ | ⟨-, -, h⟩ | ⟨-, -, h⟩ | ⟨-, -, -, h⟩ | ⟨-, -, -, h⟩ := decByteEffect_cases lmax byte s <;> simp [h]

@[simp] theorem decCloseEffect_ct (s : State) : (decCloseEffect s).ct = s.ct := by
  obtain ⟨-, h⟩ | ⟨-, h⟩ := decCloseEffect_cases s <;> simp [h]

@[simp] theorem decFinEffect_ct (lmax : Nat) (s : State) : (decFinEffect lmax s).ct = s.ct := by
  obtain ⟨-, h⟩ | ⟨-, -, -, h⟩ | ⟨-, -, -, h⟩ | ⟨-, -, -, h⟩ | ⟨-, -, -, h⟩ := decFinEffect_cases lmax s <;> simp [h]

/-- An effect that changes the table is that of `CT.CLR` or `CT.SET`, and it stays in its `MODE`. -/
theorem effectOf_ct_ne {i : Instr} {s : State} (changed : (effectOf i s).ct ≠ s.ct) :
    (i = .ctClr ∨ ∃ sym len, i = .ctSet sym len) ∧ (effectOf i s).mode = s.mode := by
  cases i with
  | ctClr => exact ⟨.inl rfl, rfl⟩
  | ctSet sym len => exact ⟨.inr ⟨sym, len, rfl⟩, ctSetEffect_mode_of_ct_ne changed⟩
  | nop | rst | encStart | encSym | encFin | decStart | decByte | decFin => exact absurd (by simp [effectOf]) changed

/-- The table commands are permitted in `IDLE` alone (rule R158). -/
theorem permittedIn_tableCommand {i : Instr} (table : i = .ctClr ∨ ∃ sym len, i = .ctSet sym len) (m : Mode) :
    permittedIn i m = (m == .idle) := by
  obtain rfl | ⟨sym, len, rfl⟩ := table <;> rfl

/-- A command that changes the table is a table command that runs in `IDLE` and stays there (rules R25, R114). -/
theorem exec_ct_ne {i : Instr} {s t : State} (h : exec i s = .next t) (changed : t.ct ≠ s.ct) :
    s.mode = .idle ∧ t.mode = .idle ∧ (i = .ctClr ∨ ∃ sym len, i = .ctSet sym len) := by
  obtain ⟨-, -, rfl⟩ | ⟨-, -, rfl⟩ | ⟨-, permitted, rfl⟩ | ⟨-, -, rfl⟩ := exec_cases h
  · exact absurd rfl changed
  · exact absurd (raiseFault_ct ..) changed
  · obtain ⟨table, stays⟩ := effectOf_ct_ne changed
    rw [permittedIn_tableCommand table, beq_iff_eq] at permitted
    exact ⟨permitted, stays.trans permitted, table⟩
  · exact absurd (softReset_ct s) changed

/-- Settles O20: the ways a command ends that change the table, and the `SEQ` check in `ENC` and `DEC`. -/
theorem onlyTableCommandsWriteTheTable : Obligations.OnlyTableCommandsWriteTheTable := by
  intro i s t h
  refine ⟨exec_ct_ne h, fun table session => ?seq⟩
  have checked : checkedFirst i .idle := by
    obtain rfl | ⟨sym, len, rfl⟩ := table
    · exact ctClr_checkedFirst
    · exact ctSet_checkedFirst sym len
  obtain ⟨-, refused, -⟩ := checked
  obtain ⟨outside, other⟩ : s.mode ≠ .fault ∧ s.mode ≠ .idle := by
    obtain enc | dec := session
    · rw [enc]; decide
    · rw [dec]; decide
  exact Host.Outcome.next.inj (h.symm.trans (refused s outside other))

end Sys2Proof.Machine
end

section
/-! PROOFS. Commands among the host's operations (rules R101, R125, R140): the word of a command runs that command,
a quiet operation changes nothing but `CODE` and the record of reads, and what holds along a session whose commands
have quiet operations anywhere among them. -/

namespace Sys2Proof.Machine

/-! ## The word of a command -/

/-- The encoding of a command decodes to it: its four fields pass the test of its own row, and its `OPC` fails those of
the other rows (rules R95, R101). -/
theorem decodeWord_encode (i : Instr) : decodeWord (encode i) = some i := by
  obtain ⟨opc, a, b, z⟩ := fields_encode i
  simp only [decodeWord, maskOpcZ_iff, maskOpcBZ_iff]
  simp only [word_eq_iff_fields, opc, a, b, z]
  cases i <;> simp [fieldOpc, fieldA, fieldB, fieldZ]

theorem encode_injective : Function.Injective encode := fun i j same =>
  Option.some.inj (by rw [← decodeWord_encode i, same, decodeWord_encode])

/-- Executing the word of a command is executing the command, in every `MODE` (rules R96, R206). -/
theorem execWord_encode (i : Instr) (s : State) : execWord (encode i) s = exec i s := by
  by_cases inFault : s.mode = .fault
  · by_cases rst : i = .rst
    · rw [execWord, if_pos inFault, rst, if_pos rfl]
    · rw [execWord, if_pos inFault, if_neg fun same => rst (encode_injective same), exec_eq_issue rst,
        issue_ignored inFault]
  · rw [execWord, if_neg inFault, decodeWord_encode]

/-! ## Quiet operations -/

theorem wellFormed_of_quiet {op : HostOp} (quiet : op.quiet = true) : op.wellFormed = true := by
  cases op with
  | reset => rfl
  | read bytes off => exact quiet
  | write bytes off v =>
    rw [HostOp.quiet, Bool.and_eq_true] at quiet
    exact quiet.1

/-- The only word that a quiet operation writes to `CMD` is that of `NOP`. -/
theorem eq_nop_of_quiet {w : Word} (quiet : (HostOp.write 4 0 w).quiet = true) : w = encode .nop := by
  rw [HostOp.quiet, Bool.and_eq_true] at quiet
  simpa using quiet.2

/-- A quiet operation is answered, and it changes `CODE` and the record of reads at most (rules R62, R63, R156). -/
theorem hostOp_of_quiet {op : HostOp} (quiet : op.quiet = true) (s : State) :
    ∃ code reads, hostOp op s = .next { s with code := code, reads := reads } := by
  obtain ⟨t, answers⟩ := hostOp_next_of_wellFormed (wellFormed_of_quiet quiet) s
  rw [answers]
  obtain ⟨rfl, -⟩ | ⟨off, r, rfl, -, rfl⟩ | ⟨w, rfl, runs⟩ | ⟨k, v, rfl, rfl⟩ | ⟨off, v, rfl, -, rfl⟩ :=
    hostOp_cases answers
  · cases quiet
  · exact ⟨s.code, _, rfl⟩
  · rw [eq_nop_of_quiet quiet, execWord_encode] at runs
    cases runs
    exact ⟨s.code, s.reads, rfl⟩
  · exact ⟨_, s.reads, rfl⟩
  · exact ⟨t.code, t.reads, rfl⟩

/-! ## Sessions -/

/-- A property of states that quiet operations keep: it does not depend on `CODE` or on the record of reads. -/
def QuietStable (P : State → Prop) : Prop :=
  ∀ (s : State) (code : Staging) (reads : List Word), P s → P { s with code := code, reads := reads }

/-- From every state with `P` the commands, with quiet operations anywhere among them, are performed and lead to a
state with `Q`. -/
def Leads (P : State → Prop) (cmds : List Instr) (Q : State → Prop) : Prop :=
  ∀ (s : State) (ops : List HostOp), P s → Interleaved cmds ops → ∃ t, performAll ops s = .next t ∧ Q t

/-- Quiet operations alone keep a property that does not depend on what they write. -/
theorem Leads.nil {P : State → Prop} (stable : QuietStable P) : Leads P [] P := by
  intro s ops hs session
  generalize noCommands : ([] : List Instr) = cmds at session
  induction session generalizing s with
  | done => exact ⟨s, rfl, hs⟩
  | quiet quiet _ ih =>
    obtain ⟨code, reads, answers⟩ := hostOp_of_quiet quiet s
    rw [performAll_cons answers]
    exact ih _ (stable s code reads hs) noCommands
  | cmd => cases noCommands

/-- A session's first command comes after quiet operations that keep `P`, and the rest of the session follows from the
state it leads to. -/
theorem Leads.cons {P Q R : State → Prop} {i : Instr} {cmds : List Instr} (stable : QuietStable P)
    (first : ∀ s, P s → ∃ t, exec i s = .next t ∧ Q t) (rest : Leads Q cmds R) : Leads P (i :: cmds) R := by
  intro s ops hs session
  generalize split : i :: cmds = all at session
  induction session generalizing s with
  | done => cases split
  | quiet quiet _ ih =>
    obtain ⟨code, reads, answers⟩ := hostOp_of_quiet quiet s
    rw [performAll_cons answers]
    exact ih _ (stable s code reads hs) split
  | cmd session =>
    obtain ⟨rfl, rfl⟩ := List.cons.inj split
    obtain ⟨t, runs, ht⟩ := first s hs
    rw [performAll_cons ((hostOp_command i s).trans ((execWord_encode i s).trans runs))]
    exact rest t _ ht session

end Sys2Proof.Machine
end

section
/-! PROOFS. The encoder commands one by one (rules R120 to R124): what each does in the `MODE` that permits it, what it
leaves, and what it does not read. -/

namespace Sys2Proof.Machine

/-! ## The checks before the commands -/

theorem encStart_checkedFirst : checkedFirst .encStart .idle := checkedFirst_of_permittedIn nofun fun _ => rfl

theorem encSym_checkedFirst (sym : Byte) : checkedFirst (.encSym sym) .enc :=
  checkedFirst_of_permittedIn nofun fun _ => rfl

theorem encFin_checkedFirst : checkedFirst .encFin .enc := checkedFirst_of_permittedIn nofun fun _ => rfl

/-! ## `ENC.START` -/

theorem exec_encStart_of_idle {s : State} (idle : s.mode = .idle) : exec .encStart s = .next (encStartEffect s) :=
  exec_permitted (by rw [idle]; decide) (by rw [idle]; rfl)

/-- Settles O22: the effect is `encStartEffect`, which is the statement's state. -/
theorem encStartOpensASession : Obligations.EncStartOpensASession :=
  ⟨fun _ => exec_encStart_of_idle, encStart_checkedFirst⟩

/-! ## `ENC.SYM` -/

theorem exec_encSym_of_enc {s : State} (enc : s.mode = .enc) (sym : Byte) :
    exec (.encSym sym) s = .next (encSymEffect sym s) :=
  exec_permitted (by rw [enc]; decide) (by rw [enc]; rfl)

/-- The codeword of a symbol that has one goes through the barrel shifter (rule R122). -/
theorem exec_encSym_of_hasCode {s : State} {sym : Byte} (enc : s.mode = .enc) (coded : hasCode s.ct sym) :
    exec (.encSym sym) s = .next (appendBits (entryAt s.ct sym).len.toNat (entryAt s.ct sym).code.toNat s) := by
  rw [exec_encSym_of_enc enc, encSymEffect, if_neg coded]

/-- A symbol without a codeword raises `NOCODE` (rule R122). -/
theorem exec_encSym_of_len_zero {s : State} {sym : Byte} (enc : s.mode = .enc) (empty : (entryAt s.ct sym).len = 0#8) :
    exec (.encSym sym) s = .next (raiseFault .noCode (encode (.encSym sym)) s) := by
  rw [exec_encSym_of_enc enc, encSymEffect, if_pos empty]

theorem barrelBytes_getElem (t v i : Nat) (h : i < (barrelBytes t v).length) :
    (barrelBytes t v)[i].toNat = v / 2 ^ (t - 8 - 8 * i) % 256 := by
  simp [barrelBytes]

/-- Settles O23: the emitted bytes are `barrelBytes`, and the new `NB` and `BB` are those of `appendBits`. -/
theorem encSymFollowsTheBarrelShifter : Obligations.EncSymFollowsTheBarrelShifter := by
  refine fun sym => ⟨fun s enc => ⟨fun coded => ?shift, exec_encSym_of_len_zero enc⟩, encSym_checkedFirst sym⟩
  exact ⟨_, _, _, exec_encSym_of_hasCode enc coded, barrelBytes_length _ _, barrelBytes_getElem _ _,
    appendBits_nb _ (entryAt s.ct sym).code.toNat s, appendBits_bb _ _ s⟩

/-- Of a symbol with a codeword `ENC.SYM` emits bytes that, with the bits then pending, spell the bits pending before and
the codeword (rule R124). -/
theorem exec_encSym_bits {s : State} {sym : Byte} (enc : s.mode = .enc) (entryWf : (entryAt s.ct sym).wf Config.LMAX)
    (coded : hasCode s.ct sym) :
    ∃ t bytes, exec (.encSym sym) s = .next t ∧ t.mode = .enc ∧ t.ct = s.ct ∧ pendingWf t.nb t.bb ∧
      t.out = s.out ++ bytes ∧
      streamBits bytes ++ pendingBits t.toBlock = pendingBits s.toBlock ++ (entryAt s.ct sym).bits :=
  ⟨_, _, exec_encSym_of_hasCode enc coded, enc, rfl, appendBits_pendingWf _ _ s, appendBits_out _ _ s,
    appendBits_bits entryWf.2 s⟩

/-- Settles O24: the bytes of `exec_encSym_bits` are those emitted since. -/
theorem barrelShifterLosesNoBit : Obligations.BarrelShifterLosesNoBit := by
  intro s sym enc _ entryWf coded
  obtain ⟨t, bytes, runs, -, -, aligned, output, law⟩ := exec_encSym_bits enc entryWf coded
  refine ⟨t, runs, aligned, ⟨bytes, output.symm⟩, ?_⟩
  rw [emittedSince_of_append output, law]

/-! ## `ENC.FIN` -/

theorem exec_encFin_of_enc {s : State} (enc : s.mode = .enc) : exec .encFin s = .next (encFinEffect s) :=
  exec_permitted (by rw [enc]; decide) (by rw [enc]; rfl)

theorem encFinEffect_of_nb_zero {s : State} (empty : s.nb = 0#3) :
    encFinEffect s = { s with pad := 0#3, nb := 0#3, bb := 0#8, mode := .idle, done := true } := if_pos empty

theorem encFinEffect_of_nb_ne_zero {s : State} (pending : s.nb ≠ 0#3) :
    encFinEffect s = { emit [s.bb] s with
      pad := BitVec.ofNat 3 (8 - s.nb.toNat), nb := 0#3, bb := 0#8, mode := .idle, done := true } := if_neg pending

theorem toNat_nb_pos {nb : BitVec 3} (pending : nb ≠ 0#3) : 0 < nb.toNat :=
  Nat.pos_of_ne_zero fun zero => pending (BitVec.eq_of_toNat_eq zero)

/-- The padding count of 1 to 7 pending bits fits `PAD` (rules R31, R123). -/
theorem toNat_padding {nb : BitVec 3} (pending : nb ≠ 0#3) : (BitVec.ofNat 3 (8 - nb.toNat)).toNat = 8 - nb.toNat := by
  have := toNat_nb_pos pending
  rw [BitVec.toNat_ofNat, Nat.mod_eq_of_lt (by omega)]

/-- Settles O25: the two cases of `encFinEffect`. -/
theorem encFinPadsAndCloses : Obligations.EncFinPadsAndCloses := by
  refine ⟨fun s enc => ⟨fun pending => ?pads, fun empty => ?aligned⟩, encFin_checkedFirst⟩
  case pads =>
    refine ⟨_, toNat_padding pending, ?_⟩
    rw [exec_encFin_of_enc enc, encFinEffect_of_nb_ne_zero pending]
    rfl
  case aligned => rw [exec_encFin_of_enc enc, encFinEffect_of_nb_zero empty]

/-! ## What the encoder commands leave and do not read -/

/-- The encoder commands (rule R120). -/
abbrev encoderCommand (i : Instr) : Prop := i = .encStart ∨ (∃ sym, i = .encSym sym) ∨ i = .encFin

/-- Everything is as before but `MODE`, the registers of the result and the fault, the pending bits and the output. -/
def sameButEncoder (s t : State) : Prop :=
  t = { s with mode := t.mode, done := t.done, pad := t.pad, err := t.err, errInfo := t.errInfo, nb := t.nb, bb := t.bb,
               out := t.out }

theorem effectOf_sameButEncoder {i : Instr} (encoder : encoderCommand i) (s : State) :
    sameButEncoder s (effectOf i s) := by
  obtain rfl | ⟨sym, rfl⟩ | rfl := encoder
  · rfl
  · show sameButEncoder s (encSymEffect sym s)
    rw [encSymEffect]
    split <;> rfl
  · show sameButEncoder s (encFinEffect s)
    rw [encFinEffect]
    split <;> rfl

theorem ne_rst_of_encoderCommand {i : Instr} (encoder : encoderCommand i) : i ≠ .rst := by
  obtain rfl | ⟨sym, rfl⟩ | rfl := encoder <;> nofun

/-- The write frame of the encoder commands (rule R120), however they end. -/
theorem exec_sameButEncoder {i : Instr} {s t : State} (encoder : encoderCommand i) (h : exec i s = .next t) :
    sameButEncoder s t := by
  obtain ⟨-, -, rfl⟩ | ⟨-, -, rfl⟩ | ⟨-, -, rfl⟩ | ⟨-, rst, -⟩ := exec_cases h
  · rfl
  · rfl
  · exact effectOf_sameButEncoder encoder s
  · exact absurd rst (ne_rst_of_encoderCommand encoder)

/-- The state `s` with the values that `u` holds in `CODE` and in the decoder's registers. -/
def withDecoderOf (u : Block) (s : State) : State :=
  { s with code := u.code, hdr := u.hdr, holdV := u.holdV, dpad := u.dpad, hold := u.hold, accLen := u.accLen,
           acc := u.acc }

theorem effectOf_withDecoderOf {i : Instr} (encoder : encoderCommand i) (u : Block) (s : State) :
    effectOf i (withDecoderOf u s) = withDecoderOf u (effectOf i s) := by
  obtain rfl | ⟨sym, rfl⟩ | rfl := encoder
  · rfl
  · show encSymEffect sym (withDecoderOf u s) = withDecoderOf u (encSymEffect sym s)
    rw [encSymEffect, encSymEffect, apply_ite (withDecoderOf u)]
    rfl
  · show encFinEffect (withDecoderOf u s) = withDecoderOf u (encFinEffect s)
    rw [encFinEffect, encFinEffect, apply_ite (withDecoderOf u)]
    rfl

/-- The encoder commands do the same whatever `CODE` and the decoder's registers hold (rule R120). -/
theorem exec_withDecoderOf {i : Instr} {s t : State} (encoder : encoderCommand i) (h : exec i s = .next t) (u : Block) :
    exec i (withDecoderOf u s) = .next (withDecoderOf u t) := by
  have not_rst := ne_rst_of_encoderCommand encoder
  rw [exec_eq_issue not_rst] at h ⊢
  obtain ⟨inFault, h⟩ | ⟨outside, refused, h⟩ | ⟨outside, permitted, h⟩ := issue_cases h <;> cases h
  · exact issue_ignored inFault
  · exact issue_refused outside refused
  · rw [← effectOf_withDecoderOf encoder]
    exact issue_permitted outside permitted

/-- Settles O27: the write frame `sameButEncoder`, and the same answer with other values in what is not read. -/
theorem encoderCommandsFrame : Obligations.EncoderCommandsFrame := by
  refine ⟨⟨encStart_checkedFirst, encSym_checkedFirst, encFin_checkedFirst⟩, fun i s t encoder h => ⟨?frame, ?unread⟩⟩
  case frame =>
    have frame : sameButEncoder s t := exec_sameButEncoder encoder h
    rw [frame]
    exact ⟨rfl, rfl, rfl, rfl, rfl, rfl, rfl, rfl, rfl, rfl, rfl, rfl⟩
  case unread =>
    intro code hdr holdV dpad hold accLen acc
    exact exec_withDecoderOf encoder h
      { s.toBlock with code := code, hdr := hdr, holdV := holdV, dpad := dpad, hold := hold, accLen := accLen,
                       acc := acc }

end Sys2Proof.Machine
end

section
/-! PROOFS. The session law of the encoder (rule R125): what holds while a session is open, and what `ENC.FIN` makes of
it. -/

namespace Sys2Proof.Machine

/-- No session is open, with the table `ct` and the output `out`. -/
structure EncBefore (ct : Vector Entry 256) (out : List Byte) (s : State) : Prop where
  mode : s.mode = .idle
  table : s.ct = ct
  output : s.out = out

/-- An encode session that began with the output `out` is open, and the bytes emitted since then and the pending bits
spell `bits` (rules R34, R124). -/
structure EncOpen (ct : Vector Entry 256) (out : List Byte) (bits : List Bool) (s : State) : Prop where
  mode : s.mode = .enc
  table : s.ct = ct
  aligned : pendingWf s.nb s.bb
  spelled : ∃ bytes, s.out = out ++ bytes ∧ streamBits bytes ++ pendingBits s.toBlock = bits

/-- An encode session that began with the output `out` is closed, and the bytes emitted since then spell `bits` with its
zero padding (rules R123, R125). -/
structure EncClosed (ct : Vector Entry 256) (out : List Byte) (bits : List Bool) (s : State) : Prop where
  mode : s.mode = .idle
  table : s.ct = ct
  done : s.done = true
  pad : s.pad.toNat = padCount bits.length
  spelled : ∃ bytes, s.out = out ++ bytes ∧ streamBits bytes = padded bits

section
variable {ct : Vector Entry 256} {out : List Byte} {bits : List Bool}

theorem EncBefore.quietStable : QuietStable (EncBefore ct out) :=
  fun _ _ _ ⟨mode, table, output⟩ => ⟨mode, table, output⟩

theorem EncOpen.quietStable : QuietStable (EncOpen ct out bits) :=
  fun _ _ _ ⟨mode, table, aligned, spelled⟩ => ⟨mode, table, aligned, spelled⟩

theorem EncClosed.quietStable : QuietStable (EncClosed ct out bits) :=
  fun _ _ _ ⟨mode, table, done, pad, spelled⟩ => ⟨mode, table, done, pad, spelled⟩

/-! ## The commands of a session -/

/-- `ENC.START` opens a session that has spelled nothing yet (rule R121). -/
theorem EncBefore.encStart {s : State} (before : EncBefore ct out s) :
    ∃ t, exec .encStart s = .next t ∧ EncOpen ct out [] t :=
  ⟨_, exec_encStart_of_idle before.mode, rfl, before.table, rfl, [],
    before.output.trans (List.append_nil out).symm, rfl⟩

/-- `ENC.SYM` appends the codeword to the bits spelled (rule R124). -/
theorem EncOpen.encSym {s : State} {sym : Byte} (opened : EncOpen ct out bits s)
    (entryWf : (entryAt ct sym).wf Config.LMAX) (coded : hasCode ct sym) :
    ∃ t, exec (.encSym sym) s = .next t ∧ EncOpen ct out (bits ++ (entryAt ct sym).bits) t := by
  obtain ⟨enc, rfl, -, before, output, spelled⟩ := opened
  obtain ⟨t, bytes, runs, stays, table, aligned, grows, law⟩ := exec_encSym_bits enc entryWf coded
  refine ⟨t, runs, stays, table, aligned, before ++ bytes, ?_, ?_⟩
  · rw [grows, output, List.append_assoc]
  · rw [streamBits_append, List.append_assoc, law, ← List.append_assoc, spelled]

/-- The number of pending bits is that of the bits spelled beyond whole bytes (rule R125). -/
theorem EncOpen.nb_eq {s : State} (opened : EncOpen ct out bits s) : s.nb.toNat = bits.length % 8 := by
  obtain ⟨-, -, -, bytes, -, rfl⟩ := opened
  have := s.nb.isLt
  rw [List.length_append, streamBits_length, pendingBits_length]
  omega

/-- The padding that the bits spelled need is that of the pending bits (rules R16, R123). -/
theorem EncOpen.padCount_eq {s : State} (opened : EncOpen ct out bits s) :
    padCount bits.length = (8 - s.nb.toNat) % 8 := by
  rw [padCount, opened.nb_eq]

/-- Left-aligned and zero-filled pending bits are, as a byte, the bits and zeros after them (rule R34). -/
theorem byteBits_bb_eq {b : Block} (aligned : pendingWf b.nb b.bb) :
    byteBits b.bb = pendingBits b ++ List.replicate (8 - b.nb.toNat) false := by
  have zeros : (byteBits b.bb).drop b.nb.toNat = List.replicate (8 - b.nb.toNat) false := by
    rw [byteBits, bitString_drop, ← bitString_mod, aligned, bitString_zero_value]
  rw [← zeros, pendingBits, List.take_append_drop]

/-- `ENC.FIN` closes the session with the bits spelled zero-padded to whole bytes (rules R123, R125). -/
theorem EncOpen.encFin {s : State} (opened : EncOpen ct out bits s) :
    ∃ t, exec .encFin s = .next t ∧ EncClosed ct out bits t := by
  have padding := opened.padCount_eq
  obtain ⟨enc, rfl, aligned, bytes, output, spelled⟩ := opened
  refine ⟨_, exec_encFin_of_enc enc, ?_⟩
  by_cases empty : s.nb = 0#3
  · have whole : padCount bits.length = 0 := by rw [padding, empty]; rfl
    have nothing : pendingBits s.toBlock = [] := by rw [pendingBits, empty]; rfl
    rw [encFinEffect_of_nb_zero empty]
    refine ⟨rfl, rfl, rfl, whole.symm, bytes, output, ?_⟩
    rw [padded, whole, ← spelled, nothing]
    simp
  · have count : padCount bits.length = 8 - s.nb.toNat := by
      have := toNat_nb_pos empty
      rw [padding, Nat.mod_eq_of_lt (by omega)]
    rw [encFinEffect_of_nb_ne_zero empty]
    refine ⟨rfl, rfl, rfl, (toNat_padding empty).trans count.symm, bytes ++ [s.bb], ?_, ?_⟩
    · rw [← List.append_assoc, ← output]; rfl
    · rw [padded, count, ← spelled, streamBits_append, streamBits_cons, byteBits_bb_eq aligned]
      simp

/-! ## The session -/

/-- The symbols of a session append their codewords to the bits spelled, and the rest of the session goes on from there
(rule R125). -/
theorem leads_encSyms {syms : List Byte} {rest : List Instr} {R : State → Prop} (valid : tableWf Config.LMAX ct)
    (coded : ∀ sym ∈ syms, hasCode ct sym) (onward : Leads (EncOpen ct out (bits ++ codewords ct syms)) rest R) :
    Leads (EncOpen ct out bits) (syms.map .encSym ++ rest) R := by
  induction syms generalizing bits with
  | nil => simpa [codewords] using onward
  | cons sym syms ih =>
    obtain ⟨headCoded, tailCoded⟩ := List.forall_mem_cons.1 coded
    refine Leads.cons EncOpen.quietStable (fun s opened => opened.encSym (valid sym) headCoded) (ih tailCoded ?_)
    simpa [codewords] using onward

end

/-- Settles O26: the session's commands lead through `EncOpen` to `EncClosed`, and without `ENC.FIN` to `EncOpen`. -/
theorem encoderSessionPacksTheCodewords : Obligations.EncoderSessionPacksTheCodewords := by
  intro s syms idle valid coded
  have before : EncBefore s.ct s.out s := ⟨idle, rfl, rfl⟩
  have opens {rest : List Instr} {R : State → Prop} (onward : Leads (EncOpen s.ct s.out (codewords s.ct syms)) rest R) :
      Leads (EncBefore s.ct s.out) (.encStart :: (syms.map .encSym ++ rest)) R :=
    Leads.cons EncBefore.quietStable (fun _ => EncBefore.encStart) (leads_encSyms valid coded onward)
  refine ⟨fun ops session => ?closed, fun ops session => ?opened⟩
  case closed =>
    obtain ⟨t, runs, mode, table, done, pad, bytes, output, spelled⟩ :=
      opens (Leads.cons EncOpen.quietStable (fun _ => EncOpen.encFin) (Leads.nil EncClosed.quietStable)) s ops before
        session
    exact ⟨t, bytes, runs, output, spelled, pad, done, mode, table⟩
  case opened =>
    rw [← List.append_nil (syms.map Instr.encSym)] at session
    obtain ⟨t, runs, opened⟩ := opens (Leads.nil EncOpen.quietStable) s ops before session
    exact ⟨t, runs, opened.mode, opened.nb_eq⟩

end Sys2Proof.Machine
end

section
/-! PROOFS. The decoder commands one by one (rules R135 to R139, R142): what each does in the `MODE` that permits it,
what it leaves, and what it does not read. -/

namespace Sys2Proof.Machine

/-! ## The checks before the commands -/

theorem decStart_checkedFirst : checkedFirst .decStart .idle := checkedFirst_of_permittedIn nofun fun _ => rfl

theorem decByte_checkedFirst (byte : Byte) : checkedFirst (.decByte byte) .dec :=
  checkedFirst_of_permittedIn nofun fun _ => rfl

theorem decFin_checkedFirst : checkedFirst .decFin .dec := checkedFirst_of_permittedIn nofun fun _ => rfl

/-! ## `ShiftBit` -/

/-- Below 255 bits the accumulator takes one more bit whole (rules R35, R136). -/
theorem toNat_accPush {acc : CodeBits} {n : Nat} (x : Bool) (short : n < 255) (bound : acc.toNat < 2 ^ n) :
    (accPush acc x).toNat = acc.toNat * 2 + x.toNat := by
  have fits : acc.toNat * 2 + x.toNat < 2 ^ 255 :=
    calc acc.toNat * 2 + x.toNat < 2 ^ n * 2 := by have := x.toNat_lt; omega
      _ = 2 ^ (n + 1) := (pow_succ 2 n).symm
      _ ≤ 2 ^ 255 := Nat.pow_le_pow_right Nat.two_pos short
  rw [accPush, BitVec.toNat_ofNat, Nat.mod_eq_of_lt fits]

theorem toNat_add_one {n : BitVec 8} (short : n.toNat < 255) : (n + 1#8).toNat = n.toNat + 1 := by
  rw [BitVec.toNat_add_of_lt (Nat.succ_lt_succ short)]
  rfl

/-- Settles O30: the outcomes of `shiftBit_cases`, whose accumulator and length are the statement's numbers. -/
theorem shiftBitAccumulatesAndMatches : Obligations.ShiftBitAccumulatesAndMatches := by
  intro lmax x s legal lenBound accBound
  obtain ⟨-, atMost⟩ := legal
  refine ⟨fun full => if_pos full, fun room => ?shifts⟩
  have short : s.accLen.toNat < 255 := by omega
  refine ⟨_, _, toNat_accPush x short accBound, toNat_add_one short, ?_⟩
  obtain ⟨full, -⟩ | ⟨sym, -, found, shifts⟩ | ⟨-, found, shifts⟩ := shiftBit_cases lmax x s
  · exact absurd full room
  · rw [shifts, found]; rfl
  · rw [shifts, found]

/-! ## `DEC.START` -/

theorem exec_decStart_of_idle {s : State} (idle : s.mode = .idle) : exec .decStart s = .next (decStartEffect s) :=
  exec_permitted (by rw [idle]; decide) (by rw [idle]; rfl)

/-- Settles O31: the effect is `decStartEffect`, which is the statement's state. -/
theorem decStartOpensASession : Obligations.DecStartOpensASession :=
  ⟨fun _ => exec_decStart_of_idle, decStart_checkedFirst⟩

/-! ## `DEC.BYTE` -/

theorem exec_decByte_of_dec {s : State} (dec : s.mode = .dec) (byte : Byte) :
    exec (.decByte byte) s = .next (decByteEffect Config.LMAX byte s) :=
  exec_permitted (by rw [dec]; decide) (by rw [dec]; rfl)

/-- The first bits of a byte are those from bit 7 down (rule R70). -/
theorem byteBits_take (b : Byte) {k : Nat} (short : k ≤ 8) :
    (byteBits b).take k = (List.range k).map fun j => b.getLsbD (7 - j) := by
  rw [byteBits, bitString, ← List.map_take, List.take_range, Nat.min_eq_left short]
  rfl

theorem byteBits_eq (b : Byte) : byteBits b = [b.getLsbD 7, b.getLsbD 6, b.getLsbD 5, b.getLsbD 4, b.getLsbD 3,
    b.getLsbD 2, b.getLsbD 1, b.getLsbD 0] := rfl

section
variable {lmax : Nat} {byte : Byte} {s : State}

theorem decByteEffect_of_header (first : s.hdr = false) (small : byte.toNat ≤ 7) :
    decByteEffect lmax byte s = { s with dpad := byte.extractLsb' 0 3, hdr := true } :=
  (if_pos first).trans (if_neg (Nat.not_lt.2 small))

theorem decByteEffect_of_long_header (first : s.hdr = false) (large : byte.toNat > 7) :
    decByteEffect lmax byte s = raiseFault .padHdr (encode (.decByte byte)) s :=
  (if_pos first).trans (if_pos large)

theorem decByteEffect_of_not_held (hdr : s.hdr = true) (empty : s.holdV = false) :
    decByteEffect lmax byte s = holdByte byte s :=
  (if_neg (by simp [hdr])).trans (if_neg (by simp [empty]))

theorem decByteEffect_of_held (hdr : s.hdr = true) (held : s.holdV = true) :
    decByteEffect lmax byte s =
      shiftThen lmax (encode (.decByte byte)) (byteBits s.hold) (holdByte byte) s :=
  (if_neg (by simp [hdr])).trans (if_pos held)

theorem decFinEffect_of_no_header (missing : s.hdr = false) :
    decFinEffect lmax s = raiseFault .trunc (encode .decFin) s := if_pos missing

theorem decFinEffect_of_no_payload (hdr : s.hdr = true) (empty : s.holdV = false) (promised : s.dpad ≠ 0#3) :
    decFinEffect lmax s = raiseFault .trunc (encode .decFin) s :=
  ((if_neg (by simp [hdr])).trans (if_neg (by simp [empty]))).trans (if_pos promised)

theorem decFinEffect_of_empty (hdr : s.hdr = true) (empty : s.holdV = false) (unpadded : s.dpad = 0#3) :
    decFinEffect lmax s = decCloseEffect s :=
  ((if_neg (by simp [hdr])).trans (if_neg (by simp [empty]))).trans (if_neg (not_not.2 unpadded))

theorem decFinEffect_of_held (hdr : s.hdr = true) (held : s.holdV = true) :
    decFinEffect lmax s = shiftThen lmax (encode .decFin) (lastBits s) decCloseEffect s :=
  (if_neg (by simp [hdr])).trans (if_pos held)

theorem decCloseEffect_of_leftover (leftover : s.accLen ≠ 0#8) :
    decCloseEffect s = raiseFault .unmatched (encode .decFin) s := if_pos leftover

theorem decCloseEffect_of_clear (clear : s.accLen = 0#8) :
    decCloseEffect s = { s with hold := 0#8, holdV := false, mode := .idle, done := true } :=
  if_neg (not_not.2 clear)

end

/-- A padding header of at most 7 fits `DPAD` (rules R35, R138). -/
theorem toNat_headerPadding {byte : Byte} (small : byte.toNat ≤ 7) : (byte.extractLsb' 0 3).toNat = byte.toNat := by
  rw [BitVec.extractLsb'_toNat, Nat.shiftRight_zero, Nat.mod_eq_of_lt (by omega)]

section
variable {lmax : Nat} {w : Word} {bits : List Bool} {k : State → State} {s u : State}

/-- Where every bit was shifted, what follows begins in the state they left (rules R138, R139). -/
theorem shiftThen_of_shifted (shifted : (u, true) = shiftBits lmax bits s) : shiftThen lmax w bits k s = k u := by
  rw [shiftThen_eq, ← shifted, if_pos rfl]

/-- A bit that finds the accumulator full ends the command with `ACCOVF` in the state the bits before it left (rule
R136). -/
theorem shiftThen_of_refused (refused : (u, false) = shiftBits lmax bits s) :
    shiftThen lmax w bits k s = raiseFault .accOvf w u := by
  rw [shiftThen_eq, ← refused, if_neg nofun]

end

/-- Settles O32: the cases of `decByteEffect`, with the held byte's bits from bit 7 down. -/
theorem decByteTakesHeaderThenHolds : Obligations.DecByteTakesHeaderThenHolds := by
  refine fun byte => ⟨fun s dec => ?permitted, decByte_checkedFirst byte⟩
  rw [exec_decByte_of_dec dec]
  refine ⟨fun first small => ⟨_, toNat_headerPadding small, by rw [decByteEffect_of_header first small]⟩,
    fun first large => by rw [decByteEffect_of_long_header first large]; rfl,
    fun hdr empty => by rw [decByteEffect_of_not_held hdr empty]; rfl, fun hdr held u all shifts => ?shift⟩
  rw [decByteEffect_of_held hdr held, byteBits_eq]
  refine ⟨?shifted, ?refused⟩
  case shifted => rintro rfl; rw [shiftThen_of_shifted shifts]; rfl
  case refused => rintro rfl; rw [shiftThen_of_refused shifts]; rfl

/-! ## `DEC.FIN` -/

theorem exec_decFin_of_dec {s : State} (dec : s.mode = .dec) : exec .decFin s = .next (decFinEffect Config.LMAX s) :=
  exec_permitted (by rw [dec]; decide) (by rw [dec]; rfl)

theorem lastBits_eq (s : State) :
    lastBits s = (List.range (8 - s.dpad.toNat)).map fun j => s.hold.getLsbD (7 - j) :=
  byteBits_take s.hold (Nat.sub_le ..)

/-- Settles O33: the cases of `decFinEffect` and of the close that ends it. -/
theorem decFinDropsThePaddingAndCloses : Obligations.DecFinDropsThePaddingAndCloses := by
  refine ⟨fun s dec => ?permitted, decFin_checkedFirst⟩
  rw [exec_decFin_of_dec dec]
  refine ⟨fun missing => ?noHeader, fun hdr empty promised => ?noPayload, fun hdr empty unpadded clear => ?closes,
    fun hdr empty unpadded leftover => ?leftover, fun hdr held u all shifts => ?held⟩
  case noHeader => rw [decFinEffect_of_no_header missing]; rfl
  case noPayload => rw [decFinEffect_of_no_payload hdr empty promised]; rfl
  case closes => rw [decFinEffect_of_empty hdr empty unpadded, decCloseEffect_of_clear clear]
  case leftover => rw [decFinEffect_of_empty hdr empty unpadded, decCloseEffect_of_leftover leftover]; rfl
  case held =>
    rw [decFinEffect_of_held hdr held, lastBits_eq]
    refine ⟨?heldCloses, ?heldLeftover, ?refused⟩
    case heldCloses => rintro rfl clear; rw [shiftThen_of_shifted shifts, decCloseEffect_of_clear clear]
    case heldLeftover => rintro rfl leftover; rw [shiftThen_of_shifted shifts, decCloseEffect_of_leftover leftover]; rfl
    case refused => rintro rfl; rw [shiftThen_of_refused shifts]; rfl

/-! ## The padding bits -/

/-- Shifting does not read the held byte. -/
theorem shiftBits_withHold (lmax : Nat) (bits : List Bool) (s : State) (hold : Byte) :
    shiftBits lmax bits { s with hold := hold } =
      ({ (shiftBits lmax bits s).1 with hold := hold }, (shiftBits lmax bits s).2) := by
  rw [shiftBits_eq_scan, shiftBits_eq_scan]
  rfl

/-- Held bytes that agree from bit `DPAD` up shift the same bits (rules R139, R142). -/
theorem lastBits_withHold {s : State} {hold : Byte}
    (agree : ∀ j, s.dpad.toNat ≤ j → j < 8 → hold.getLsbD j = s.hold.getLsbD j) :
    lastBits { s with hold := hold } = lastBits s := by
  rw [lastBits_eq, lastBits_eq]
  refine List.map_congr_left fun j hj => agree (7 - j) ?_ ?_
  · have shifted : j < 8 - s.dpad.toNat := List.mem_range.1 hj
    omega
  · omega

/-- The close of a session reads nothing of the held byte and clears it (rule R139). -/
theorem decCloseEffect_withHold (s : State) (hold : Byte) :
    (decCloseEffect { s with hold := hold } = { decCloseEffect s with hold := hold } ∧
      (decCloseEffect s).mode = .fault) ∨
    decCloseEffect { s with hold := hold } = decCloseEffect s := by
  by_cases clear : s.accLen = 0#8
  · right
    rw [decCloseEffect_of_clear clear, decCloseEffect_of_clear (s := { s with hold := hold }) clear]
  · left
    rw [decCloseEffect_of_leftover clear, decCloseEffect_of_leftover (s := { s with hold := hold }) clear]
    exact ⟨rfl, rfl⟩

/-- `DEC.FIN` on a held byte that differs in its padding bits enters the same fault, or closes to the same state (rule
R142). -/
theorem decFinEffect_withHold {s : State} {hold : Byte} (hdr : s.hdr = true) (held : s.holdV = true)
    (agree : ∀ j, s.dpad.toNat ≤ j → j < 8 → hold.getLsbD j = s.hold.getLsbD j) (lmax : Nat) :
    (decFinEffect lmax { s with hold := hold } = { decFinEffect lmax s with hold := hold } ∧
      (decFinEffect lmax s).mode = .fault) ∨
    decFinEffect lmax { s with hold := hold } = decFinEffect lmax s := by
  rw [decFinEffect_of_held (s := { s with hold := hold }) hdr held, decFinEffect_of_held hdr held,
    lastBits_withHold agree, shiftThen_eq, shiftThen_eq, shiftBits_withHold]
  cases (shiftBits lmax (lastBits s) s).2
  · exact .inl ⟨rfl, rfl⟩
  · exact decCloseEffect_withHold _ hold

/-- Settles O36: the two ways of `decFinEffect_withHold`. -/
theorem paddingBitsAreDroppedUnseen : Obligations.PaddingBitsAreDroppedUnseen := by
  intro s hold dec hdr held agree
  have topDecoded : s.dpad.toNat ≤ 7 := Nat.le_of_lt_succ s.dpad.isLt
  refine ⟨agree 7 topDecoded (by decide), _, _, exec_decFin_of_dec dec,
    exec_decFin_of_dec (s := { s with hold := hold }) dec, ?_⟩
  obtain ⟨same, fault⟩ | same := decFinEffect_withHold hdr held agree Config.LMAX
  · rw [same]
    exact ⟨rfl, fun idle => absurd (fault.symm.trans idle) (by decide)⟩
  · rw [same]
    exact ⟨rfl, fun _ => rfl⟩

/-! ## What the decoder commands leave and do not read -/

/-- The decoder commands (rule R135). -/
abbrev decoderCommand (i : Instr) : Prop := i = .decStart ∨ (∃ byte, i = .decByte byte) ∨ i = .decFin

/-- Everything is as before but `MODE`, the registers of the fault, `DONE`, the decoder's registers and the output. -/
def sameButDecoder (s t : State) : Prop :=
  t = { s with mode := t.mode, done := t.done, err := t.err, errInfo := t.errInfo, hdr := t.hdr, dpad := t.dpad,
               holdV := t.holdV, hold := t.hold, accLen := t.accLen, acc := t.acc, out := t.out }

theorem sameButDecoder_trans {s t u : State} (first : sameButDecoder s t) (second : sameButDecoder t u) :
    sameButDecoder s u := by
  rw [sameButDecoder] at *
  rw [second, first]

theorem shiftBits_sameButDecoder (lmax : Nat) (bits : List Bool) (s : State) :
    sameButDecoder s (shiftBits lmax bits s).1 := by
  rw [shiftBits_eq_scan]
  rfl

theorem decCloseEffect_sameButDecoder (s : State) : sameButDecoder s (decCloseEffect s) := by
  rw [decCloseEffect]
  split <;> rfl

theorem shiftThen_sameButDecoder (lmax : Nat) (w : Word) (bits : List Bool) {k : State → State}
    (onward : ∀ s, sameButDecoder s (k s)) (s : State) : sameButDecoder s (shiftThen lmax w bits k s) := by
  refine sameButDecoder_trans (shiftBits_sameButDecoder lmax bits s) ?_
  rw [shiftThen_eq]
  split
  · exact onward _
  · rfl

theorem effectOf_sameButDecoder {i : Instr} (decoder : decoderCommand i) (s : State) :
    sameButDecoder s (effectOf i s) := by
  obtain rfl | ⟨byte, rfl⟩ | rfl := decoder
  · rfl
  · show sameButDecoder s (decByteEffect Config.LMAX byte s)
    rw [decByteEffect, decHeaderEffect]
    split_ifs
    · rfl
    · rfl
    · exact shiftThen_sameButDecoder _ _ _ (k := holdByte byte) (fun _ => rfl) s
    · rfl
  · show sameButDecoder s (decFinEffect Config.LMAX s)
    rw [decFinEffect]
    split_ifs
    · rfl
    · exact shiftThen_sameButDecoder _ _ _ decCloseEffect_sameButDecoder s
    · rfl
    · exact decCloseEffect_sameButDecoder s

theorem ne_rst_of_decoderCommand {i : Instr} (decoder : decoderCommand i) : i ≠ .rst := by
  obtain rfl | ⟨byte, rfl⟩ | rfl := decoder <;> nofun

/-- The write frame of the decoder commands (rule R135), however they end. -/
theorem exec_sameButDecoder {i : Instr} {s t : State} (decoder : decoderCommand i) (h : exec i s = .next t) :
    sameButDecoder s t := by
  obtain ⟨-, -, rfl⟩ | ⟨-, -, rfl⟩ | ⟨-, -, rfl⟩ | ⟨-, rst, -⟩ := exec_cases h
  · rfl
  · rfl
  · exact effectOf_sameButDecoder decoder s
  · exact absurd rst (ne_rst_of_decoderCommand decoder)

/-- The state `s` with the values that `u` holds in `CODE` and in the encoder's registers. -/
def withEncoderOf (u : Block) (s : State) : State := { s with code := u.code, nb := u.nb, pad := u.pad, bb := u.bb }

theorem decCloseEffect_withEncoderOf (u : Block) (s : State) :
    decCloseEffect (withEncoderOf u s) = withEncoderOf u (decCloseEffect s) := by
  rw [decCloseEffect, decCloseEffect, apply_ite (withEncoderOf u)]
  rfl

theorem shiftThen_withEncoderOf (lmax : Nat) (w : Word) (bits : List Bool) {k : State → State} (u : Block)
    (onward : ∀ s, k (withEncoderOf u s) = withEncoderOf u (k s)) (s : State) :
    shiftThen lmax w bits k (withEncoderOf u s) = withEncoderOf u (shiftThen lmax w bits k s) := by
  have shifts : shiftBits lmax bits (withEncoderOf u s) =
      (withEncoderOf u (shiftBits lmax bits s).1, (shiftBits lmax bits s).2) := by
    rw [shiftBits_eq_scan, shiftBits_eq_scan]
    rfl
  rw [shiftThen_eq, shiftThen_eq, apply_ite (withEncoderOf u), shifts, onward]
  rfl

theorem effectOf_withEncoderOf {i : Instr} (decoder : decoderCommand i) (u : Block) (s : State) :
    effectOf i (withEncoderOf u s) = withEncoderOf u (effectOf i s) := by
  obtain rfl | ⟨byte, rfl⟩ | rfl := decoder
  · rfl
  · show decByteEffect Config.LMAX byte (withEncoderOf u s) = withEncoderOf u (decByteEffect Config.LMAX byte s)
    rw [decByteEffect, decByteEffect, decHeaderEffect, decHeaderEffect,
      shiftThen_withEncoderOf (k := holdByte byte) _ _ _ u fun _ => rfl]
    simp only [apply_ite (withEncoderOf u)]
    rfl
  · show decFinEffect Config.LMAX (withEncoderOf u s) = withEncoderOf u (decFinEffect Config.LMAX s)
    rw [decFinEffect, decFinEffect, shiftThen_withEncoderOf _ _ _ u (decCloseEffect_withEncoderOf u),
      decCloseEffect_withEncoderOf]
    simp only [apply_ite (withEncoderOf u)]
    rfl

/-- The decoder commands do the same whatever `CODE` and the encoder's registers hold (rule R135). -/
theorem exec_withEncoderOf {i : Instr} {s t : State} (decoder : decoderCommand i) (h : exec i s = .next t) (u : Block) :
    exec i (withEncoderOf u s) = .next (withEncoderOf u t) := by
  have not_rst := ne_rst_of_decoderCommand decoder
  rw [exec_eq_issue not_rst] at h ⊢
  obtain ⟨inFault, h⟩ | ⟨outside, refused, h⟩ | ⟨outside, permitted, h⟩ := issue_cases h <;> cases h
  · exact issue_ignored inFault
  · exact issue_refused outside refused
  · rw [← effectOf_withEncoderOf decoder]
    exact issue_permitted outside permitted

/-- Settles O38: the write frame `sameButDecoder`, and the same answer with other values in what is not read. -/
theorem decoderCommandsFrame : Obligations.DecoderCommandsFrame := by
  refine ⟨⟨decStart_checkedFirst, decByte_checkedFirst, decFin_checkedFirst⟩, fun i s t decoder h => ⟨?frame, ?unread⟩⟩
  case frame =>
    have frame : sameButDecoder s t := exec_sameButDecoder decoder h
    rw [frame]
    exact ⟨rfl, rfl, rfl, rfl, rfl, rfl, rfl, rfl, rfl⟩
  case unread =>
    intro code nb pad bb
    exact exec_withEncoderOf decoder h { s.toBlock with code := code, nb := nb, pad := pad, bb := bb }

end Sys2Proof.Machine
end

section
/-! PROOFS. The session law of the decoder (rules R140, R141): what holds while a session is open, and what `DEC.FIN`
makes of it. -/

namespace Sys2Proof.Machine

/-! ## How far a session has shifted -/

/-- Shifting bits with the machine's `LMAX` from an empty accumulator (rules R136, R140). -/
abbrev freshScan (ct : Vector Entry 256) (bits : List Bool) : Scan := scan Config.LMAX ct bits 0#255 0#8

/-- The output since `out` and the accumulator are what shifting `bits` from an empty accumulator leaves. -/
structure ShiftedTo (ct : Vector Entry 256) (out : List Byte) (bits : List Bool) (s : State) : Prop where
  table : s.ct = ct
  output : s.out = out ++ (freshScan ct bits).matched
  acc : s.acc = (freshScan ct bits).acc
  accLen : s.accLen = (freshScan ct bits).accLen

/-- Shifting writes the accumulator and the output, and nothing else (rule R136). -/
theorem shiftBits_frame (lmax : Nat) (bits : List Bool) (s : State) :
    (shiftBits lmax bits s).1 = { s with out := (shiftBits lmax bits s).1.out, acc := (shiftBits lmax bits s).1.acc,
                                         accLen := (shiftBits lmax bits s).1.accLen } := by
  rw [shiftBits_eq_scan]
  rfl

/-- Shifting more bits goes on from where those before them led (rule R136). -/
theorem ShiftedTo.shiftBits {ct : Vector Entry 256} {out : List Byte} {before : List Bool} {s : State}
    (reached : ShiftedTo ct out before s) (whole : (freshScan ct before).allDone = true) (more : List Bool) :
    ShiftedTo ct out (before ++ more) (shiftBits Config.LMAX more s).1 ∧
      (shiftBits Config.LMAX more s).2 = (freshScan ct (before ++ more)).allDone := by
  obtain ⟨rfl, output, acc, accLen⟩ := reached
  have onward := scan_append Config.LMAX s.ct before more 0#255 0#8 whole
  rw [← acc, ← accLen] at onward
  rw [shiftBits_eq_scan]
  refine ⟨⟨rfl, ?_, ?_, ?_⟩, ?_⟩
  · rw [freshScan, onward, ← List.append_assoc, ← output]; rfl
  all_goals rw [freshScan, onward]

/-! ## The states of a session -/

/-- No session is open, with the table `ct`, the output `out` and the cause record `err`. -/
structure DecBefore (ct : Vector Entry 256) (out : List Byte) (err : BitVec 4) (s : State) : Prop where
  mode : s.mode = .idle
  table : s.ct = ct
  output : s.out = out
  cause : s.err = err

/-- A decode session is open and waits for its padding header (rule R137). -/
structure DecStarted (ct : Vector Entry 256) (out : List Byte) (err : BitVec 4) (s : State) : Prop where
  mode : s.mode = .dec
  cause : s.err = err
  header : s.hdr = false
  held : s.holdV = false
  last : s.hold = 0#8
  reached : ShiftedTo ct out [] s

/-- A decode session is open and has its padding header `h` (rule R138). -/
structure DecHeaded (err : BitVec 4) (h : Byte) (s : State) : Prop where
  mode : s.mode = .dec
  cause : s.err = err
  header : s.hdr = true
  padding : s.dpad.toNat = h.toNat

/-- A decode session with the header `h` has been fed the payload bytes `fed`: the last of them is held, and the bits of
those before it have been shifted (rules R138, R141). -/
structure DecOpen (ct : Vector Entry 256) (out : List Byte) (err : BitVec 4) (h : Byte) (fed : List Byte) (s : State) :
    Prop where
  headed : DecHeaded err h s
  held : s.holdV = !fed.isEmpty
  last : s.hold = fed.getLastD 0#8
  reached : ShiftedTo ct out (streamBits fed.dropLast) s
  whole : (freshScan ct (streamBits fed.dropLast)).allDone = true

/-- The block is in `FAULT` with this record and this output (rule R204). -/
structure DecFaulted (cause : Cause) (word : Word) (out : List Byte) (s : State) : Prop where
  mode : s.mode = .fault
  cause : s.err = cause.bits
  word : s.errInfo = word
  output : s.out = out

/-- A bit of `bits` found the accumulator full, with the symbols matched before it put out (rules R136, R140). -/
def DecOverflowed (ct : Vector Entry 256) (out : List Byte) (bits : List Bool) (s : State) : Prop :=
  (freshScan ct bits).allDone = false ∧ ∃ word, DecFaulted .accOvf word (out ++ (freshScan ct bits).matched) s

/-- A decode session with the header `h` after the payload bytes `fed`. -/
def DecFed (ct : Vector Entry 256) (out : List Byte) (err : BitVec 4) (h : Byte) (fed : List Byte) (s : State) : Prop :=
  DecOpen ct out err h fed s ∨ DecOverflowed ct out (streamBits fed.dropLast) s

/-- A decode session over the bits `bits` has ended: by `ACCOVF`, by `UNMATCHED`, or well (rule R140). -/
structure DecEnded (ct : Vector Entry 256) (out : List Byte) (err : BitVec 4) (bits : List Bool) (s : State) :
    Prop where
  output : s.out = out ++ (freshScan ct bits).matched
  overflow : (freshScan ct bits).allDone = false → s.mode = .fault ∧ s.err = 11#4
  unmatched : (freshScan ct bits).allDone = true → (freshScan ct bits).accLen ≠ 0#8 →
    s.mode = .fault ∧ s.err = 10#4 ∧ s.errInfo = encode .decFin
  closed : (freshScan ct bits).allDone = true → (freshScan ct bits).accLen = 0#8 →
    s.mode = .idle ∧ s.done = true ∧ s.err = err

section
variable {ct : Vector Entry 256} {out : List Byte} {err : BitVec 4} {h : Byte} {fed payload : List Byte}
  {bits : List Bool} {cause : Cause} {word : Word}

theorem ShiftedTo.quietStable : QuietStable (ShiftedTo ct out bits) :=
  fun _ _ _ ⟨table, output, acc, accLen⟩ => ⟨table, output, acc, accLen⟩

theorem DecBefore.quietStable : QuietStable (DecBefore ct out err) :=
  fun _ _ _ ⟨mode, table, output, cause⟩ => ⟨mode, table, output, cause⟩

theorem DecStarted.quietStable : QuietStable (DecStarted ct out err) :=
  fun s code reads ⟨mode, cause, header, held, last, reached⟩ =>
    ⟨mode, cause, header, held, last, ShiftedTo.quietStable s code reads reached⟩

theorem DecOpen.quietStable : QuietStable (DecOpen ct out err h fed) :=
  fun s code reads ⟨⟨mode, cause, header, padding⟩, held, last, reached, whole⟩ =>
    ⟨⟨mode, cause, header, padding⟩, held, last, ShiftedTo.quietStable s code reads reached, whole⟩

theorem DecFaulted.quietStable : QuietStable (DecFaulted cause word out) :=
  fun _ _ _ ⟨mode, cause, word, output⟩ => ⟨mode, cause, word, output⟩

theorem DecOverflowed.quietStable : QuietStable (DecOverflowed ct out bits) :=
  fun s code reads ⟨refused, word, faulted⟩ => ⟨refused, word, DecFaulted.quietStable s code reads faulted⟩

theorem DecFed.quietStable : QuietStable (DecFed ct out err h fed) :=
  fun s code reads => Or.imp (DecOpen.quietStable s code reads) (DecOverflowed.quietStable s code reads)

theorem DecEnded.quietStable : QuietStable (DecEnded ct out err bits) :=
  fun _ _ _ ⟨output, overflow, unmatched, closed⟩ => ⟨output, overflow, unmatched, closed⟩

/-! ## A fault ends a session -/

/-- Entering a fault records its cause and word (rule R204). -/
theorem decFaulted_raiseFault (cause : Cause) (word : Word) (s : State) :
    DecFaulted cause word s.out (raiseFault cause word s) := ⟨rfl, rfl, rfl, rfl⟩

/-- In `FAULT` every command but `RST` is ignored (rules R96, R207). -/
theorem exec_ignored {i : Instr} {s : State} (not_rst : i ≠ .rst) (inFault : s.mode = .fault) :
    exec i s = .next s := by
  rw [exec_eq_issue not_rst, issue_ignored inFault]

/-- After a fault the rest of a session without `RST` changes nothing (rule R207). -/
theorem DecFaulted.leads {cmds : List Instr} (not_rst : ∀ i ∈ cmds, i ≠ .rst) :
    Leads (DecFaulted cause word out) cmds (DecFaulted cause word out) := by
  induction cmds with
  | nil => exact Leads.nil DecFaulted.quietStable
  | cons i cmds ih =>
    obtain ⟨head, tail⟩ := List.forall_mem_cons.1 not_rst
    exact Leads.cons DecFaulted.quietStable (fun s faulted => ⟨s, exec_ignored head faulted.mode, faulted⟩) (ih tail)

/-- A session has no `RST` after its header (rule R140). -/
theorem ne_rst_of_mem_payload {payload : List Byte} :
    ∀ i ∈ payload.map Instr.decByte ++ [.decFin], i ≠ .rst := by
  intro i hi
  obtain hi | hi := List.mem_append.1 hi
  · obtain ⟨byte, -, rfl⟩ := List.mem_map.1 hi
    nofun
  · rw [List.mem_singleton.1 hi]
    nofun

/-- Once a bit is refused, the bits after it play no part (rule R140). -/
theorem DecOverflowed.append {s : State} (overflowed : DecOverflowed ct out bits s) (more : List Bool) :
    DecOverflowed ct out (bits ++ more) s := by
  rw [DecOverflowed, freshScan, scan_append_of_refused _ _ _ more _ _ overflowed.1]
  exact overflowed

/-- A bit refused ends the command that shifts it with `ACCOVF` (rule R136). -/
theorem ShiftedTo.overflowed {s : State} (reached : ShiftedTo ct out bits s)
    (refused : (freshScan ct bits).allDone = false) (word : Word) :
    DecOverflowed ct out bits (raiseFault .accOvf word s) := by
  refine ⟨refused, word, ?_⟩
  rw [← reached.output]
  exact decFaulted_raiseFault _ _ s

/-- Shifting leaves the session and its header (rule R138). -/
theorem DecHeaded.shiftBits {s : State} (headed : DecHeaded err h s) (lmax : Nat) (bits : List Bool) :
    DecHeaded err h (shiftBits lmax bits s).1 := by
  obtain ⟨mode, cause, header, padding⟩ := headed
  rw [shiftBits_frame]
  exact ⟨mode, cause, header, padding⟩

theorem streamBits_concat (bs : List Byte) (b : Byte) : streamBits (bs ++ [b]) = streamBits bs ++ byteBits b := by
  simp

/-! ## The commands of a session -/

/-- `DEC.START` opens a session that has shifted nothing yet (rule R137). -/
theorem DecBefore.decStart {s : State} (before : DecBefore ct out err s) :
    ∃ t, exec .decStart s = .next t ∧ DecStarted ct out err t := by
  obtain ⟨idle, rfl, rfl, rfl⟩ := before
  exact ⟨_, exec_decStart_of_idle idle, rfl, rfl, rfl, rfl, rfl, rfl, (List.append_nil _).symm, rfl, rfl⟩

/-- A padding header of at most 7 is taken (rule R138). -/
theorem DecStarted.decByte {s : State} (started : DecStarted ct out err s) (small : h.toNat ≤ 7) :
    ∃ t, exec (.decByte h) s = .next t ∧ DecFed ct out err h [] t := by
  obtain ⟨dec, cause, header, held, last, table, output, acc, accLen⟩ := started
  refine ⟨_, exec_decByte_of_dec dec h, .inl ?_⟩
  rw [decByteEffect_of_header header small]
  exact ⟨⟨dec, cause, rfl, toNat_headerPadding small⟩, held, last, ⟨table, output, acc, accLen⟩, rfl⟩

/-- A padding header above 7 raises `PADHDR` (rule R138). -/
theorem DecStarted.decByte_padHdr {s : State} (started : DecStarted ct out err s) (large : h.toNat > 7) :
    ∃ t, exec (.decByte h) s = .next t ∧ DecFaulted .padHdr (encode (.decByte h)) out t := by
  refine ⟨_, exec_decByte_of_dec started.mode h, ?_⟩
  have output : s.out = out := started.reached.output.trans (List.append_nil out)
  rw [decByteEffect_of_long_header started.header large, ← output]
  exact decFaulted_raiseFault _ _ s

/-- `DEC.BYTE` in an open session shifts the byte it held and holds the new one, unless a bit overflows (rules R138,
R141). -/
theorem DecOpen.decByte {s : State} (opened : DecOpen ct out err h fed s) (byte : Byte) :
    ∃ t, exec (.decByte byte) s = .next t ∧ DecFed ct out err h (fed ++ [byte]) t := by
  have holds {u : State} (headed : DecHeaded err h u) (reached : ShiftedTo ct out (streamBits fed) u)
      (whole : (freshScan ct (streamBits fed)).allDone = true) :
      DecOpen ct out err h (fed ++ [byte]) (holdByte byte u) := by
    obtain ⟨mode, cause, header, padding⟩ := headed
    obtain ⟨table, output, acc, accLen⟩ := reached
    refine ⟨⟨mode, cause, header, padding⟩, by simp, by simp, ?_, ?_⟩
    · rw [List.dropLast_concat]
      exact ⟨table, output, acc, accLen⟩
    · rwa [List.dropLast_concat]
  obtain ⟨headed, held, last, reached, whole⟩ := opened
  refine ⟨_, exec_decByte_of_dec headed.mode byte, ?_⟩
  obtain rfl | ⟨decoded, b, rfl⟩ := List.eq_nil_or_concat' fed
  · rw [decByteEffect_of_not_held headed.header held]
    exact .inl (holds headed reached whole)
  · rw [List.dropLast_concat] at reached whole
    rw [List.getLastD_concat] at last
    obtain ⟨reached, shifts⟩ := reached.shiftBits whole (byteBits b)
    rw [← streamBits_concat] at reached shifts
    rw [decByteEffect_of_held headed.header (held.trans (by simp)), shiftThen_eq, last, shifts]
    cases whole : (freshScan ct (streamBits (decoded ++ [b]))).allDone with
    | true => exact .inl (holds (headed.shiftBits _ _) reached whole)
    | false =>
      rw [DecFed, List.dropLast_concat]
      exact .inr (reached.overflowed whole _)

/-- After an overflow `DEC.BYTE` is ignored, and its byte plays no part (rule R140). -/
theorem DecOverflowed.decByte {s : State} (overflowed : DecOverflowed ct out (streamBits fed.dropLast) s)
    (byte : Byte) :
    ∃ t, exec (.decByte byte) s = .next t ∧ DecFed ct out err h (fed ++ [byte]) t := by
  obtain ⟨word, faulted⟩ := overflowed.2
  refine ⟨s, exec_ignored nofun faulted.mode, .inr ?_⟩
  rw [List.dropLast_concat]
  obtain rfl | ⟨decoded, b, rfl⟩ := List.eq_nil_or_concat' fed
  · exact overflowed
  · rw [streamBits_concat]
    rw [List.dropLast_concat] at overflowed
    exact overflowed.append _

theorem DecFed.decByte {s : State} (fed : DecFed ct out err h payload s) (byte : Byte) :
    ∃ t, exec (.decByte byte) s = .next t ∧ DecFed ct out err h (payload ++ [byte]) t :=
  fed.elim (·.decByte byte) (·.decByte byte)

/-! ## `DEC.FIN` -/

/-- The bits of the payload without the padding that the header promises (rules R139, R140). -/
abbrev payloadBits (h : Byte) (payload : List Byte) : List Bool :=
  (streamBits payload).take (8 * payload.length - h.toNat)

theorem payloadBits_nil (h : Byte) : payloadBits h [] = [] := List.take_nil

/-- They are the bits of the bytes before the last, and then those of the last without the padding. -/
theorem payloadBits_concat (small : h.toNat ≤ 7) (decoded : List Byte) (b : Byte) :
    payloadBits h (decoded ++ [b]) = streamBits decoded ++ (byteBits b).take (8 - h.toNat) := by
  have split : 8 * (decoded ++ [b]).length - h.toNat = (streamBits decoded).length + (8 - h.toNat) := by
    rw [List.length_append, List.length_singleton, streamBits_length]
    omega
  rw [payloadBits, streamBits_concat, split, List.take_length_add_append]

/-- An overflow of the session's bits is its end (rule R140). -/
theorem DecOverflowed.ended {s : State} (overflowed : DecOverflowed ct out bits s) : DecEnded ct out err bits s := by
  obtain ⟨refused, word, mode, cause, -, output⟩ := overflowed
  exact ⟨output, fun _ => ⟨mode, cause⟩, fun whole => absurd (refused.symm.trans whole) nofun,
    fun whole => absurd (refused.symm.trans whole) nofun⟩

/-- With every bit shifted the session ends in `UNMATCHED` if bits are left over, and well otherwise (rule R139). -/
theorem ShiftedTo.close {s : State} (reached : ShiftedTo ct out bits s)
    (whole : (freshScan ct bits).allDone = true) (cause : s.err = err) :
    DecEnded ct out err bits (decCloseEffect s) := by
  obtain ⟨-, output, -, accLen⟩ := reached
  by_cases clear : s.accLen = 0#8
  · rw [decCloseEffect_of_clear clear]
    exact ⟨output, fun refused => absurd (whole.symm.trans refused) nofun,
      fun _ leftover => absurd (accLen.symm.trans clear) leftover,
      fun _ _ => ⟨rfl, rfl, cause⟩⟩
  · rw [decCloseEffect_of_leftover clear]
    exact ⟨output, fun refused => absurd (whole.symm.trans refused) nofun, fun _ _ => ⟨rfl, rfl, rfl⟩,
      fun _ matched => absurd (accLen.trans matched) clear⟩

/-- `DEC.FIN` in an open session decodes the held byte without its padding, and ends the session (rule R139). -/
theorem DecOpen.decFin {s : State} (opened : DecOpen ct out err h payload s) (small : h.toNat ≤ 7)
    (kept : payload ≠ [] ∨ h = 0#8) :
    ∃ t, exec .decFin s = .next t ∧ DecEnded ct out err (payloadBits h payload) t := by
  obtain ⟨headed, held, last, reached, whole⟩ := opened
  refine ⟨_, exec_decFin_of_dec headed.mode, ?_⟩
  obtain rfl | ⟨decoded, b, rfl⟩ := List.eq_nil_or_concat' payload
  · have unpadded : s.dpad = 0#3 := by
      obtain rfl := kept.resolve_left (not_not.2 rfl)
      exact BitVec.eq_of_toNat_eq headed.padding
    rw [decFinEffect_of_empty headed.header held unpadded]
    rw [payloadBits_nil]
    exact reached.close whole headed.cause
  · rw [List.dropLast_concat] at reached whole
    rw [List.getLastD_concat] at last
    obtain ⟨reached, shifts⟩ := reached.shiftBits whole (lastBits s)
    rw [lastBits, last, headed.padding, ← payloadBits_concat small] at reached shifts
    rw [decFinEffect_of_held headed.header (held.trans (by simp)), shiftThen_eq, lastBits, last, headed.padding, shifts]
    cases whole : (freshScan ct (payloadBits h (decoded ++ [b]))).allDone with
    | true => exact reached.close whole (headed.shiftBits _ _).cause
    | false => exact (reached.overflowed whole _).ended

/-- After an overflow `DEC.FIN` is ignored, and the session has ended with it (rule R140). -/
theorem DecOverflowed.decFin {s : State} (overflowed : DecOverflowed ct out (streamBits payload.dropLast) s)
    (small : h.toNat ≤ 7) : ∃ t, exec .decFin s = .next t ∧ DecEnded ct out err (payloadBits h payload) t := by
  obtain ⟨word, faulted⟩ := overflowed.2
  refine ⟨s, exec_ignored nofun faulted.mode, ?_⟩
  obtain rfl | ⟨decoded, b, rfl⟩ := List.eq_nil_or_concat' payload
  · rw [payloadBits_nil]
    exact overflowed.ended
  · rw [payloadBits_concat small]
    rw [List.dropLast_concat] at overflowed
    exact (overflowed.append _).ended

theorem DecFed.decFin {s : State} (fed : DecFed ct out err h payload s) (small : h.toNat ≤ 7)
    (kept : payload ≠ [] ∨ h = 0#8) :
    ∃ t, exec .decFin s = .next t ∧ DecEnded ct out err (payloadBits h payload) t :=
  fed.elim (·.decFin small kept) (·.decFin small)

/-- `DEC.FIN` without the payload byte whose padding the header promised raises `TRUNC` (rule R139). -/
theorem DecFed.decFin_trunc {s : State} (fed : DecFed ct out err h [] s) (promised : h ≠ 0#8) :
    ∃ t, exec .decFin s = .next t ∧ DecFaulted .trunc (encode .decFin) out t := by
  obtain ⟨headed, held, -, reached, -⟩ | ⟨refused, -⟩ := fed
  · have padded : s.dpad ≠ 0#3 := by
      intro zero
      refine promised (BitVec.eq_of_toNat_eq ?_)
      rw [← headed.padding, zero]
      rfl
    have output : s.out = out := reached.output.trans (List.append_nil out)
    refine ⟨_, exec_decFin_of_dec headed.mode, ?_⟩
    rw [decFinEffect_of_no_payload headed.header held padded, ← output]
    exact decFaulted_raiseFault _ _ s
  · cases refused

/-! ## The session -/

/-- The payload bytes of a session are fed one after another, and the rest of the session goes on from there (rule
R140). -/
theorem leads_decBytes {fed bytes : List Byte} {rest : List Instr} {R : State → Prop}
    (onward : Leads (DecFed ct out err h (fed ++ bytes)) rest R) :
    Leads (DecFed ct out err h fed) (bytes.map .decByte ++ rest) R := by
  induction bytes generalizing fed with
  | nil => simpa using onward
  | cons byte bytes ih =>
    exact Leads.cons DecFed.quietStable (fun _ fed => fed.decByte byte) (ih (by simpa using onward))

/-- A session with a header of at most 7 leads to the state after its payload bytes (rules R137, R138). -/
theorem leads_decFed {payload : List Byte} {rest : List Instr} {R : State → Prop} (small : h.toNat ≤ 7)
    (onward : Leads (DecFed ct out err h payload) rest R) :
    Leads (DecBefore ct out err) (.decStart :: .decByte h :: (payload.map .decByte ++ rest)) R :=
  Leads.cons DecBefore.quietStable (fun _ => DecBefore.decStart)
    (Leads.cons DecStarted.quietStable (fun _ started => started.decByte small) (leads_decBytes onward))

/-- A session with a header above 7 ends in `PADHDR` (rule R138). -/
theorem leads_padHdr (payload : List Byte) (large : h.toNat > 7) :
    Leads (DecBefore ct out err) (decSession h payload) (DecFaulted .padHdr (encode (.decByte h)) out) :=
  Leads.cons DecBefore.quietStable (fun _ => DecBefore.decStart)
    (Leads.cons DecStarted.quietStable (fun _ started => started.decByte_padHdr large)
      (DecFaulted.leads ne_rst_of_mem_payload))

/-- A session without a payload that its header promised ends in `TRUNC` (rule R139). -/
theorem leads_trunc (small : h.toNat ≤ 7) (promised : h ≠ 0#8) :
    Leads (DecBefore ct out err) (decSession h []) (DecFaulted .trunc (encode .decFin) out) :=
  leads_decFed (payload := []) small
    (Leads.cons DecFed.quietStable (fun _ fed => fed.decFin_trunc promised) (Leads.nil DecFaulted.quietStable))

/-- Every other session ends as shifting its bits says (rule R140). -/
theorem leads_decEnded {payload : List Byte} (small : h.toNat ≤ 7) (kept : payload ≠ [] ∨ h = 0#8) :
    Leads (DecBefore ct out err) (decSession h payload) (DecEnded ct out err (payloadBits h payload)) :=
  leads_decFed small
    (Leads.cons DecFed.quietStable (fun _ fed => fed.decFin small kept) (Leads.nil DecEnded.quietStable))

end

/-- Settles O34: the session leads to one of its three ends, and without `DEC.FIN` to `DecFed`. -/
theorem decoderSessionRunsShiftBit : Obligations.DecoderSessionRunsShiftBit := by
  intro s h payload idle
  have before : DecBefore s.ct s.out s.err s := ⟨idle, rfl, rfl, rfl⟩
  simp only [shiftBits_eq_scan]
  refine ⟨fun ops session => ?ends, fun ops small session => ?fed⟩
  case ends =>
    by_cases large : h.toNat > 7
    · obtain ⟨t, runs, mode, cause, word, output⟩ := leads_padHdr payload large s ops before session
      exact ⟨t, runs, fun _ => ⟨mode, cause, word, output⟩, fun small => absurd large (Nat.not_lt.2 small),
        fun small => absurd large (Nat.not_lt.2 small)⟩
    have small : h.toNat ≤ 7 := Nat.not_lt.1 large
    by_cases kept : payload ≠ [] ∨ h = 0#8
    · obtain ⟨t, runs, output, overflow, unmatched, closed⟩ := leads_decEnded small kept s ops before session
      exact ⟨t, runs, fun large => absurd large (Nat.not_lt.2 small),
        fun _ empty promised => absurd kept (not_or.2 ⟨not_not.2 empty, promised⟩),
        fun _ _ => ⟨output, overflow, unmatched, closed⟩⟩
    · obtain ⟨empty, promised⟩ := not_or.1 kept
      obtain rfl := not_not.1 empty
      obtain ⟨t, runs, mode, cause, word, output⟩ := leads_trunc small promised s ops before session
      exact ⟨t, runs, fun large => absurd large (Nat.not_lt.2 small), fun _ _ _ => ⟨mode, cause, word, output⟩,
        fun _ kept' => absurd kept' kept⟩
  case fed =>
    rw [← List.append_nil (payload.map Instr.decByte)] at session
    obtain ⟨t, runs, fed⟩ := leads_decFed small (Leads.nil DecFed.quietStable) s ops before session
    refine ⟨t, runs, ?_⟩
    obtain ⟨headed, held, last, reached, whole⟩ | ⟨refused, word, faulted⟩ := fed
    · exact ⟨reached.output, fun refused => absurd (whole.symm.trans refused) nofun,
        fun _ => ⟨headed.mode, reached.acc, reached.accLen, held, last⟩⟩
    · exact ⟨faulted.output, fun _ => ⟨faulted.mode, faulted.cause⟩,
        fun whole => absurd (whole.symm.trans refused) nofun⟩

end Sys2Proof.Machine
end

section
/-! PROOFS. The decoder as the inverse of the encoder (rule R144): where no codeword begins another
(`prefixFree`), shifting codewords emits their symbols. -/

namespace Sys2Proof.Machine

/-- Where no codeword begins another a codeword is found as its own symbol (rules R67, R144). -/
theorem lookup_codeword {ct : Vector Entry 256} (valid : tableWf Config.LMAX ct) (free : prefixFree ct) {sym : Byte}
    (coded : hasCode ct sym) (short : (entryAt ct sym).bits.length ≤ 255) :
    lookup ct (accOf (entryAt ct sym).bits) (lenOf (entryAt ct sym).bits) = some sym := by
  refine (lookup_accOf_some valid short).2 ⟨rfl, fun other lower same => ?_⟩
  have otherCoded : hasCode ct other := by rw [hasCode_iff, same, ← hasCode_iff]; exact coded
  have apart : other ≠ sym := fun eq => absurd lower (by rw [eq]; exact lt_irrefl _)
  exact free other sym apart otherCoded coded (same ▸ List.prefix_rfl)

/-- Where no codeword begins another nothing is found before a codeword is whole (rules R67, R144). -/
theorem lookup_incomplete {ct : Vector Entry 256} (valid : tableWf Config.LMAX ct) (free : prefixFree ct) {sym : Byte}
    (coded : hasCode ct sym) {start rest : List Bool} (split : start ++ rest = (entryAt ct sym).bits)
    (begun : start ≠ []) (more : rest ≠ []) (short : start.length ≤ 255) :
    lookup ct (accOf start) (lenOf start) = none := by
  refine (lookup_accOf_none valid short).2 fun other same => ?_
  have otherCoded : hasCode ct other := by rw [hasCode_iff, same]; exact begun
  have apart : other ≠ sym := by
    rintro rfl
    exact more (List.append_right_eq_self.1 (split.trans same))
  refine free other sym apart otherCoded coded ?_
  rw [same, ← split]
  exact List.prefix_append start rest

theorem bits_length_le (ct : Vector Entry 256) (sym : Byte) : (entryAt ct sym).bits.length ≤ 255 :=
  (Entry.bits_length _).trans_le (len_le_LMAX _)

section
variable {ct : Vector Entry 256} (valid : tableWf Config.LMAX ct) (free : prefixFree ct)
include valid free

/-- Shifting what is left of a codeword emits its symbol and clears the accumulator (rules R136, R144). -/
theorem scan_codeword_rest {sym : Byte} (coded : hasCode ct sym) {start rest : List Bool}
    (split : start ++ rest = (entryAt ct sym).bits) (more : rest ≠ []) (bits : List Bool) :
    scan Config.LMAX ct (rest ++ bits) (accOf start) (lenOf start) =
      { freshScan ct bits with matched := sym :: (freshScan ct bits).matched } := by
  induction rest generalizing start with
  | nil => exact absurd rfl more
  | cons x rest ih =>
    have split' : start ++ [x] ++ rest = (entryAt ct sym).bits := by rw [← split]; simp
    have short : start.length + (rest.length + 1) ≤ 255 := by
      have := bits_length_le ct sym
      rwa [← split, List.length_append, List.length_cons] at this
    by_cases whole : rest = []
    · subst whole
      rw [List.append_nil] at split'
      refine scan_accOf_some (by omega) ?_ bits
      rw [split']
      exact lookup_codeword valid free coded (bits_length_le ct sym)
    · have unmatched := lookup_incomplete valid free coded split' (by simp) whole (by simp; omega)
      rw [List.cons_append, scan_accOf_none (by omega) unmatched]
      exact ih split' whole

/-- Shifting the codewords of a symbol sequence emits the sequence, and nothing is left over (rule R144). -/
theorem freshScan_codewords {syms : List Byte} (coded : ∀ sym ∈ syms, hasCode ct sym) :
    freshScan ct (codewords ct syms) = ⟨syms, 0#255, 0#8, true⟩ := by
  induction syms with
  | nil => rfl
  | cons sym syms ih =>
    obtain ⟨headCoded, tailCoded⟩ := List.forall_mem_cons.1 coded
    have first := scan_codeword_rest valid free headCoded (start := []) rfl (hasCode_iff.1 headCoded)
      (codewords ct syms)
    rw [ih tailCoded] at first
    exact first

end

/-- The bits of a padded payload without its padding are the bits that were padded (rules R140, R173). -/
theorem payloadBits_padded {h : Byte} {bytes : List Byte} {bits : List Bool} (spelled : streamBits bytes = padded bits)
    (padding : h.toNat = padCount bits.length) : payloadBits h bytes = bits := by
  have total : 8 * bytes.length = bits.length + padCount bits.length := by
    rw [← streamBits_length, spelled, padded_length]
  rw [payloadBits, spelled, total, padding, Nat.add_sub_cancel, padded, List.take_left]

/-- A padding count promises a byte to pad (rule R173). -/
theorem ne_nil_or_header_zero {h : Byte} {bytes : List Byte} {bits : List Bool}
    (spelled : streamBits bytes = padded bits) (padding : h.toNat = padCount bits.length) :
    bytes ≠ [] ∨ h = 0#8 := by
  by_cases empty : bytes = []
  · right
    have nothing : bits = [] := by rw [← payloadBits_padded spelled padding, empty, payloadBits_nil]
    exact BitVec.eq_of_toNat_eq (by rw [padding, nothing]; rfl)
  · exact .inl empty

/-- Settles O35: the encoder's session spells the codewords, and the decoder's session shifts them. -/
theorem decoderInvertsEncoder : Obligations.DecoderInvertsEncoder := by
  intro s t u syms encOps decOps idle valid free coded encoding encRuns uIdle sameTable decoding
  obtain ⟨t', bytes, runs, output, spelled, pad, -⟩ :=
    (encoderSessionPacksTheCodewords s syms idle valid coded).1 encOps encoding
  cases encRuns.symm.trans runs
  have padding : (t.pad.setWidth 8).toNat = padCount (codewords s.ct syms).length :=
    (BitVec.toNat_setWidth_of_le (by decide)).trans pad
  rw [emittedSince_of_append output] at decoding
  have before : DecBefore s.ct u.out u.err u := ⟨uIdle, sameTable, rfl, rfl⟩
  obtain ⟨v, runs, output, -, -, closed⟩ :=
    leads_decEnded (padding.trans_le (padCount_le _)) (ne_nil_or_header_zero spelled padding) u decOps before decoding
  rw [payloadBits_padded spelled padding, freshScan_codewords valid free coded] at output closed
  obtain ⟨mode, done, -⟩ := closed rfl rfl
  exact ⟨v, runs, output, mode, done⟩

end Sys2Proof.Machine
end

section
/-! PROOFS. Decoding by the table is walking the tree (rule R145): a search succeeds exactly when the path of the
accumulated bits reaches a leaf. -/

namespace Sys2Proof.Machine

/-! ## Walking one edge -/

theorem walkTree_of_leaf {l r : CodeTree} {b : Bool} {sym : Byte} (reached : (if b then r else l) = .leaf sym)
    (root : CodeTree) (bs : List Bool) :
    walkTree root (.node l r) (b :: bs) = (sym :: (walkTree root root bs).1, (walkTree root root bs).2) := by
  simp only [walkTree, reached]

theorem walkTree_of_node {l r l' r' : CodeTree} {b : Bool} (reached : (if b then r else l) = .node l' r')
    (root : CodeTree) (bs : List Bool) : walkTree root (.node l r) (b :: bs) = walkTree root (.node l' r') bs := by
  simp only [walkTree, reached]

/-- One edge further along a path (rule R98). -/
theorem CodeTree.follow_concat {t l r : CodeTree} {w : List Bool} (reached : t.follow w = some (.node l r)) (b : Bool) :
    t.follow (w ++ [b]) = some (if b then r else l) := by
  rw [CodeTree.follow_append, reached]
  exact CodeTree.follow_nil _

/-- A path to an internal node of a tree with distinct leaves has room for one more bit: there are 256 symbols, and two
leaves at least below the node (rules R2, R171). -/
theorem length_lt_of_follow_node {t l r : CodeTree} {w : List Bool} (distinct : t.symbols.Nodup)
    (reached : t.follow w = some (.node l r)) : w.length < 255 := by
  have atMost := length_le_of_nodup distinct
  have size := CodeTree.follow_size reached
  have left := l.symbols_pos
  have right := r.symbols_pos
  rw [CodeTree.symbols, List.length_append] at size
  omega

/-! ## A tree of two or more leaves -/

section
variable {ct : Vector Entry 256} {l r : CodeTree} (holds : holdsCodes ct (CodeTree.node l r).codes)
include holds

/-- In the table of a tree a symbol's codeword is the path to its leaf (rules R145, R169). -/
theorem bits_eq_iff_follow {sym : Byte} {w : List Bool} (nonempty : w ≠ []) :
    (entryAt ct sym).bits = w ↔ (CodeTree.node l r).follow w = some (.leaf sym) := by
  obtain ⟨stored, only⟩ := holds
  constructor
  · rintro rfl
    obtain ⟨p, mem, rfl⟩ := only sym (hasCode_iff.2 nonempty)
    obtain ⟨path, eq, reached⟩ := (CodeTree.mem_paths _ _ _).1 mem
    rw [(stored p mem).2, eq]
    exact reached
  · intro reached
    exact (stored (sym, w) ((CodeTree.mem_paths _ _ _).2 ⟨w, rfl, reached⟩)).2

variable (valid : tableWf Config.LMAX ct)
include valid

/-- The search finds the symbol of the leaf that the path reaches (rule R145). -/
theorem lookup_of_follow_leaf {sym : Byte} {w : List Bool} (nonempty : w ≠ []) (short : w.length ≤ 255)
    (reached : (CodeTree.node l r).follow w = some (.leaf sym)) : lookup ct (accOf w) (lenOf w) = some sym := by
  refine (lookup_accOf_some valid short).2 ⟨(bits_eq_iff_follow holds nonempty).2 reached, fun other lower same => ?_⟩
  have alsoReached := (bits_eq_iff_follow holds nonempty).1 same
  cases reached.symm.trans alsoReached
  exact lt_irrefl _ lower

/-- The search finds nothing while the path reaches an internal node (rule R145). -/
theorem lookup_of_follow_node {l' r' : CodeTree} {w : List Bool} (nonempty : w ≠ []) (short : w.length ≤ 255)
    (reached : (CodeTree.node l r).follow w = some (.node l' r')) : lookup ct (accOf w) (lenOf w) = none := by
  refine (lookup_accOf_none valid short).2 fun sym same => ?_
  cases reached.symm.trans ((bits_eq_iff_follow holds nonempty).1 same)

end

/-- What shifting bits leaves is what walking the tree gives: the same symbols, and an accumulator that holds the path
to the subtree reached, an internal node (rule R145). -/
structure AgreesWithWalk (root : CodeTree) (scanned : Scan) (walked : List Byte × CodeTree) : Prop where
  emitted : scanned.matched = walked.1
  whole : scanned.allDone = true
  path : ∃ w : List Bool, w.length ≤ 255 ∧ scanned.acc = accOf w ∧ scanned.accLen = lenOf w ∧
    root.follow w = some walked.2
  internal : ∃ a b, walked.2 = .node a b

/-- Shifting bits from an accumulator that holds a path goes on as walking from the subtree at its end (rule R145). -/
theorem scan_agreesWithWalk {ct : Vector Entry 256} {l r : CodeTree} (distinct : (CodeTree.node l r).symbols.Nodup)
    (valid : tableWf Config.LMAX ct) (holds : holdsCodes ct (CodeTree.node l r).codes) (bits : List Bool)
    {w : List Bool} {a b : CodeTree} (reached : (CodeTree.node l r).follow w = some (.node a b)) :
    AgreesWithWalk (.node l r) (scan Config.LMAX ct bits (accOf w) (lenOf w))
      (walkTree (.node l r) (.node a b) bits) := by
  have room := length_lt_of_follow_node distinct reached
  induction bits generalizing w a b with
  | nil => exact ⟨rfl, rfl, ⟨w, room.le, rfl, rfl, reached⟩, a, b, rfl⟩
  | cons x xs ih =>
    have nonempty : w ++ [x] ≠ [] := by simp
    have short : (w ++ [x]).length ≤ 255 := by simpa using room
    have edge := CodeTree.follow_concat reached x
    cases child : (if x then b else a) with
    | leaf sym =>
      rw [child] at edge
      rw [scan_accOf_some room (lookup_of_follow_leaf holds valid nonempty short edge), walkTree_of_leaf child]
      obtain ⟨emitted, whole, path, internal⟩ := ih (w := []) rfl (by decide)
      exact ⟨congrArg (sym :: ·) emitted, whole, path, internal⟩
    | node a' b' =>
      rw [child] at edge
      rw [scan_accOf_none room (lookup_of_follow_node holds valid nonempty short edge), walkTree_of_node child]
      exact ih edge (length_lt_of_follow_node distinct edge)

/-! ## A lone leaf -/

/-- While no codeword begins with the accumulated bits, nothing is emitted ever (rules R113, R145). -/
theorem scan_matched_nil {ct : Vector Entry 256} (valid : tableWf Config.LMAX ct) (bits : List Bool) {w : List Bool}
    (short : w.length ≤ 255) (strange : ∀ sym, ¬ w <+: (entryAt ct sym).bits) :
    (scan Config.LMAX ct bits (accOf w) (lenOf w)).matched = [] := by
  induction bits generalizing w with
  | nil => rfl
  | cons x xs ih =>
    by_cases full : w.length = 255
    · rw [scan_full (lmax := Config.LMAX) ((lenOf_toNat short).trans full)]
    · have longer : (w ++ [x]).length ≤ 255 := by simp; omega
      have strange' (sym : Byte) : ¬ w ++ [x] <+: (entryAt ct sym).bits :=
        fun begins => strange sym ((List.prefix_append w [x]).trans begins)
      have unmatched : lookup ct (accOf (w ++ [x])) (lenOf (w ++ [x])) = none :=
        (lookup_accOf_none valid longer).2 fun sym same => strange' sym (same ▸ List.prefix_rfl)
      rw [scan_accOf_none (by omega) unmatched]
      exact ih longer strange'

section
variable {ct : Vector Entry 256} {sym : Byte} (valid : tableWf Config.LMAX ct)
  (holds : holdsCodes ct (CodeTree.leaf sym).codes)
include holds

/-- The table of a lone leaf holds the codeword "0" and no other (rules R145, R170). -/
theorem bits_of_lone_leaf (other : Byte) :
    (entryAt ct other).bits = if other = sym then [false] else [] := by
  obtain ⟨stored, only⟩ := holds
  split
  case isTrue same =>
    rw [same]
    exact (stored (sym, [false]) (List.mem_singleton_self _)).2
  case isFalse apart =>
    by_contra nonempty
    obtain ⟨p, mem, rfl⟩ := only other (hasCode_iff.2 nonempty)
    rw [CodeTree.codes, List.mem_singleton] at mem
    exact apart (by rw [mem])

include valid

/-- With the table of a lone leaf the bit 0 emits its symbol (rule R145). -/
theorem shiftBit_false_of_lone_leaf {s : State} (table : s.ct = ct) (acc : s.acc = 0#255) (accLen : s.accLen = 0#8) :
    shiftBit Config.LMAX false s = some { emit [sym] s with acc := 0#255, accLen := 0#8 } := by
  have found : lookup ct (accOf [false]) (lenOf [false]) = some sym := by
    refine (lookup_accOf_some valid (by decide)).2 ⟨?_, fun other lower => ?_⟩
    · rw [bits_of_lone_leaf holds, if_pos rfl]
    · rw [bits_of_lone_leaf holds, if_neg (by rintro rfl; exact lt_irrefl _ lower)]
      nofun
  rw [shiftBit, table, acc, accLen]
  have pushed : accPush 0#255 false = accOf [false] := accPush_accOf (w := []) false (by decide)
  have longer : 0#8 + 1#8 = lenOf [false] := lenOf_add_one [] false
  rw [pushed, longer, found]
  rfl

/-- With the table of a lone leaf nothing is emitted ever after a bit 1 (rule R145). -/
theorem freshScan_true_of_lone_leaf (bits : List Bool) : (freshScan ct (true :: bits)).matched = [] := by
  have strange (other : Byte) : ¬ [true] <+: (entryAt ct other).bits := by
    rw [bits_of_lone_leaf holds]
    split <;> simp
  have unmatched : lookup ct (accOf [true]) (lenOf [true]) = none :=
    (lookup_accOf_none valid (by decide)).2 fun other same => strange other (same ▸ List.prefix_rfl)
  have first := scan_accOf_none (w := []) (by decide) unmatched bits
  exact (congrArg Scan.matched first).trans (scan_matched_nil valid bits (by decide) strange)

end

/-- Settles O50: the scan agrees with the walk from the root, and a lone leaf's table has the one codeword "0". -/
theorem tableDecodingIsTreeWalking : Obligations.TableDecodingIsTreeWalking := by
  refine ⟨fun l r s bits distinct valid holds acc accLen => ?tree, fun sym s bits valid holds acc accLen => ?leaf⟩
  case tree =>
    obtain ⟨emitted, whole, ⟨w, short, heldAcc, heldLen, reached⟩, internal⟩ :=
      scan_agreesWithWalk distinct valid holds bits (w := []) rfl
    rw [shiftBits_eq_scan, acc, accLen]
    refine ⟨congrArg (s.out ++ ·) emitted, whole, ?_, internal⟩
    rw [accBits_of short heldAcc heldLen]
    exact reached
  case leaf =>
    refine ⟨shiftBit_false_of_lone_leaf valid holds rfl acc accLen, ?_⟩
    rw [shiftBits_eq_scan, acc, accLen]
    have silent := freshScan_true_of_lone_leaf valid holds bits
    exact (congrArg (s.out ++ ·) silent).trans (List.append_nil _)

end Sys2Proof.Machine
end

section
/-! PROOFS. How `MODE` moves: the permission and transition table (rules R158, R203), and the two commands that
every `MODE` permits, `NOP` and `RST` (rules R156, R157). -/

namespace Sys2Proof.Machine

/-! ## `NOP` and `RST` -/

/-- A legal word whose operation code takes no operand is the command's one word, so another word with that code is
illegal (rules R92, R93). -/
theorem legalWord_eq_false_of_ne {v w : Word} (operandless : fieldOpc v ∉ [0x11#8, 0x21#8, 0x31#8])
    (rest : fieldA v = 0#8 ∧ fieldB v = 0#8 ∧ fieldZ v = 0#8) (opc : fieldOpc w = fieldOpc v) (other : w ≠ v) :
    legalWord w = false := by
  rw [← opc] at operandless
  refine Bool.eq_false_iff.2 fun legal => ?_
  obtain ⟨-, z, a, b⟩ := (legalWord_iff_fields w).1 legal
  obtain ⟨restA, restB, restZ⟩ := rest
  have noB : fieldOpc w ≠ 0x11#8 := fun ctSet => operandless (by rw [ctSet]; decide)
  exact other (word_eq_of_fields opc ((a.resolve_right operandless).trans restA.symm)
    ((b.resolve_right noB).trans restB.symm) (z.trans restZ.symm))

/-- Settles O15: `RST` is `softReset`, its word is its encoding, and any other word with `OPC` 0x01 is illegal. -/
theorem softResetKeepsOnlyTheTable : Obligations.SoftResetKeepsOnlyTheTable := by
  refine ⟨exec_rst, execWord_encode .rst, fun w s opc other => ?nearMiss⟩
  have illegal : legalWord w = false := legalWord_eq_false_of_ne (v := 0x00000001#32) (by decide) (by decide) opc other
  exact ⟨(decodeWord_eq_none_iff w).2 illegal, execWord_illegal illegal, execWord_illegal_in_fault illegal⟩

theorem exec_nop (s : State) : exec .nop s = .next s := rfl

/-- Settles O16: the word of `NOP` is its encoding, and any other word with `OPC` 0x00 is illegal. -/
theorem nopChangesNothing : Obligations.NopChangesNothing := by
  refine ⟨exec_nop, execWord_encode .nop, fun w s opc other => ?nearMiss⟩
  have illegal : legalWord w = false := legalWord_eq_false_of_ne (v := 0x00000000#32) (by decide) (by decide) opc other
  exact ⟨(decodeWord_eq_none_iff w).2 illegal, execWord_illegal illegal⟩

/-! ## The `MODE` a command leaves by its own rule -/

/-- The command `i` has left `MODE` `after`, or it has raised a fault of its own rule (rules R158, R203). -/
def endsInOrFaults (i : Instr) (after : Mode) (t : State) : Prop :=
  t.mode = after ∨ (t.mode = .fault ∧ ∃ c ∈ ownCauses i, t.err = c.bits)

theorem endsInOrFaults_raiseFault {i : Instr} {c : Cause} (own : c ∈ ownCauses i) (after : Mode) (w : Word)
    (s : State) : endsInOrFaults i after (raiseFault c w s) :=
  .inr ⟨rfl, c, own, rfl⟩

@[simp] theorem shiftBits_mode (lmax : Nat) (bits : List Bool) (s : State) :
    (shiftBits lmax bits s).1.mode = s.mode := by
  rw [shiftBits_frame]

theorem ctSetEffect_endsInOrFaults (lmax : Nat) (sym : Byte) (len : BitVec 8) (s : State) :
    endsInOrFaults (.ctSet sym len) s.mode (ctSetEffect lmax sym len s) := by
  obtain ⟨-, h⟩ | ⟨-, -, h⟩ | ⟨-, -, h⟩ := ctSetEffect_cases lmax sym len s <;> rw [h]
  · exact endsInOrFaults_raiseFault (by simp [ownCauses]) ..
  · exact endsInOrFaults_raiseFault (by simp [ownCauses]) ..
  · exact .inl rfl

theorem encSymEffect_endsInOrFaults (sym : Byte) (s : State) :
    endsInOrFaults (.encSym sym) s.mode (encSymEffect sym s) := by
  rw [encSymEffect]
  split
  · exact endsInOrFaults_raiseFault (by simp [ownCauses]) ..
  · exact .inl rfl

@[simp] theorem encFinEffect_mode (s : State) : (encFinEffect s).mode = .idle := by
  rw [encFinEffect]
  split <;> rfl

theorem decByteEffect_endsInOrFaults (lmax : Nat) (byte : Byte) (s : State) :
    endsInOrFaults (.decByte byte) s.mode (decByteEffect lmax byte s) := by
  obtain ⟨-, -, h⟩ | ⟨-, -, h⟩ | ⟨-, -, h⟩ | ⟨-, -, -, h⟩ | ⟨-, -, -, h⟩ := decByteEffect_cases lmax byte s <;> rw [h]
  · exact endsInOrFaults_raiseFault (by simp [ownCauses]) ..
  · exact .inl rfl
  · exact .inl rfl
  · exact .inl (shiftBits_mode ..)
  · exact endsInOrFaults_raiseFault (by simp [ownCauses]) ..

theorem decCloseEffect_endsInOrFaults (s : State) : endsInOrFaults .decFin .idle (decCloseEffect s) := by
  obtain ⟨-, h⟩ | ⟨-, h⟩ := decCloseEffect_cases s <;> rw [h]
  · exact endsInOrFaults_raiseFault (by simp [ownCauses]) ..
  · exact .inl rfl

theorem decFinEffect_endsInOrFaults (lmax : Nat) (s : State) :
    endsInOrFaults .decFin .idle (decFinEffect lmax s) := by
  obtain ⟨-, h⟩ | ⟨-, -, -, h⟩ | ⟨-, -, -, h⟩ | ⟨-, -, -, h⟩ | ⟨-, -, -, h⟩ := decFinEffect_cases lmax s <;> rw [h]
  · exact endsInOrFaults_raiseFault (by simp [ownCauses]) ..
  · exact endsInOrFaults_raiseFault (by simp [ownCauses]) ..
  · exact decCloseEffect_endsInOrFaults s
  · exact decCloseEffect_endsInOrFaults _
  · exact endsInOrFaults_raiseFault (by simp [ownCauses]) ..

/-- The `MODE` that a command performed in `MODE` `m` leaves if it raises no fault of its own (rule R158). -/
def modeAfter (i : Instr) (m : Mode) : Mode :=
  match i with
  | .rst | .encFin | .decFin => .idle
  | .encStart => .enc
  | .decStart => .dec
  | .nop | .ctClr | .ctSet _ _ | .encSym _ | .decByte _ => m

theorem effectOf_endsInOrFaults (i : Instr) (s : State) : endsInOrFaults i (modeAfter i s.mode) (effectOf i s) := by
  cases i with
  | nop | rst | ctClr | encStart | decStart => exact .inl rfl
  | ctSet sym len => exact ctSetEffect_endsInOrFaults Config.LMAX sym len s
  | encSym sym => exact encSymEffect_endsInOrFaults sym s
  | encFin => exact .inl (encFinEffect_mode s)
  | decByte byte => exact decByteEffect_endsInOrFaults Config.LMAX byte s
  | decFin => exact decFinEffect_endsInOrFaults Config.LMAX s

/-! ## The table -/

/-- The cells of the table by the checks of `exec`: ignored in `FAULT`, `SEQ` where the command is not permitted, and
otherwise performed. `RST` alone is performed in `FAULT` (rules R96, R158). -/
theorem transition_cases (i : Instr) (m : Mode) :
    (m = .fault ∧ i ≠ .rst ∧ transition i m = .ignored) ∨
    (m ≠ .fault ∧ permittedIn i m = false ∧ transition i m = .seq) ∨
    ((m = .fault → i = .rst) ∧ permittedIn i m = true ∧ transition i m = .ok (modeAfter i m)) := by
  cases i <;> cases m <;> simp [transition, tableRow, permittedIn, modeAfter]

/-- A command that is permitted, and not ignored in `FAULT`, runs its effect. -/
theorem exec_performed {i : Instr} {s : State} (heard : s.mode = .fault → i = .rst)
    (permitted : permittedIn i s.mode = true) : exec i s = .next (effectOf i s) := by
  by_cases inFault : s.mode = .fault
  · rw [heard inFault]
    exact exec_rst s
  · exact exec_permitted inFault permitted

/-- How an illegal word ends in every `MODE`, the last row of the table (rule R158). -/
theorem execWord_of_decodeWord_eq_none {w : Word} (undecoded : decodeWord w = none) (s : State) :
    execWord w s = .next (if s.mode = .fault then s else raiseFault .illCmd w s) := by
  have illegal : legalWord w = false := (decodeWord_eq_none_iff w).1 undecoded
  split
  case isTrue inFault => exact execWord_illegal_in_fault illegal inFault
  case isFalse outside => exact execWord_illegal illegal outside

/-- A write other than to `CMD` writes `CODE` or nothing (rule R63). -/
theorem hostOp_write_mode {bytes off : Nat} {v : Word} {s t : State} (notCmd : off ≠ 0)
    (h : hostOp (.write bytes off v) s = .next t) : t.mode = s.mode := by
  obtain ⟨reset, -⟩ | ⟨_, _, read, -, -⟩ | ⟨_, cmd, -⟩ | ⟨_, _, -, rfl⟩ | ⟨_, _, -, -, rfl⟩ := hostOp_cases h
  · cases reset
  · cases read
  · cases cmd; exact absurd rfl notCmd
  · rfl
  · rfl

/-- Settles O12: each kind of cell by `transition_cases`, the last row, and the register accesses. -/
theorem modeMovesByTheTransitionTable : Obligations.ModeMovesByTheTransitionTable := by
  refine ⟨fun i s => ?cell, fun w s undecoded => execWord_of_decodeWord_eq_none undecoded s,
    fun bytes off s t h => ?read, fun bytes off v s t notCmd h => hostOp_write_mode notCmd h⟩
  case cell =>
    obtain ⟨inFault, not_rst, cell⟩ | ⟨outside, refused, cell⟩ | ⟨heard, permitted, cell⟩ :=
      transition_cases i s.mode <;> rw [cell]
    · exact exec_ignored not_rst inFault
    · exact (exec_eq_issue (by rintro rfl; cases refused) s).trans (issue_refused outside refused)
    · exact ⟨_, exec_performed heard permitted, effectOf_endsInOrFaults i s⟩
  case read =>
    obtain ⟨r, -, rfl⟩ := regAt_of_hostOp_read h
    rfl

end Sys2Proof.Machine
end

section
/-! PROOFS. The containers that host software settles without the block (rules R175, R179): the empty container, and
those rejected by their first byte or for want of a preamble. -/

namespace Sys2Proof.Machine

@[simp] theorem buildTree_nil : buildTree [] = none := rfl

/-- The empty input has no tree, so its container is the one byte 0x00 (rule R175). -/
theorem compress_nil (s : State) : compress s [] = (some [0x00#8], s) := by
  rw [compress, buildTree_nil]

/-! ## `decompress` by the first byte of the container -/

theorem decompress_nil (s : State) : decompress s [] = (none, s) := rfl

theorem decompress_absent (s : State) (tail : List Byte) :
    decompress s (0x00#8 :: tail) = (if tail = [] then some [] else none, s) := rfl

theorem decompress_unknown {b : Byte} (not_absent : b ≠ 0x00#8) (not_present : b ≠ 0x01#8) (s : State)
    (tail : List Byte) : decompress s (b :: tail) = (none, s) := by
  simp only [decompress, if_neg not_absent, if_pos not_present]

theorem decompress_present_alone (s : State) : decompress s [0x01#8] = (none, s) := rfl

/-- Settles O52: the first byte decides, and the block is driven only after a whole preamble. -/
theorem emptyAndUnreadableContainers : Obligations.EmptyAndUnreadableContainers := by
  refine fun s => ⟨compress_nil s, ?empty, decompress_nil s, fun b bs => ?more,
    fun b bs not_absent not_present => decompress_unknown not_absent not_present s bs, decompress_present_alone s⟩
  case empty => rw [decompress_absent, if_pos rfl]
  case more => rw [decompress_absent, if_neg (List.cons_ne_nil b bs)]

end Sys2Proof.Machine
end

section
/-! PROOFS. What `FAULT` keeps (rule R207): the fault record, until `RST` or hardware reset. -/

namespace Sys2Proof.Machine

/-- `t` is in the `MODE` of `s` with the same fault record, `ERR` and `ERRINFO`. -/
def sameFaultRecord (s t : State) : Prop := t.mode = s.mode ∧ t.err = s.err ∧ t.errInfo = s.errInfo

/-- In `FAULT` every word but that of `RST` is ignored, legal or not (rules R96, R207). -/
theorem execWord_ignored {w : Word} {s : State} (not_rst : w ≠ encode .rst) (inFault : s.mode = .fault) :
    execWord w s = .next s := by
  rw [execWord, if_pos inFault, if_neg not_rst]

/-- In `FAULT` a host operation other than `RST` and reset reads a register, writes `CODEk` or does nothing (rule
R207). -/
theorem hostOp_sameFaultRecord {op : HostOp} {s t : State} (inFault : s.mode = .fault) (not_reset : op ≠ .reset)
    (not_rst : op ≠ .write 4 0 (encode .rst)) (answers : hostOp op s = .next t) : sameFaultRecord s t := by
  obtain ⟨reset, -⟩ | ⟨_, _, -, -, rfl⟩ | ⟨w, rfl, runs⟩ | ⟨_, _, -, rfl⟩ | ⟨_, _, -, -, rfl⟩ := hostOp_cases answers
  · exact absurd reset not_reset
  · exact ⟨rfl, rfl, rfl⟩
  · rw [execWord_ignored (fun rst => not_rst (by rw [rst])) inFault] at runs
    cases runs
    exact ⟨rfl, rfl, rfl⟩
  · exact ⟨rfl, rfl, rfl⟩
  · exact ⟨rfl, rfl, rfl⟩

/-- In `FAULT` a step that has neither `RST` nor reset to take keeps the fault record: it offers the bytes still leaving,
or takes an operation that keeps it (rules R82, R207). -/
theorem step_sameFaultRecord {s t : State} (inFault : s.mode = .fault) (steps : step s = .next t)
    (not_reset : ∀ rest, s.pending ≠ .reset :: rest)
    (not_rst : ∀ rest, s.pending ≠ .write 4 0 (encode .rst) :: rest) : sameFaultRecord s t := by
  obtain ⟨-, offers⟩ | ⟨rest, next, -⟩ | ⟨_, _, -, -, -, offers⟩ | ⟨op, rest, next, other, -, takes⟩ := step_cases steps
  · cases offers
    exact ⟨rfl, rfl, rfl⟩
  · exact absurd next (not_reset rest)
  · cases offers
    exact ⟨rfl, rfl, rfl⟩
  · obtain ⟨u, answers, rfl⟩ := handOver_next takes.symm
    have kept : sameFaultRecord { s with pending := rest } u :=
      hostOp_sameFaultRecord inFault other (fun rst => not_rst rest (by rw [next, rst])) answers
    exact kept

/-- Settles O11: `FAULT` ignores every word but that of `RST`, register reads and `CODEk` writes work as in every
`MODE`, and no step but `RST` and reset writes the fault record. -/
theorem faultRecordIsKept : Obligations.FaultRecordIsKept := by
  refine fun s inFault => ⟨fun w not_rst => execWord_ignored not_rst inFault,
    fun off r mapped => hostOp_read_of_regAt mapped s, fun k v => hostOp_writeCode k v s,
    fun t steps not_reset not_rst => ?record⟩
  obtain ⟨mode, err, errInfo⟩ := step_sameFaultRecord inFault steps not_reset not_rst
  exact ⟨mode.trans inFault, err, errInfo⟩

end Sys2Proof.Machine
end

section
/-! PROOFS. The decoder is the inverse of the encoder of command words (rules R92, R95, R101). -/

namespace Sys2Proof.Machine

/-- One row of the decoder: a word that passes the row's test is the encoding of the row's command, and one that does
not is looked at by the rows after it (rule R95). -/
theorem eq_encode_of_row {w : Word} {i j : Instr} {p : Prop} [Decidable p] {later : Option Instr}
    (row : p → w = encode j) (onward : later = some i → w = encode i) :
    (if p then some j else later) = some i → w = encode i := by
  intro decoded
  split at decoded
  case isTrue passes =>
    cases decoded
    exact row passes
  case isFalse => exact onward decoded

/-- A word with the `OPC` and `Z` of `CT.SET` encodes it, with its operands as they stand (rule R92). -/
theorem eq_encode_ctSet {w : Word} (passes : w &&& 0xFF0000FF#32 = 0x00000011#32) :
    w = encode (.ctSet (fieldA w) (fieldB w)) := by
  obtain ⟨opc, -, -, z⟩ := (maskOpcZ_iff _ _).1 passes
  obtain ⟨opc', a, b, z'⟩ := fields_encode (.ctSet (fieldA w) (fieldB w))
  exact word_eq_of_fields (opc.trans opc'.symm) a.symm b.symm (z.trans z'.symm)

/-- A word that passes the test of `ENC.SYM` and `DEC.BYTE` on `OPC`, `B` and `Z` encodes the command with these fields
and the word's operand (rule R92). -/
theorem eq_encode_of_maskOpcBZ {w c : Word} {i : Instr} (opc : fieldOpc (encode i) = fieldOpc c)
    (operand : fieldA (encode i) = fieldA w) (b : fieldB (encode i) = fieldB c) (z : fieldZ (encode i) = fieldZ c)
    (passes : w &&& 0xFFFF00FF#32 = c) : w = encode i := by
  obtain ⟨opc', -, b', z'⟩ := (maskOpcBZ_iff _ _).1 passes
  exact word_eq_of_fields (opc'.trans opc.symm) operand.symm (b'.trans b.symm) (z'.trans z.symm)

theorem eq_encode_encSym {w : Word} : w &&& 0xFFFF00FF#32 = 0x00000021#32 → w = encode (.encSym (fieldA w)) :=
  have ⟨opc, operand, b, z⟩ := fields_encode (.encSym (fieldA w))
  eq_encode_of_maskOpcBZ opc operand b z

theorem eq_encode_decByte {w : Word} : w &&& 0xFFFF00FF#32 = 0x00000031#32 → w = encode (.decByte (fieldA w)) :=
  have ⟨opc, operand, b, z⟩ := fields_encode (.decByte (fieldA w))
  eq_encode_of_maskOpcBZ opc operand b z

/-- A legal word is the encoding of the command it decodes to: row by row of the opcode map (rules R92, R95). -/
theorem eq_encode_of_decodeWord {w : Word} {i : Instr} : decodeWord w = some i → w = encode i :=
  eq_encode_of_row (j := .nop) id <|
  eq_encode_of_row (j := .rst) id <|
  eq_encode_of_row (j := .ctClr) id <|
  eq_encode_of_row eq_encode_ctSet <|
  eq_encode_of_row (j := .encStart) id <|
  eq_encode_of_row eq_encode_encSym <|
  eq_encode_of_row (j := .encFin) id <|
  eq_encode_of_row (j := .decStart) id <|
  eq_encode_of_row eq_encode_decByte <|
  eq_encode_of_row (j := .decFin) id nofun

/-- Settles O1: a word that decodes is that command's encoding, and an encoding decodes to its command. -/
theorem decodeIsInverseOfEncode : Obligations.DecodeIsInverseOfEncode :=
  fun _ i _ => ⟨eq_encode_of_decodeWord, fun encodes => encodes ▸ decodeWord_encode i⟩

end Sys2Proof.Machine
end

section
/-! PROOFS. What a command may emit (rules R37, R126, R146), which causes it may raise (rules R201, R203), and what
entering a fault leaves as it was (rules R204, R205). -/

namespace Sys2Proof.Machine

/-! ## Bytes emitted -/

/-- `OUT` of `t` is that of `s` followed by at most `n` bytes. -/
def emitsAtMost (n : Nat) (s t : State) : Prop := ∃ bytes, t.out = s.out ++ bytes ∧ bytes.length ≤ n

theorem emitsAtMost_of_out_eq {n : Nat} {s t : State} (same : t.out = s.out) : emitsAtMost n s t :=
  ⟨[], by simpa using same, Nat.zero_le n⟩

theorem emitsAtMost.mono {m n : Nat} {s t : State} (emits : emitsAtMost m s t) (le : m ≤ n) : emitsAtMost n s t :=
  emits.imp fun _ ⟨output, length⟩ => ⟨output, length.trans le⟩

/-- Each bit shifted completes one codeword at most (rule R136). -/
theorem scan_matched_length_le (lmax : Nat) (ct : Vector Entry 256) (bits : List Bool) (acc : CodeBits) (n : BitVec 8) :
    (scan lmax ct bits acc n).matched.length ≤ bits.length := by
  induction bits generalizing acc n with
  | nil => exact le_rfl
  | cons x xs ih =>
    by_cases full : n.toNat = lmax
    · rw [scan_full full]
      exact Nat.zero_le _
    · cases found : lookup ct (accPush acc x) (n + 1#8) with
      | some sym =>
        rw [scan_match full found]
        exact Nat.succ_le_succ (ih 0#255 0#8)
      | none =>
        rw [scan_push full found]
        exact (ih _ _).trans (Nat.le_succ _)

theorem shiftBits_emitsAtMost (lmax : Nat) {bits : List Bool} (short : bits.length ≤ 8) (s : State) :
    emitsAtMost 8 s (shiftBits lmax bits s).1 := by
  rw [shiftBits_eq_scan]
  exact ⟨_, rfl, (scan_matched_length_le lmax s.ct bits s.acc s.accLen).trans short⟩

theorem ctSetEffect_out (lmax : Nat) (sym : Byte) (len : BitVec 8) (s : State) :
    (ctSetEffect lmax sym len s).out = s.out := by
  obtain ⟨-, h⟩ | ⟨-, -, h⟩ | ⟨-, -, h⟩ := ctSetEffect_cases lmax sym len s <;> rw [h] <;> rfl

/-- At most 7 pending bits and a codeword of at most `LMAX` fill 32 whole bytes (rule R126). -/
theorem encSymEffect_emitsAtMost (sym : Byte) (s : State) :
    emitsAtMost ((7 + Config.LMAX) / 8) s (encSymEffect sym s) := by
  rw [encSymEffect]
  split
  · exact emitsAtMost_of_out_eq rfl
  · refine ⟨_, appendBits_out .., ?_⟩
    have pending : s.nb.toNat < 8 := s.nb.isLt
    have codeword := len_le_LMAX (entryAt s.ct sym).len
    rw [barrelBytes_length]
    omega

theorem encFinEffect_emitsAtMost (s : State) : emitsAtMost 1 s (encFinEffect s) := by
  by_cases empty : s.nb = 0#3
  · rw [encFinEffect_of_nb_zero empty]
    exact emitsAtMost_of_out_eq rfl
  · rw [encFinEffect_of_nb_ne_zero empty]
    exact ⟨[s.bb], rfl, le_rfl⟩

/-- `DEC.BYTE` shifts the eight bits of the held byte at most (rule R146). -/
theorem decByteEffect_emitsAtMost (lmax : Nat) (byte : Byte) (s : State) :
    emitsAtMost 8 s (decByteEffect lmax byte s) := by
  have shifted : emitsAtMost 8 s (shiftBits lmax (byteBits s.hold) s).1 :=
    shiftBits_emitsAtMost lmax (byteBits_length s.hold).le s
  obtain ⟨-, -, h⟩ | ⟨-, -, h⟩ | ⟨-, -, h⟩ | ⟨-, -, -, h⟩ | ⟨-, -, -, h⟩ := decByteEffect_cases lmax byte s <;> rw [h]
  · exact emitsAtMost_of_out_eq rfl
  · exact emitsAtMost_of_out_eq rfl
  · exact emitsAtMost_of_out_eq rfl
  · exact shifted
  · exact shifted

@[simp] theorem decCloseEffect_out (s : State) : (decCloseEffect s).out = s.out := by
  obtain ⟨-, h⟩ | ⟨-, h⟩ := decCloseEffect_cases s <;> rw [h]
  rfl

/-- `DEC.FIN` shifts the eight bits of the held byte at most (rule R146). -/
theorem decFinEffect_emitsAtMost (lmax : Nat) (s : State) : emitsAtMost 8 s (decFinEffect lmax s) := by
  have shifted : emitsAtMost 8 s (shiftBits lmax (lastBits s) s).1 :=
    shiftBits_emitsAtMost lmax ((List.length_take_le' ..).trans (byteBits_length s.hold).le) s
  obtain ⟨-, h⟩ | ⟨-, -, -, h⟩ | ⟨-, -, -, h⟩ | ⟨-, -, -, h⟩ | ⟨-, -, -, h⟩ := decFinEffect_cases lmax s <;> rw [h]
  · exact emitsAtMost_of_out_eq rfl
  · exact emitsAtMost_of_out_eq rfl
  · exact emitsAtMost_of_out_eq (decCloseEffect_out s)
  · rwa [emitsAtMost, decCloseEffect_out]
  · exact shifted

theorem effectOf_emitsAtMost (i : Instr) (s : State) : emitsAtMost (emitBound i) s (effectOf i s) := by
  cases i with
  | nop | rst | ctClr | encStart | decStart => exact emitsAtMost_of_out_eq rfl
  | ctSet sym len => exact emitsAtMost_of_out_eq (ctSetEffect_out Config.LMAX sym len s)
  | encSym sym => exact encSymEffect_emitsAtMost sym s
  | encFin => exact encFinEffect_emitsAtMost s
  | decByte byte => exact decByteEffect_emitsAtMost Config.LMAX byte s
  | decFin => exact decFinEffect_emitsAtMost Config.LMAX s

/-- Settles O28: a command that does not run its effect emits nothing, and each effect keeps its bound. -/
theorem commandsEmitAtMostTheirBound : Obligations.CommandsEmitAtMostTheirBound := by
  intro i s t h
  obtain ⟨-, -, rfl⟩ | ⟨-, -, rfl⟩ | ⟨-, -, rfl⟩ | ⟨-, -, rfl⟩ := exec_cases h
  · exact emitsAtMost_of_out_eq rfl
  · exact emitsAtMost_of_out_eq rfl
  · exact effectOf_emitsAtMost i s
  · exact emitsAtMost_of_out_eq rfl

/-! ## The causes a command raises -/

/-- Outside `FAULT` no command that raises no fault leaves `MODE` in `FAULT` (rule R158). -/
theorem modeAfter_ne_fault (i : Instr) {m : Mode} (outside : m ≠ .fault) : modeAfter i m ≠ .fault := by
  cases i with
  | nop | ctClr | ctSet | encSym | decByte => exact outside
  | rst | encStart | encFin | decStart | decFin => nofun

/-- Settles O13: `SEQ` for a command not permitted, and for one that is permitted the causes of its own rule. -/
theorem commandsRaiseOnlyTheirCauses : Obligations.CommandsRaiseOnlyTheirCauses := by
  refine ⟨fun i s outside refused => ?seq, fun i s t outside h faults => ?causes⟩
  case seq =>
    have not_rst : i ≠ .rst := by rintro rfl; cases refused
    rw [exec_eq_issue not_rst, issue_refused outside refused]
    rfl
  case causes =>
    obtain ⟨inFault, -, -⟩ | ⟨-, refused, rfl⟩ | ⟨-, permitted, rfl⟩ | ⟨inFault, -, -⟩ := exec_cases h
    · exact absurd inFault outside
    · exact .inl ⟨refused, rfl⟩
    · obtain stays | ⟨-, own⟩ := effectOf_endsInOrFaults i s
      · exact absurd (stays.symm.trans faults) (modeAfter_ne_fault i outside)
      · exact .inr ⟨permitted, own⟩
    · exact absurd inFault outside

/-! ## Entering a fault -/

/-- `t` is `s` in the fault that the command `i` raised, after nothing but shifted bits, and those only for a cause that
comes after shifting (rules R204, R205). -/
def raisedBy (i : Instr) (s t : State) : Prop :=
  ∃ c u, t = raiseFault c (encode i) u ∧ sameButAcc s u ∧ (c = .unmatched ∨ c = .accOvf ∨ u = s)

theorem raisedBy_raiseFault (i : Instr) (c : Cause) (s : State) : raisedBy i s (raiseFault c (encode i) s) :=
  ⟨c, s, rfl, sameButAcc_refl s, .inr (.inr rfl)⟩

theorem raisedBy_accOvf (i : Instr) (lmax : Nat) (bits : List Bool) (s : State) :
    raisedBy i s (raiseFault .accOvf (encode i) (shiftBits lmax bits s).1) :=
  ⟨.accOvf, _, rfl, shiftBits_sameButAcc lmax bits s, .inr (.inl rfl)⟩

section
variable {s : State} (outside : s.mode ≠ .fault)
include outside

theorem ctSetEffect_raisedBy {lmax : Nat} {sym : Byte} {len : BitVec 8}
    (faults : (ctSetEffect lmax sym len s).mode = .fault) :
    raisedBy (.ctSet sym len) s (ctSetEffect lmax sym len s) := by
  obtain ⟨-, h⟩ | ⟨-, -, h⟩ | ⟨-, -, h⟩ := ctSetEffect_cases lmax sym len s <;> rw [h] at faults ⊢
  · exact raisedBy_raiseFault _ _ s
  · exact raisedBy_raiseFault _ _ s
  · exact absurd faults outside

theorem encSymEffect_raisedBy {sym : Byte} (faults : (encSymEffect sym s).mode = .fault) :
    raisedBy (.encSym sym) s (encSymEffect sym s) := by
  rw [encSymEffect] at faults ⊢
  by_cases empty : (entryAt s.ct sym).len = 0#8
  · rw [if_pos empty]
    exact raisedBy_raiseFault _ _ s
  · rw [if_neg empty] at faults
    exact absurd faults outside

theorem decByteEffect_raisedBy {lmax : Nat} {byte : Byte} (faults : (decByteEffect lmax byte s).mode = .fault) :
    raisedBy (.decByte byte) s (decByteEffect lmax byte s) := by
  obtain ⟨-, -, h⟩ | ⟨-, -, h⟩ | ⟨-, -, h⟩ | ⟨-, -, -, h⟩ | ⟨-, -, -, h⟩ := decByteEffect_cases lmax byte s <;>
    rw [h] at faults ⊢
  · exact raisedBy_raiseFault _ _ s
  · exact absurd faults outside
  · exact absurd faults outside
  · exact absurd ((shiftBits_mode ..).symm.trans faults) outside
  · exact raisedBy_accOvf _ lmax _ s

end

/-- The close of a decode session raises `UNMATCHED` or ends in `IDLE` (rule R139). -/
theorem decCloseEffect_raisedBy {s u : State} (shifted : sameButAcc s u) (faults : (decCloseEffect u).mode = .fault) :
    raisedBy .decFin s (decCloseEffect u) := by
  obtain ⟨-, h⟩ | ⟨-, h⟩ := decCloseEffect_cases u <;> rw [h] at faults ⊢
  · exact ⟨.unmatched, u, rfl, shifted, .inl rfl⟩
  · cases faults

theorem decFinEffect_raisedBy {lmax : Nat} {s : State} (faults : (decFinEffect lmax s).mode = .fault) :
    raisedBy .decFin s (decFinEffect lmax s) := by
  obtain ⟨-, h⟩ | ⟨-, -, -, h⟩ | ⟨-, -, -, h⟩ | ⟨-, -, -, h⟩ | ⟨-, -, -, h⟩ := decFinEffect_cases lmax s <;>
    rw [h] at faults ⊢
  · exact raisedBy_raiseFault _ _ s
  · exact raisedBy_raiseFault _ _ s
  · exact decCloseEffect_raisedBy (sameButAcc_refl s) faults
  · exact decCloseEffect_raisedBy (shiftBits_sameButAcc lmax _ s) faults
  · exact raisedBy_accOvf _ lmax _ s

theorem effectOf_raisedBy {i : Instr} {s : State} (outside : s.mode ≠ .fault)
    (faults : (effectOf i s).mode = .fault) : raisedBy i s (effectOf i s) := by
  cases i with
  | nop | ctClr => exact absurd faults outside
  | rst | encStart | decStart => cases faults
  | ctSet sym len => exact ctSetEffect_raisedBy outside faults
  | encSym sym => exact encSymEffect_raisedBy outside faults
  | encFin => cases (encFinEffect_mode s).symm.trans faults
  | decByte byte => exact decByteEffect_raisedBy outside faults
  | decFin => exact decFinEffect_raisedBy faults

/-- A command outside `FAULT` that ends in it has raised a fault there (rule R204). -/
theorem exec_raisedBy {i : Instr} {s t : State} (outside : s.mode ≠ .fault) (h : exec i s = .next t)
    (faults : t.mode = .fault) : raisedBy i s t := by
  obtain ⟨inFault, -, -⟩ | ⟨-, -, rfl⟩ | ⟨-, -, rfl⟩ | ⟨inFault, -, -⟩ := exec_cases h
  · exact absurd inFault outside
  · exact raisedBy_raiseFault i .seq s
  · exact effectOf_raisedBy outside faults
  · exact absurd inFault outside

theorem bits_ne_zero (c : Cause) : c.bits ≠ 0#4 := by cases c <;> decide

/-- Settles O14: the fault is `raiseFault` of the state itself, or of one in which bits were shifted. -/
theorem faultEntryWritesOnlyTheRecord : Obligations.FaultEntryWritesOnlyTheRecord := by
  intro i s t outside h faults
  obtain ⟨c, u, rfl, shifted, late⟩ := exec_raisedBy outside h faults
  obtain ⟨-, ct, code, done, pad, -, -, nb, bb, hdr, dpad, holdV, hold, out, -⟩ := sameButAcc_fields shifted
  refine ⟨rfl, bits_ne_zero c, done, pad, code, ct, nb, bb, hdr, dpad, holdV, hold, out,
    fun not_unmatched not_accOvf => ?record⟩
  obtain rfl | rfl | rfl := late
  · exact absurd rfl not_unmatched
  · exact absurd rfl not_accOvf
  · rfl

end Sys2Proof.Machine
end

section
/-! PROOFS. The invariant of the machine: it holds at reset, every command keeps the block's (rules R24, R30, R32, R34,
R35, R201), and a step leaves no more bytes waiting than one command emits (rules R68, R126, R146). -/

namespace Sys2Proof.Machine

/-! ## What the invariant says of the `MODE` -/

section
variable {b : Block} (inv : b.Inv Config.LMAX)
include inv

/-- Outside `FAULT` no cause is recorded (rule R30). -/
theorem err_eq_zero_of_inv (outside : b.mode ≠ .fault) : b.err = 0#4 :=
  not_not.1 fun recorded => outside (inv.recorded.1 recorded)

/-- A cause is recorded exactly in `FAULT` also in another `MODE` outside it (rule R30). -/
theorem recorded_of_inv (outside : b.mode ≠ .fault) {m : Mode} (outside' : m ≠ .fault) :
    b.err ≠ 0#4 ↔ m = .fault :=
  iff_of_false (not_not.2 (err_eq_zero_of_inv inv outside)) outside'

end

/-! ## Every effect keeps it -/

section
variable {s : State} (inv : s.toBlock.Inv Config.LMAX)
include inv

theorem ctClrEffect_inv : (ctClrEffect s).toBlock.Inv Config.LMAX := { inv with table := tableWf_empty _ }

/-- The entry that `CT.SET` writes has the table's invariant: its value passed the second check (rules R24, R112). -/
theorem ctSetEffect_inv (sym : Byte) (len : BitVec 8) :
    (ctSetEffect Config.LMAX sym len s).toBlock.Inv Config.LMAX := by
  obtain ⟨-, h⟩ | ⟨-, -, h⟩ | ⟨fits, small, h⟩ := ctSetEffect_cases Config.LMAX sym len s <;> rw [h]
  · exact raiseFault_inv inv
  · exact raiseFault_inv inv
  · have written : (BitVec.ofNat 255 s.code.toNat).toNat < 2 ^ len.toNat :=
      (BitVec.toNat_ofNat s.code.toNat 255).trans_lt ((Nat.mod_le ..).trans_lt small)
    exact { inv with table := tableWf_setEntry inv.table sym ⟨fits, written⟩ }

theorem encStartEffect_inv (idle : s.mode = .idle) : (encStartEffect s).toBlock.Inv Config.LMAX :=
  { inv with
    pendingAligned := rfl
    pendingOutside := fun _ => ⟨rfl, rfl⟩
    decoderOutside := fun _ => inv.decoderOutside (.inl idle)
    recorded := recorded_of_inv inv (by rw [idle]; decide) nofun
    notDone := fun _ => rfl }

theorem encSymEffect_inv (enc : s.mode = .enc) (sym : Byte) : (encSymEffect sym s).toBlock.Inv Config.LMAX := by
  rw [encSymEffect]
  split
  · exact raiseFault_inv inv
  · have inSession (other : s.mode = .idle ∨ s.mode = .dec) : False := by simp [enc] at other
    exact { inv with
      pendingAligned := appendBits_pendingWf _ _ s
      pendingOutside := fun other => (inSession other).elim }

theorem encFinEffect_inv (enc : s.mode = .enc) : (encFinEffect s).toBlock.Inv Config.LMAX := by
  have closed (pad : BitVec 3) :
      ({ s.toBlock with pad := pad, nb := 0#3, bb := 0#8, mode := .idle, done := true } : Block).Inv Config.LMAX :=
    { inv with
      pendingAligned := rfl
      pendingOutside := fun _ => ⟨rfl, rfl⟩
      decoderOutside := fun _ => inv.decoderOutside (.inr enc)
      recorded := recorded_of_inv inv (by rw [enc]; decide) nofun
      notDone := by simp }
  rw [encFinEffect]
  split
  · exact closed _
  · exact closed _

theorem decStartEffect_inv (idle : s.mode = .idle) : (decStartEffect s).toBlock.Inv Config.LMAX :=
  { inv with
    pendingOutside := fun _ => inv.pendingOutside (.inl idle)
    header := fun _ => rfl
    noHold := fun _ => rfl
    holdAfterHeader := nofun
    accBound := Nat.two_pow_pos 0
    accLenBound := Nat.zero_le _
    decoderOutside := fun _ => ⟨rfl, rfl⟩
    recorded := recorded_of_inv inv (by rw [idle]; decide) nofun
    notDone := fun _ => rfl }

/-- A payload byte held after the header, in a decode session (rules R35, R138). -/
theorem holdByte_inv (dec : s.mode = .dec) (hdr : s.hdr = true) (byte : Byte) :
    (holdByte byte s).toBlock.Inv Config.LMAX :=
  { inv with
    noHold := nofun
    holdAfterHeader := fun _ => hdr
    decoderOutside := fun other => by simp [dec] at other }

theorem decByteEffect_inv (dec : s.mode = .dec) (byte : Byte) :
    (decByteEffect Config.LMAX byte s).toBlock.Inv Config.LMAX := by
  have shifted := shiftBits_inv inv dec (byteBits s.hold)
  obtain ⟨-, -, h⟩ | ⟨-, -, h⟩ | ⟨hdr, -, h⟩ | ⟨hdr, -, -, h⟩ | ⟨-, -, -, h⟩ :=
    decByteEffect_cases Config.LMAX byte s <;> rw [h]
  · exact raiseFault_inv inv
  · exact { inv with
      header := nofun
      holdAfterHeader := fun _ => rfl }
  · exact holdByte_inv inv dec hdr byte
  · exact holdByte_inv shifted ((shiftBits_mode ..).trans dec) (by rw [shiftBits_frame]; exact hdr) byte
  · exact raiseFault_inv shifted

theorem decCloseEffect_inv (dec : s.mode = .dec) : (decCloseEffect s).toBlock.Inv Config.LMAX := by
  obtain ⟨-, h⟩ | ⟨clear, h⟩ := decCloseEffect_cases s <;> rw [h]
  · exact raiseFault_inv inv
  · exact { inv with
      pendingOutside := fun _ => inv.pendingOutside (.inr dec)
      noHold := fun _ => rfl
      holdAfterHeader := nofun
      decoderOutside := fun _ => ⟨rfl, clear⟩
      recorded := recorded_of_inv inv (by rw [dec]; decide) nofun
      notDone := by simp }

theorem decFinEffect_inv (dec : s.mode = .dec) : (decFinEffect Config.LMAX s).toBlock.Inv Config.LMAX := by
  have shifted := shiftBits_inv inv dec (lastBits s)
  obtain ⟨-, h⟩ | ⟨-, -, -, h⟩ | ⟨-, -, -, h⟩ | ⟨-, -, -, h⟩ | ⟨-, -, -, h⟩ := decFinEffect_cases Config.LMAX s <;>
    rw [h]
  · exact raiseFault_inv inv
  · exact raiseFault_inv inv
  · exact decCloseEffect_inv inv dec
  · exact decCloseEffect_inv shifted ((shiftBits_mode ..).trans dec)
  · exact raiseFault_inv shifted

/-- A command in a `MODE` that permits it keeps the invariant. -/
theorem effectOf_inv {i : Instr} (permitted : permittedIn i s.mode = true) :
    (effectOf i s).toBlock.Inv Config.LMAX := by
  cases i with
  | nop => exact inv
  | rst => exact resetWith_inv s.ct inv.table
  | ctClr => exact ctClrEffect_inv inv
  | ctSet sym len => exact ctSetEffect_inv inv sym len
  | encStart => exact encStartEffect_inv inv (beq_iff_eq.1 permitted)
  | encSym sym => exact encSymEffect_inv inv (beq_iff_eq.1 permitted) sym
  | encFin => exact encFinEffect_inv inv (beq_iff_eq.1 permitted)
  | decStart => exact decStartEffect_inv inv (beq_iff_eq.1 permitted)
  | decByte byte => exact decByteEffect_inv inv (beq_iff_eq.1 permitted) byte
  | decFin => exact decFinEffect_inv inv (beq_iff_eq.1 permitted)

/-! ## Every operation and every step keeps it -/

theorem exec_inv {i : Instr} {t : State} (h : exec i s = .next t) : t.toBlock.Inv Config.LMAX := by
  obtain ⟨-, -, rfl⟩ | ⟨-, -, rfl⟩ | ⟨-, permitted, rfl⟩ | ⟨-, -, rfl⟩ := exec_cases h
  · exact inv
  · exact raiseFault_inv inv
  · exact effectOf_inv inv permitted
  · exact resetWith_inv s.ct inv.table

theorem hostOp_inv {op : HostOp} {t : State} (answers : hostOp op s = .next t) : t.toBlock.Inv Config.LMAX := by
  obtain ⟨-, rfl⟩ | ⟨_, _, -, -, rfl⟩ | ⟨w, -, runs⟩ | ⟨_, _, -, rfl⟩ | ⟨_, _, -, -, rfl⟩ := hostOp_cases answers
  · exact resetWith_inv _ (tableWf_empty _)
  · exact inv
  · obtain ⟨-, -, rfl⟩ | ⟨-, -, rfl⟩ | ⟨i, -, executes, -⟩ := execWord_cases runs
    · exact inv
    · exact raiseFault_inv inv
    · exact exec_inv inv executes
  · exact { inv with }
  · exact inv

end

theorem emitBound_le_emitLimit (i : Instr) : emitBound i ≤ emitLimit := by
  cases i with
  | nop | rst | ctClr | ctSet | encStart | decStart => exact Nat.zero_le _
  | encSym => exact le_max_right ..
  | encFin => exact (by decide : 1 ≤ emitLimit)
  | decByte | decFin => exact le_max_left ..

/-- A host operation emits no more than one command does (rules R126, R146). -/
theorem hostOp_emitsAtMost {op : HostOp} {s t : State} (answers : hostOp op s = .next t) :
    emitsAtMost emitLimit s t := by
  obtain ⟨-, rfl⟩ | ⟨_, _, -, -, rfl⟩ | ⟨w, -, runs⟩ | ⟨_, _, -, rfl⟩ | ⟨_, _, -, -, rfl⟩ := hostOp_cases answers
  · exact emitsAtMost_of_out_eq rfl
  · exact emitsAtMost_of_out_eq rfl
  · obtain ⟨-, -, rfl⟩ | ⟨-, -, rfl⟩ | ⟨i, -, executes, -⟩ := execWord_cases runs
    · exact emitsAtMost_of_out_eq rfl
    · exact emitsAtMost_of_out_eq rfl
    · exact emitsAtMost.mono (commandsEmitAtMostTheirBound i s t executes) (emitBound_le_emitLimit i)
  · exact emitsAtMost_of_out_eq rfl
  · exact emitsAtMost_of_out_eq rfl

theorem offer_leaving_length_le (s : State) : (offer s).leaving.length ≤ s.leaving.length := by
  rw [offer_leaving, List.length_drop]
  exact Nat.sub_le ..

/-- Settles O39: the reset values, and no byte waits. -/
theorem resetSatisfiesTheInvariant : Obligations.ResetSatisfiesTheInvariant :=
  ⟨resetWith_inv _ (tableWf_empty _), Nat.zero_le _⟩

/-- Settles O40: offering leaves the block and waits for no more bytes, and an operation taken keeps the block's
invariant and emits no more than one command. -/
theorem everyStepKeepsTheInvariant : Obligations.EveryStepKeepsTheInvariant := by
  rintro s t ⟨inv, bound⟩ steps
  have offered : (offer s).Inv := ⟨inv, (offer_leaving_length_le s).trans bound⟩
  obtain ⟨-, offers⟩ | ⟨_, -, resets⟩ | ⟨_, _, -, -, -, offers⟩ | ⟨op, rest, -, -, -, takes⟩ := step_cases steps
  · cases offers
    exact offered
  · cases resets
    exact resetSatisfiesTheInvariant
  · cases offers
    exact offered
  · obtain ⟨u, answers, rfl⟩ := handOver_next takes.symm
    obtain ⟨bytes, output, length⟩ := hostOp_emitsAtMost answers
    have kept : u.toBlock.Inv Config.LMAX := hostOp_inv (s := { s with pending := rest }) inv answers
    refine ⟨kept, (offer_leaving_length_le _).trans ?_⟩
    rw [emittedSince_of_append (s := s) output]
    exact length

end Sys2Proof.Machine
end

section
/-! PROOFS. The step of the closed system (rules R9, R10, R40, R68, R82, R217, R230): what it does when idle, when held
and when it takes an operation, and that a hold ends. -/

namespace Sys2Proof.Machine

/-! ## Reset and the idle block -/

/-- Settles O6: the step is hardware reset. -/
theorem resetKeepsTheBytesHandedOver : Obligations.ResetKeepsTheBytesHandedOver :=
  ⟨fun _ _ next => step_of_pending_reset next, rfl, rfl⟩

/-- Settles O45: the idle block offers nothing. -/
theorem idleBlockKeepsItsState : Obligations.IdleBlockKeepsItsState := by
  intro s idle empty
  rw [step, hostStep, idle]
  exact congrArg Host.Outcome.next (offer_of_leaving_nil empty)

/-! ## The held block -/

/-- While a byte waits and no reset is next, the step offers the waiting bytes (rule R82). -/
theorem step_of_held {s : State} (held : s.leaving ≠ []) (not_reset : ∀ rest, s.pending ≠ .reset :: rest) :
    step s = .next (offer s) := by
  obtain ⟨-, offers⟩ | ⟨rest, next, -⟩ | ⟨_, _, -, -, -, offers⟩ | ⟨_, _, -, -, empty, -⟩ :=
    step_cases (rfl : step s = step s)
  · exact offers
  · exact absurd next (not_reset rest)
  · exact offers
  · exact absurd empty held

/-- Settles O43: the step offers the waiting bytes, of which the sink accepts the first ones. -/
theorem heldBlockOnlyOffersItsBytes : Obligations.HeldBlockOnlyOffersItsBytes := by
  intro s held not_reset
  exact ⟨_, _, _, (List.take_append_drop _ _).symm, step_of_held held not_reset, offer_all_or_shorter s⟩

/-- A hold ends within one step more than the sink has answers to come (rules R82, R247). -/
theorem hold_ends {s : State} (not_reset : ∀ rest, s.pending ≠ .reset :: rest) :
    ∃ n t, n ≤ s.sink.length + 1 ∧ Sys2Proof.core.run n s = .next t ∧ t.leaving = [] ∧ t.toBlock = s.toBlock ∧
      t.out = s.out ++ s.leaving ∧ t.pending = s.pending ∧ t.reads = s.reads := by
  induction answers : s.sink.length using Nat.strongRecOn generalizing s with
  | ind answersLeft ih =>
    by_cases empty : s.leaving = []
    · exact ⟨0, s, Nat.zero_le _, rfl, empty, rfl, by rw [empty, List.append_nil], rfl, rfl⟩
    have first (n : Nat) := core_run_succ n (step_of_held empty not_reset)
    have output := offer_out_append_leaving s
    obtain handed | shorter := offer_all_or_shorter s
    · rw [handed, List.append_nil] at output
      exact ⟨1, offer s, Nat.le_add_left .., first 0, handed, rfl, output, rfl, rfl⟩
    · obtain ⟨n, t, steps, runs, handed, block, output', pending, reads⟩ :=
        ih _ (answers ▸ shorter) (s := offer s) not_reset rfl
      exact ⟨n + 1, t, by omega, (first n).trans runs, handed, block, output'.trans output, pending, reads⟩

/-- Settles O44: each step of the hold hands over every byte or uses up an answer of the sink. -/
theorem everyHoldEnds : Obligations.EveryHoldEnds := fun _ not_reset => hold_ends not_reset

/-! ## Taking an operation -/

/-- An operation next is taken when it is reset or no byte waits (rules R82, R230). -/
theorem step_of_pending {op : HostOp} {rest : List HostOp} {s : State} (next : s.pending = op :: rest)
    (free : op = .reset ∨ s.leaving = []) : step s = takeOp op { s with pending := rest } := by
  rw [step, hostStep, next]
  cases op with
  | reset => rfl
  | read bytes off => exact if_pos (free.resolve_left nofun)
  | write bytes off v => exact if_pos (free.resolve_left nofun)

/-- What a step that takes an operation answers, by the block's step (rules R9, R40). -/
theorem step_of_blockStep {op : HostOp} {rest : List HostOp} {s : State} {r : StepResult}
    (next : s.pending = op :: rest) (free : op = .reset ∨ s.leaving = []) (takes : blockStep op s.toBlock = .next r) :
    step s = .next (offer { s with toBlock := r.block, leaving := r.emitted, pending := rest,
                                   reads := s.reads ++ r.read.toList }) := by
  rw [step_of_pending next free, takeOp, takes]

theorem step_of_blockStep_refused {op : HostOp} {rest : List HostOp} {s : State} {e : Refusal}
    (next : s.pending = op :: rest) (free : op = .reset ∨ s.leaving = [])
    (refuses : blockStep op s.toBlock = .refused e) : step s = .refused e := by
  rw [step_of_pending next free, takeOp, refuses]

/-- Settles O54: the step is `takeOp`, which hands the operation and the block alone to `blockStep`. -/
theorem blockStepTakesTheOperation : Obligations.BlockStepTakesTheOperation := by
  refine ⟨fun op rest s next free => ⟨fun r takes => ?takes, fun e refuses => ?refuses⟩, fun b => rfl⟩
  case takes => exact ⟨_, step_of_blockStep next free takes, rfl, offer_out_append_leaving _, rfl, rfl⟩
  case refuses => exact step_of_blockStep_refused next free refuses

/-! ## A step that runs a command -/

/-- A host operation other than reset answers a next state exactly where the block's step does, and it leaves the sink,
the operations to come and the bytes leaving as they were (rules R9, R40). -/
theorem hostOp_next_iff_blockStep {op : HostOp} (not_reset : op ≠ .reset) {s t : State} :
    hostOp op s = .next t ↔ ∃ r, blockStep op s.toBlock = .next r ∧
      t = { s with toBlock := r.block, out := s.out ++ r.emitted, reads := s.reads ++ r.read.toList } := by
  rw [hostOp_eq_blockStep not_reset]
  cases blockStep op s.toBlock with
  | next r => simp [eq_comm]
  | fault f => simp
  | refused e => simp

/-- With a sink that is ready every byte offered is handed over (rule R82). -/
theorem offer_of_sink_nil {s : State} (ready : s.sink = []) :
    offer s = { s with out := s.out ++ s.leaving, leaving := [] } := by
  have all : sinkAccepts [] s.leaving.length = (s.leaving.length, []) := by cases s.leaving.length <;> rfl
  rw [offer, ready, all, List.take_length, List.drop_length, ← ready]

section
variable {s u : State} (grows : s.out <+: u.out)
include grows

theorem out_append_emittedSince : s.out ++ emittedSince s u = u.out := by
  obtain ⟨bytes, output⟩ := grows
  rw [emittedSince_of_append output.symm, output]

/-- Handing the bytes of an operation over moves them and uses up answers of the sink, and nothing else (rule R68). -/
theorem handOver_frame {t : State} (steps : handOver s (.next u) = .next t) :
    t = { u with out := t.out, leaving := t.leaving, sink := t.sink } ∧ t.out ++ t.leaving = u.out := by
  cases steps
  exact ⟨rfl, (offer_out_append_leaving _).trans (out_append_emittedSince grows)⟩

/-- With a sink that is ready the step of an operation is the operation. -/
theorem handOver_of_sink_nil (ready : u.sink = []) (empty : u.leaving = []) : handOver s (.next u) = .next u := by
  have all := offer_of_sink_nil (s := { u with out := s.out, leaving := emittedSince s u }) ready
  rw [out_append_emittedSince grows, ← empty] at all
  exact congrArg Host.Outcome.next all

end

/-- A step that takes an operation other than reset hands over what the operation emits (rule R68). -/
theorem step_of_pending_eq_handOver {op : HostOp} {rest : List HostOp} {s : State} (next : s.pending = op :: rest)
    (empty : s.leaving = []) (not_reset : op ≠ .reset) :
    step s = handOver s (hostOp op { s with pending := rest }) := by
  rw [step_of_pending next (.inr empty), takeOp_eq_handOver not_reset]
  rfl

/-- A command appends to `OUT`, and leaves the sink and the bytes leaving as they were (rules R37, R40). -/
theorem exec_frame {i : Instr} {s u : State} (h : exec i s = .next u) :
    s.out <+: u.out ∧ u.sink = s.sink ∧ u.leaving = s.leaving := by
  have performs : hostOp (command i) s = .next u := (execWord_encode i s).trans h
  obtain ⟨r, -, rfl⟩ := (hostOp_next_iff_blockStep (op := command i) nofun).1 performs
  exact ⟨List.prefix_append .., rfl, rfl⟩

/-- Settles O4: the step hands over what executing the word gives, and that is `exec` of the command the word decodes
to, or the end of an illegal word. -/
theorem stepRunsTheDecodedCommand : Obligations.StepRunsTheDecodedCommand := by
  intro s w rest next empty
  have steps : step s = handOver s (execWord w { s with pending := rest }) :=
    step_of_pending_eq_handOver next empty nofun
  refine ⟨fun i decodes => ?command, fun undecoded outside => ?illCmd, fun undecoded inFault => ?ignored⟩
  case command =>
    have runs : execWord w { s with pending := rest } = exec i { s with pending := rest } := by
      rw [eq_encode_of_decodeWord decodes, execWord_encode]
    rw [runs] at steps
    refine ⟨steps, fun ready => ?ready, fun t u stepped h => ?anySink⟩
    case ready =>
      obtain ⟨u, h⟩ := exec_next i { s with pending := rest }
      obtain ⟨grows, sink, waiting⟩ := exec_frame h
      rw [steps, h]
      exact handOver_of_sink_nil grows (sink.trans ready) (waiting.trans empty)
    case anySink =>
      rw [steps, h] at stepped
      obtain ⟨grows, -⟩ := exec_frame h
      exact handOver_frame grows stepped
  case illCmd =>
    rw [steps, execWord_of_decodeWord_eq_none undecoded, if_neg outside]
    exact handOver_of_out_eq empty rfl
  case ignored =>
    rw [steps, execWord_of_decodeWord_eq_none undecoded, if_pos inFault]
    exact handOver_of_out_eq empty rfl

/-! ## The record of the output -/

/-- A host operation appends bytes that depend on the block alone (rules R37, R40). -/
theorem hostOp_appends {op : HostOp} {s t : State} (answers : hostOp op s = .next t) :
    ∃ bytes, t.out = s.out ++ bytes ∧
      ∀ out, hostOp op { s with out := out } = .next { t with out := out ++ bytes } := by
  by_cases reset : op = .reset
  · subst reset
    cases answers
    exact ⟨[], (List.append_nil _).symm, fun out => by rw [List.append_nil]; rfl⟩
  · obtain ⟨r, takes, rfl⟩ := (hostOp_next_iff_blockStep reset).1 answers
    exact ⟨r.emitted, rfl, fun out => (hostOp_next_iff_blockStep reset).2 ⟨r, takes, rfl⟩⟩

/-- Settles O41: an operation appends its bytes, and a step hands over some of those that wait. -/
theorem outputOnlyGrows : Obligations.OutputOnlyGrows := by
  refine ⟨fun s t steps => ?_, fun op s t => hostOp_appends⟩
  obtain ⟨-, offers⟩ | ⟨_, -, resets⟩ | ⟨_, _, -, -, -, offers⟩ | ⟨op, rest, -, -, -, takes⟩ := step_cases steps
  · cases offers
    exact offer_out_prefix s
  · cases resets
    exact List.prefix_rfl
  · cases offers
    exact offer_out_prefix s
  · obtain ⟨u, -, rfl⟩ := handOver_next takes.symm
    exact offer_out_prefix { u with out := s.out, leaving := emittedSince s u }

end Sys2Proof.Machine
end

section
/-! PROOFS. The sink's schedule changes no value (rules R19, R68, R82): the closed system simulates the operations
performed one after another, with the bytes waiting counted as put out. -/

namespace Sys2Proof.Machine

/-- The closed system in `s` has done what the plain sequence has done in `t`: the same block, the same values read, and
the bytes handed over and those still waiting are together the output (log entry 10). -/
structure Simulates (s t : State) : Prop where
  block : s.toBlock = t.toBlock
  output : s.out ++ s.leaving = t.out
  reads : s.reads = t.reads

theorem Simulates.offer {s t : State} (sim : Simulates s t) : Simulates (offer s) t :=
  ⟨sim.block, (offer_out_append_leaving s).trans sim.output, sim.reads⟩

/-- A step that takes an operation simulates the complete operation, whatever the sink answers (rules R9, R68). -/
theorem Simulates.take {s t t' : State} {op : HostOp} {rest : List HostOp} (sim : Simulates s t)
    (next : s.pending = op :: rest) (empty : s.leaving = []) (not_reset : op ≠ .reset)
    (answers : hostOp op t = .next t') :
    ∃ s', step s = .next (Machine.offer s') ∧ Simulates s' t' ∧ s'.pending = rest ∧ s'.sink = s.sink := by
  obtain ⟨r, takes, rfl⟩ := (hostOp_next_iff_blockStep not_reset).1 answers
  obtain ⟨block, output, reads⟩ := sim
  rw [empty, List.append_nil] at output
  exact ⟨_, step_of_blockStep next (.inr empty) (block ▸ takes), ⟨rfl, by rw [← output], by rw [← reads]⟩, rfl, rfl⟩

/-- The steps the machine may still need: one for each operation, one for each answer of the sink, and one more while
bytes wait. -/
def stepsLeft (s : State) : Nat := s.pending.length + s.sink.length + if s.leaving = [] then 0 else 1

theorem stepsLeft_of_free {s : State} (empty : s.leaving = []) : stepsLeft s = s.pending.length + s.sink.length := by
  rw [stepsLeft, if_pos empty, Nat.add_zero]

theorem stepsLeft_of_held {s : State} (held : s.leaving ≠ []) :
    stepsLeft s = s.pending.length + s.sink.length + 1 := by
  rw [stepsLeft, if_neg held]

/-- After an offer no more steps are left than the operations and the answers there were before it: the bytes are gone,
or an answer is. -/
theorem stepsLeft_offer_le (s : State) : stepsLeft (offer s) ≤ s.pending.length + s.sink.length := by
  have fewer := sinkAccepts_shorter s.sink s.leaving.length
  by_cases handed : (offer s).leaving = []
  · rw [stepsLeft_of_free handed, offer_pending, offer_sink]
    omega
  · have shorter := (offer_all_or_shorter s).resolve_left handed
    rw [stepsLeft_of_held handed, offer_pending]
    omega

/-- The idle machine stays as it is (rule R217). -/
theorem run_of_idle {s : State} (idle : s.pending = []) (empty : s.leaving = []) (n : Nat) :
    Sys2Proof.core.run n s = .next s := by
  induction n with
  | zero => rfl
  | succ n ih => rw [core_run_succ n (idleBlockKeepsItsState s idle empty), ih]

/-- A sequence that is performed to its end begins with an operation that is answered (rule R75). -/
theorem performAll_cons_next {op : HostOp} {ops : List HostOp} {s t : State}
    (performs : performAll (op :: ops) s = .next t) :
    ∃ u, hostOp op s = .next u ∧ performAll ops u = .next t := by
  cases answers : hostOp op s with
  | next u => exact ⟨u, rfl, (performAll_cons answers ops).symm.trans performs⟩
  | fault f => cases f
  | refused e =>
    rw [performAll, answers] at performs
    cases performs

/-- The machine is idle where the sequence ends, or its next step keeps the simulation and leaves fewer steps. -/
theorem Simulates.idle_or_step {s t final : State} (sim : Simulates s t) (not_reset : ∀ op ∈ s.pending, op ≠ .reset)
    (performs : performAll s.pending t = .next final) :
    (s.pending = [] ∧ s.leaving = [] ∧ t = final) ∨
    ∃ s' t', step s = .next s' ∧ Simulates s' t' ∧ (∀ op ∈ s'.pending, op ≠ .reset) ∧
      performAll s'.pending t' = .next final ∧ stepsLeft s' < stepsLeft s := by
  by_cases empty : s.leaving = []
  · cases next : s.pending with
    | nil =>
      rw [next] at performs
      exact .inl ⟨rfl, empty, Host.Outcome.next.inj performs⟩
    | cons op rest =>
      rw [next] at performs not_reset
      obtain ⟨head, tail⟩ := List.forall_mem_cons.1 not_reset
      obtain ⟨t', answers, performs⟩ := performAll_cons_next performs
      obtain ⟨s', steps, sim', rfl, sink⟩ := sim.take next empty head answers
      have fewer := stepsLeft_offer_le s'
      refine .inr ⟨_, t', steps, sim'.offer, tail, performs, ?_⟩
      rw [stepsLeft_of_free empty, next, ← sink, List.length_cons]
      omega
  · have held : ∀ rest, s.pending ≠ .reset :: rest := fun rest next => not_reset .reset (by rw [next]; simp) rfl
    have fewer := stepsLeft_offer_le s
    refine .inr ⟨_, t, step_of_held empty held, sim.offer, not_reset, performs, ?_⟩
    rw [stepsLeft_of_held empty]
    omega

/-- With enough steps the machine does what the operations do one after another, and hands over every byte. -/
theorem run_simulates {n : Nat} {s t final : State} (sim : Simulates s t)
    (not_reset : ∀ op ∈ s.pending, op ≠ .reset) (performs : performAll s.pending t = .next final)
    (enough : stepsLeft s ≤ n) :
    ∃ u, Sys2Proof.core.run n s = .next u ∧ Simulates u final ∧ u.pending = [] ∧ u.leaving = [] := by
  induction n generalizing s t with
  | zero =>
    obtain ⟨idle, empty, rfl⟩ | ⟨_, _, -, -, -, -, fewer⟩ := sim.idle_or_step not_reset performs
    · exact ⟨s, rfl, sim, idle, empty⟩
    · omega
  | succ n ih =>
    obtain ⟨idle, empty, rfl⟩ | ⟨s', t', steps, sim', not_reset', performs', fewer⟩ :=
      sim.idle_or_step not_reset performs
    · exact ⟨s, run_of_idle idle empty _, sim, idle, empty⟩
    · rw [core_run_succ n steps]
      exact ih sim' not_reset' performs' (by omega)

/-- Settles O42: the machine simulates the sequence from its first state on. -/
theorem sinkScheduleChangesNoValue : Obligations.SinkScheduleChangesNoValue := by
  intro s t not_reset empty performs
  have sim : Simulates s { s with pending := [] } := ⟨rfl, by rw [empty, List.append_nil], rfl⟩
  obtain ⟨u, runs, ⟨block, output, reads⟩, idle, handed⟩ :=
    run_simulates sim not_reset performs (stepsLeft_of_free empty).le
  rw [handed, List.append_nil] at output
  exact ⟨u, runs, block, output, reads, idle, handed⟩

end Sys2Proof.Machine
end

section
/-! PROOFS. The end of a run (rule R248): a `FIN` that raises no fault ends it well when the sink has its last byte
(rule R68). -/

namespace Sys2Proof.Machine

/-- `t` has closed the session of `s`, with the cause record as it was (rules R123, R139). -/
def closes (s t : State) : Prop := t.mode = .idle ∧ t.done = true ∧ t.err = s.err

theorem encFinEffect_closes (s : State) : closes s (encFinEffect s) := by
  rw [encFinEffect]
  split <;> exact ⟨rfl, rfl, rfl⟩

theorem decCloseEffect_closes {s : State} (clean : (decCloseEffect s).mode ≠ .fault) : closes s (decCloseEffect s) := by
  obtain ⟨-, h⟩ | ⟨-, h⟩ := decCloseEffect_cases s <;> rw [h] at clean ⊢
  · exact absurd rfl clean
  · exact ⟨rfl, rfl, rfl⟩

/-- `DEC.FIN` that raises no fault has come to the close of the session (rule R139). -/
theorem decFinEffect_closes {lmax : Nat} {s : State} (clean : (decFinEffect lmax s).mode ≠ .fault) :
    closes s (decFinEffect lmax s) := by
  obtain ⟨-, h⟩ | ⟨-, -, -, h⟩ | ⟨-, -, -, h⟩ | ⟨-, -, -, h⟩ | ⟨-, -, -, h⟩ := decFinEffect_cases lmax s <;>
    rw [h] at clean ⊢
  · exact absurd rfl clean
  · exact absurd rfl clean
  · exact decCloseEffect_closes clean
  · have sameCause : (shiftBits lmax (lastBits s) s).1.err = s.err := by rw [shiftBits_frame]
    obtain ⟨mode, done, err⟩ := decCloseEffect_closes clean
    exact ⟨mode, done, err.trans sameCause⟩
  · exact absurd rfl clean

theorem effectOf_closes {i : Instr} {s : State} (fin : i = .encFin ∨ i = .decFin)
    (clean : (effectOf i s).mode ≠ .fault) : closes s (effectOf i s) := by
  obtain rfl | rfl := fin
  · exact encFinEffect_closes s
  · exact decFinEffect_closes clean

/-- A `FIN` is permitted in a session only, so the run has not ended before it (rules R158, R248). -/
theorem ne_idle_of_fin_permitted {i : Instr} {m : Mode} (fin : i = .encFin ∨ i = .decFin)
    (permitted : permittedIn i m = true) : m ≠ .idle ∧ m ≠ .fault := by
  obtain rfl | rfl := fin <;> rw [beq_iff_eq.1 permitted] <;> exact ⟨nofun, nofun⟩

/-- Settles O53: the step hands over the bytes of the complete command, whose block is that of a run ended well, and a
hold ends with every byte handed over. -/
theorem runEndsWellWhenFinCompletes : Obligations.RunEndsWellWhenFinCompletes := by
  intro i s u rest fin permitted noCause empty next runs clean
  obtain ⟨notIdle, outside⟩ := ne_idle_of_fin_permitted fin permitted
  obtain ⟨mode, done, err⟩ : u.mode = .idle ∧ u.done = true ∧ u.err = 0#4 := by
    cases runs.symm.trans (exec_permitted (s := { s with pending := rest }) outside permitted)
    obtain ⟨mode, done, err⟩ := effectOf_closes fin clean
    exact ⟨mode, done, err.trans noCause⟩
  have performs : hostOp (command i) { s with pending := rest } = .next u := (execWord_encode i _).trans runs
  obtain ⟨r, takes, rfl⟩ := (hostOp_next_iff_blockStep (op := command i) nofun).1 performs
  have well {t : State} (block : t.toBlock = r.block) : t.endedWell ↔ t.leaving = [] := by
    rw [State.endedWell, block]
    exact ⟨fun ended => ended.1, fun handed => ⟨handed, mode, done, err⟩⟩
  obtain ⟨t, takesStep, block, output, -, pending⟩ :=
    (blockStepTakesTheOperation.1 _ rest s next (.inr empty)).1 r takes
  refine ⟨t, takesStep, fun ⟨_, idle, _⟩ => notIdle idle, well block, output, fun not_reset => ?_⟩
  obtain ⟨n, v, steps, holds, handed, sameBlock, output', -⟩ := hold_ends (pending.symm ▸ not_reset)
  have ended := sameBlock.trans block
  exact ⟨n, v, steps, holds, (well ended).2 handed, output'.trans output, congrArg Block.pad ended⟩

end Sys2Proof.Machine
end

section
/-! PROOFS. Loading the table (rules R102, R110, R112, R176, R178): what `CT.SET`, `CT.LOAD` and a whole table of
`CT.LOAD` leave in it. -/

namespace Sys2Proof.Machine

/-! ## `CT.SET` -/

/-- `CT.SET` in `IDLE` of a staged value of at most `len` bits (rule R112). -/
theorem exec_ctSet_of_code_lt {s : State} {sym : Byte} {len : BitVec 8} (idle : s.mode = .idle)
    (small : s.code.toNat < 2 ^ len.toNat) :
    exec (.ctSet sym len) s =
      .next { s with ct := setEntry s.ct sym { len := len, code := BitVec.ofNat 255 s.code.toNat } } := by
  obtain ⟨long, -⟩ | ⟨-, large, -⟩ | ⟨-, -, h⟩ := ctSetEffect_cases Config.LMAX sym len s
  · exact absurd (len_le_LMAX len) (Nat.not_le.2 long)
  · exact absurd small (Nat.not_lt.2 large)
  · rw [exec_ctSet_of_idle idle, h]

/-- Settles O18: the entry written is the staged value with its length. -/
theorem ctSetWritesOneEntry : Obligations.CtSetWritesOneEntry := by
  intro s sym len idle small
  have fits : s.code.toNat < 2 ^ 255 := small.trans_le (Nat.pow_le_pow_right Nat.two_pos (len_le_LMAX len))
  have stored : (BitVec.ofNat 255 s.code.toNat).toNat = s.code.toNat := by
    rw [BitVec.toNat_ofNat, Nat.mod_eq_of_lt fits]
  refine ⟨_, exec_ctSet_of_code_lt idle small, ?_⟩
  rw [entryAt_setEntry_self]
  exact ⟨rfl, stored, congrArg (bitString len.toNat) stored, fun other apart => entryAt_setEntry_ne _ _ apart⟩

/-! ## `CT.LOAD` -/

/-- The writes of the first `k` words of `CODE` from the number `v`, which `LDCODE` makes for all eight (rule R102). -/
def codeWrites (v k : Nat) : List HostOp :=
  (List.range k).map fun j => .write 4 (0x20 + 4 * j) (BitVec.ofNat 32 (v / 2 ^ (32 * j)))

theorem ldCode_eq_codeWrites (w : List Bool) : ldCode w = codeWrites (bitValue w) 8 := rfl

theorem codeWrites_succ (v k : Nat) : codeWrites v (k + 1) =
    codeWrites v k ++ [.write 4 (0x20 + 4 * k) (BitVec.ofNat 32 (v / 2 ^ (32 * k)))] := by
  rw [codeWrites, List.range_succ, List.map_append]
  rfl

/-- A number's word `k` has the number's bits from bit `32k` on. -/
theorem getLsbD_word (v k : Nat) {i : Nat} (low : 32 * k ≤ i) (high : i < 32 * k + 32) :
    (BitVec.ofNat 32 (v / 2 ^ (32 * k))).getLsbD (i - 32 * k) = v.testBit i := by
  have inWord : i - 32 * k < 32 := by omega
  rw [BitVec.getLsbD_ofNat, decide_eq_true inWord, Bool.true_and, Nat.testBit_div_two_pow, Nat.sub_add_cancel low]

/-- The first `k` writes make the low `32k` bits of `CODE` those of the number, and change nothing else (rule R63). -/
theorem performAll_codeWrites (v : Nat) {k : Nat} (words : k ≤ 8) (s : State) :
    ∃ code : Staging, performAll (codeWrites v k) s = .next { s with code := code } ∧
      ∀ i < 32 * k, code.getLsbD i = v.testBit i := by
  induction k with
  | zero => exact ⟨s.code, rfl, fun i none => absurd none (Nat.not_lt_zero i)⟩
  | succ k ih =>
    obtain ⟨code, performs, low⟩ := ih (Nat.le_of_succ_le words)
    refine ⟨setCodeWord code ⟨k, words⟩ (BitVec.ofNat 32 (v / 2 ^ (32 * k))), ?_, fun i below => ?_⟩
    · rw [codeWrites_succ, performAll_append _ _ performs]
      exact performAll_cons (hostOp_writeCode ⟨k, words⟩ _ _) []
    · rw [getLsbD_setCodeWord _ _ _ _ (by omega)]
      split
      case isTrue inWord => exact getLsbD_word v k inWord.1 inWord.2
      case isFalse outside => exact low i (Nat.lt_of_not_le fun above => outside ⟨above, below⟩)

/-- `LDCODE` of at most 255 bits makes `CODE` their value, whatever it held (rules R27, R102). -/
theorem performAll_ldCode {w : List Bool} (short : w.length ≤ 255) (s : State) :
    ∃ code : Staging, performAll (ldCode w) s = .next { s with code := code } ∧ code.toNat = bitValue w := by
  obtain ⟨code, performs, bits⟩ := performAll_codeWrites (bitValue w) (k := 8) le_rfl s
  rw [← ldCode_eq_codeWrites] at performs
  have fits : bitValue w < 2 ^ 256 := (bitValue_lt_acc short).trans (by decide)
  have whole : code = BitVec.ofNat 256 (bitValue w) := BitVec.eq_of_getLsbD_eq fun i inRange => by
    rw [bits i inRange, BitVec.getLsbD_ofNat, decide_eq_true inRange, Bool.true_and]
  exact ⟨code, performs, by rw [whole, BitVec.toNat_ofNat, Nat.mod_eq_of_lt fits]⟩

/-- The table entry of a codeword (rule R23). -/
def entryOf (w : List Bool) : Entry := { len := lenOf w, code := accOf w }

section
variable {w : List Bool} (short : w.length ≤ 255)
include short

theorem entryOf_wf : (entryOf w).wf Config.LMAX := by
  refine ⟨len_le_LMAX _, ?_⟩
  show (accOf w).toNat < 2 ^ (lenOf w).toNat
  rw [accOf_toNat short, lenOf_toNat short]
  exact bitValue_lt w

theorem entryOf_bits : (entryOf w).bits = w := (Entry.holds_accOf (entryOf_wf short) short).1 ⟨rfl, rfl⟩

/-- `CT.LOAD` in `IDLE` writes the entry of the codeword, and its value to `CODE` (rule R102). -/
theorem performAll_ctLoad {s : State} (idle : s.mode = .idle) (sym : Byte) :
    ∃ code : Staging, code.toNat = bitValue w ∧
      performAll (ctLoad sym w) s = .next { s with ct := setEntry s.ct sym (entryOf w), code := code } := by
  obtain ⟨code, performs, value⟩ := performAll_ldCode short s
  have small : code.toNat < 2 ^ (lenOf w).toNat := by
    rw [value, lenOf_toNat short]
    exact bitValue_lt w
  have sets : hostOp (command (.ctSet sym (lenOf w))) { s with code := code } =
      .next { s with ct := setEntry s.ct sym (entryOf w), code := code } := by
    rw [hostOp_command, execWord_encode, exec_ctSet_of_code_lt (s := { s with code := code }) idle small, value]
    rfl
  exact ⟨code, value, (performAll_append _ _ performs).trans (performAll_cons sets [])⟩

end

/-- Settles O21: the entry written is that of the codeword. -/
theorem ctLoadStoresTheCodeword : Obligations.CtLoadStoresTheCodeword := by
  intro s sym w idle short
  obtain ⟨code, value, performs⟩ := performAll_ctLoad short idle sym
  refine ⟨_, performs, ?_, fun other apart => entryAt_setEntry_ne _ _ apart, value, rfl⟩
  rw [entryAt_setEntry_self, entryOf_bits short]

/-! ## A whole table -/

/-- The table with the codewords of the pairs written into it, one after another (rules R176, R178). -/
def loadEntries (ct : Vector Entry 256) (codes : List (Byte × List Bool)) : Vector Entry 256 :=
  codes.foldl (fun ct p => setEntry ct p.1 (entryOf p.2)) ct

theorem loadEntries_cons (ct : Vector Entry 256) (p : Byte × List Bool) (codes : List (Byte × List Bool)) :
    loadEntries ct (p :: codes) = loadEntries (setEntry ct p.1 (entryOf p.2)) codes := rfl

/-- The table that host software loads: the pairs' codewords in an empty table (rules R176, R178). -/
abbrev tableOf (codes : List (Byte × List Bool)) : Vector Entry 256 :=
  loadEntries (Vector.replicate 256 Entry.empty) codes

/-- A symbol that no pair names keeps its entry. -/
theorem entryAt_loadEntries_of_not_mem {codes : List (Byte × List Bool)} {sym : Byte}
    (unnamed : sym ∉ codes.map Prod.fst) (ct : Vector Entry 256) :
    entryAt (loadEntries ct codes) sym = entryAt ct sym := by
  induction codes generalizing ct with
  | nil => rfl
  | cons p codes ih =>
    rw [List.map_cons, List.mem_cons, not_or] at unnamed
    rw [loadEntries_cons, ih unnamed.2, entryAt_setEntry_ne _ _ unnamed.1]

/-- Where the pairs name distinct symbols each has its own codeword afterwards. -/
theorem entryAt_loadEntries_of_mem {codes : List (Byte × List Bool)} (distinct : (codes.map Prod.fst).Nodup)
    {p : Byte × List Bool} (mem : p ∈ codes) (ct : Vector Entry 256) :
    entryAt (loadEntries ct codes) p.1 = entryOf p.2 := by
  induction codes generalizing ct with
  | nil => cases mem
  | cons q codes ih =>
    obtain ⟨unnamed, distinct⟩ := List.nodup_cons.1 distinct
    obtain rfl | mem := List.mem_cons.1 mem
    · rw [loadEntries_cons, entryAt_loadEntries_of_not_mem unnamed, entryAt_setEntry_self]
    · exact ih distinct mem _

section
variable {codes : List (Byte × List Bool)} (sized : ∀ p ∈ codes, 1 ≤ p.2.length ∧ p.2.length ≤ 255)
include sized

theorem loadEntries_wf {ct : Vector Entry 256} (valid : tableWf Config.LMAX ct) :
    tableWf Config.LMAX (loadEntries ct codes) := by
  induction codes generalizing ct with
  | nil => exact valid
  | cons p codes ih =>
    obtain ⟨⟨-, short⟩, sized⟩ := List.forall_mem_cons.1 sized
    exact ih sized (tableWf_setEntry valid p.1 (entryOf_wf short))

theorem tableOf_wf : tableWf Config.LMAX (tableOf codes) := loadEntries_wf sized (tableWf_empty _)

/-- Loading pairs with distinct symbols into an empty table leaves exactly their codewords (rules R176, R178). -/
theorem tableOf_holdsCodes (distinct : (codes.map Prod.fst).Nodup) : holdsCodes (tableOf codes) codes := by
  refine ⟨fun p mem => ?_, fun sym coded => ?_⟩
  · obtain ⟨nonempty, short⟩ := sized p mem
    have bits : (entryAt (tableOf codes) p.1).bits = p.2 := by
      rw [entryAt_loadEntries_of_mem distinct mem, entryOf_bits short]
    refine ⟨hasCode_iff.2 ?_, bits⟩
    rw [bits]
    exact List.ne_nil_of_length_pos nonempty
  · by_contra unnamed
    refine coded ?_
    rw [entryAt_loadEntries_of_not_mem (by simpa using unnamed), entryAt_replicate]
    rfl

theorem performAll_ctLoads {s : State} (idle : s.mode = .idle) :
    ∃ code, performAll (codes.flatMap fun p => ctLoad p.1 p.2) s =
      .next { s with ct := loadEntries s.ct codes, code := code } := by
  induction codes generalizing s with
  | nil => exact ⟨s.code, rfl⟩
  | cons p codes ih =>
    obtain ⟨⟨-, short⟩, sized⟩ := List.forall_mem_cons.1 sized
    obtain ⟨code, -, loads⟩ := performAll_ctLoad short idle p.1
    obtain ⟨last, performs⟩ := ih sized (s := { s with ct := setEntry s.ct p.1 (entryOf p.2), code := code }) idle
    exact ⟨last, (performAll_append _ _ loads).trans performs⟩

/-- Loading a table in `IDLE` makes it `tableOf` the pairs, whatever it was (rules R176, R178). -/
theorem performAll_loadTable {s : State} (idle : s.mode = .idle) :
    ∃ code, performAll (loadTable codes) s = .next { s with ct := tableOf codes, code := code } := by
  have clears : hostOp (command .ctClr) s = .next (ctClrEffect s) := by
    rw [hostOp_command, execWord_encode, exec_ctClr_of_idle idle]
  obtain ⟨code, performs⟩ := performAll_ctLoads sized (s := ctClrEffect s) idle
  exact ⟨code, (performAll_cons clears _).trans performs⟩

end

/-- Settles O46: the table loaded is `tableOf` the pairs. -/
theorem loadedTableHoldsExactlyTheCodes : Obligations.LoadedTableHoldsExactlyTheCodes := by
  intro s codes idle distinct sized
  obtain ⟨code, performs⟩ := performAll_loadTable sized idle
  exact ⟨_, performs, tableOf_holdsCodes sized distinct, tableOf_wf sized, rfl⟩

end Sys2Proof.Machine
end

section
/-! PROOFS. Shadowed symbols (rules R67, R113, R136): the search finds the shadowing codeword first, and the accumulator
is cleared there. -/

namespace Sys2Proof.Machine

/-- Where the codeword of `a` begins that of `b`, and `a` is the lower symbol if they are equal, shifting from an
accumulator that has not come to the end of `a`'s codeword never finds `b` (rules R113, R136). -/
theorem scan_not_mem_of_shadowed {ct : Vector Entry 256} (valid : tableWf Config.LMAX ct) {a b : Byte}
    (coded : hasCode ct a) (begins : (entryAt ct a).bits <+: (entryAt ct b).bits)
    (shadows : (entryAt ct a).len ≠ (entryAt ct b).len ∨ a.toNat < b.toNat) (bits : List Bool) {w : List Bool}
    (short : w.length ≤ 255) (before : ¬ (entryAt ct a).bits <+: w) :
    b ∉ (scan Config.LMAX ct bits (accOf w) (lenOf w)).matched := by
  induction bits generalizing w with
  | nil => exact List.not_mem_nil
  | cons x xs ih =>
    by_cases full : w.length = 255
    · rw [scan_full (lmax := Config.LMAX) ((lenOf_toNat short).trans full)]
      exact List.not_mem_nil
    have longer : (w ++ [x]).length ≤ 255 := by simp; omega
    cases found : lookup ct (accOf (w ++ [x])) (lenOf (w ++ [x])) with
    | none =>
      rw [scan_accOf_none (by omega) found]
      refine ih longer fun reached => ?_
      have whole := (List.prefix_concat_iff.1 reached).resolve_right before
      exact (lookup_accOf_none valid longer).1 found a whole
    | some sym =>
      rw [scan_accOf_some (by omega) found, List.mem_cons, not_or]
      refine ⟨?_, ih (w := []) (by decide) fun empty => hasCode_iff.1 coded (List.prefix_nil.1 empty)⟩
      rintro rfl
      obtain ⟨own, least⟩ := (lookup_accOf_some valid longer).1 found
      have whole := (List.prefix_concat_iff.1 (own ▸ begins)).resolve_right before
      have sameLen : (entryAt ct a).len = (entryAt ct b).len := by
        apply BitVec.eq_of_toNat_eq
        rw [← Entry.bits_length, ← Entry.bits_length, whole, own]
      exact least a (shadows.resolve_left (not_not.2 sameLen)) whole

/-- Settles O37: an empty accumulator has not come to the end of any codeword. -/
theorem shadowedSymbolsAreNeverDecoded : Obligations.ShadowedSymbolsAreNeverDecoded := by
  intro s a b bits valid coded begins shadows acc accLen
  have silent := scan_not_mem_of_shadowed valid coded begins shadows bits (w := []) (by decide)
    fun empty => hasCode_iff.1 coded (List.prefix_nil.1 empty)
  rw [shiftBits_eq_scan, acc, accLen]
  exact ⟨_, rfl, silent⟩

end Sys2Proof.Machine
end

section
/-! PROOFS. The host's trees (rules R166 to R172, R177): their codes, their leaves and their serialisation. -/

namespace Sys2Proof.Machine

/-! ## Serialising and parsing -/

/-- Parsing reads back a serialised tree and leaves the bits after it, given one unit of fuel more than the tree has
bits (rules R172, R177). -/
theorem parseTree_bits (t : CodeTree) (rest : List Bool) {fuel : Nat} (enough : t.bits.length < fuel) :
    parseTree fuel (t.bits ++ rest) = some (t, rest) := by
  induction t generalizing fuel rest with
  | leaf sym =>
    obtain ⟨fuel, rfl⟩ := Nat.exists_eq_succ_of_ne_zero (Nat.ne_of_gt (Nat.zero_lt_of_lt enough))
    have long : ¬ (byteBits sym ++ rest).length < 8 := by simp
    rw [CodeTree.bits, List.cons_append, parseTree, if_neg long, List.take_left' (byteBits_length sym),
      List.drop_left' (byteBits_length sym), ofNat_bitValue_byteBits]
  | node l r ihl ihr =>
    obtain ⟨fuel, rfl⟩ := Nat.exists_eq_succ_of_ne_zero (Nat.ne_of_gt (Nat.zero_lt_of_lt enough))
    rw [CodeTree.bits, List.length_cons, List.length_append] at enough
    rw [CodeTree.bits, List.cons_append, List.append_assoc, parseTree, ihl _ (by omega)]
    simp only [ihr rest (show r.bits.length < fuel by omega)]

/-- Settles O47: the fuel is the number of bits and one. -/
theorem parseInvertsSerialise : Obligations.ParseInvertsSerialise := by
  intro t rest
  refine parseTree_bits t rest ?_
  rw [List.length_append]
  omega

/-! ## The codes of a tree -/

/-- Neither of two bit strings begins the other (rule R16). -/
abbrev Apart (u v : List Bool) : Prop := ¬ u <+: v ∧ ¬ v <+: u

/-- The paths to the leaves of the two subtrees of a node part at the node (rule R171). -/
theorem apart_of_edges (w u v : List Bool) : Apart (w ++ [false] ++ u) (w ++ [true] ++ v) := by
  simp [Apart]

/-- No path to a leaf begins the path to another (rule R171). -/
theorem CodeTree.paths_pairwise_apart (t : CodeTree) (w : List Bool) :
    (t.paths w).Pairwise fun p q => Apart p.2 q.2 := by
  induction t generalizing w with
  | leaf sym => exact List.pairwise_singleton _ _
  | node l r ihl ihr =>
    refine List.pairwise_append.2 ⟨ihl _, ihr _, fun p left q right => ?_⟩
    obtain ⟨u, pathL, -⟩ := (CodeTree.mem_paths _ _ _).1 left
    obtain ⟨v, pathR, -⟩ := (CodeTree.mem_paths _ _ _).1 right
    rw [pathL, pathR]
    exact apart_of_edges w u v

theorem CodeTree.codes_pairwise_apart (t : CodeTree) : t.codes.Pairwise fun p q => Apart p.2 q.2 := by
  cases t with
  | leaf sym => exact List.pairwise_singleton _ _
  | node l r => exact (CodeTree.node l r).paths_pairwise_apart []

theorem CodeTree.codes_symbols (t : CodeTree) : t.codes.map Prod.fst = t.symbols := by
  cases t with
  | leaf sym => rfl
  | node l r => exact (CodeTree.node l r).paths_symbols []

/-- A codeword has at least one bit, and one bit at most for each leaf but one, a lone leaf aside (rule R171). -/
theorem CodeTree.codes_length {t : CodeTree} {p : Byte × List Bool} (mem : p ∈ t.codes) :
    1 ≤ p.2.length ∧ p.2.length ≤ max 1 (t.symbols.length - 1) := by
  cases t with
  | leaf sym =>
    obtain rfl := List.mem_singleton.1 mem
    exact ⟨le_rfl, le_max_left ..⟩
  | node l r =>
    obtain ⟨u, path, reached⟩ := (CodeTree.mem_paths _ _ _).1 mem
    rw [path, List.nil_append]
    have nonempty : u ≠ [] := by
      rintro rfl
      cases reached
    have size : 1 + u.length ≤ (CodeTree.node l r).symbols.length := CodeTree.follow_size reached
    exact ⟨List.length_pos_of_ne_nil nonempty, le_max_of_le_right (by omega)⟩

/-- Settles O48: the codes are the paths to the leaves. -/
theorem treeCodesArePrefixFree : Obligations.TreeCodesArePrefixFree :=
  fun t => ⟨t.codes_pairwise_apart, t.codes_symbols, fun _ => CodeTree.codes_length⟩

/-! ## The tree of an input -/

theorem firstOccurrences_eq_nil {x : List Byte} : firstOccurrences x = [] ↔ x = [] := by
  cases x <;> simp [firstOccurrences]

theorem leafNodes_eq_nil {x : List Byte} : leafNodes x = [] ↔ x = [] := by
  rw [leafNodes, List.map_eq_nil_iff, List.zipIdx_eq_nil_iff, firstOccurrences_eq_nil]

/-- The tree of an input merges the nodes of its symbols, in the order of the priority structure (rules R167, R168). -/
theorem buildTree_spec (x : List Byte) :
    (buildTree x = none ↔ x = []) ∧ ∀ t, buildTree x = some t → t.symbols.Perm (firstOccurrences x) := by
  have sorted := foldr_insertNode_perm (leafNodes x)
  obtain ⟨noTree, leaves⟩ := mergeNodes_spec (leafNodes x).length (leafNodes x).length
    ((leafNodes x).foldr insertNode []) (sorted.length_eq.trans_le (Nat.le_succ _))
  refine ⟨noTree.trans ?_, fun t builds => (leaves t builds).trans ?_⟩
  · rw [← leafNodes_eq_nil]
    exact ⟨fun empty => List.nil_perm.1 (empty ▸ sorted), fun empty => List.perm_nil.1 (empty ▸ sorted)⟩
  · rw [← symbolsUnder_leafNodes]
    exact sorted.flatMap_right _

section
variable {x : List Byte} {t : CodeTree} (builds : buildTree x = some t)
include builds

theorem nodup_symbols_of_buildTree : t.symbols.Nodup :=
  ((buildTree_spec x).2 t builds).nodup_iff.2 (firstOccurrences_nodup x)

theorem mem_symbols_of_buildTree (b : Byte) : b ∈ t.symbols ↔ b ∈ x :=
  (((buildTree_spec x).2 t builds).mem_iff).trans (mem_firstOccurrences x b)

end

/-- Settles O49: the leaves are the first occurrences, in another order. -/
theorem treeLeavesAreTheInputSymbols : Obligations.TreeLeavesAreTheInputSymbols :=
  fun x => ⟨(buildTree_spec x).1, fun _ builds => ⟨nodup_symbols_of_buildTree builds, mem_symbols_of_buildTree builds⟩⟩

/-! ## The codes of an input -/

/-- The codes of an input's tree name its symbols, each once (rules R169, R171). -/
theorem codesOf_buildTree_symbols (x : List Byte) :
    ((codesOf (buildTree x)).map Prod.fst).Nodup ∧ ∀ b, b ∈ (codesOf (buildTree x)).map Prod.fst ↔ b ∈ x := by
  cases builds : buildTree x with
  | none =>
    obtain rfl := (buildTree_spec x).1.1 builds
    exact ⟨List.nodup_nil, fun b => Iff.rfl⟩
  | some root =>
    rw [codesOf, root.codes_symbols]
    exact ⟨nodup_symbols_of_buildTree builds, mem_symbols_of_buildTree builds⟩

/-- No codeword stands twice in the codes of a tree: it would begin itself (rules R169, R171). -/
theorem inverseCodesOf_nodup (root : Option CodeTree) : ((inverseCodesOf root).map Prod.fst).Nodup := by
  have codewords : (inverseCodesOf root).map Prod.fst = (codesOf root).map Prod.snd := by
    rw [inverseCodesOf, List.map_map]
    rfl
  rw [codewords]
  cases root with
  | none => exact List.nodup_nil
  | some t =>
    refine List.pairwise_map.2 (t.codes_pairwise_apart.imp fun apart same => ?_)
    exact apart.1 (same ▸ List.prefix_rfl)

theorem mem_inverseCodesOf {root : Option CodeTree} {sym : Byte} {w : List Bool} :
    (w, sym) ∈ inverseCodesOf root ↔ (sym, w) ∈ codesOf root := by
  simp [inverseCodesOf]

/-- Settles O55: the codes name the leaves of the tree, and the inverse swaps their pairs. -/
theorem codesOfAnInputCoverItsSymbols : Obligations.CodesOfAnInputCoverItsSymbols := by
  refine ⟨rfl, rfl, fun x => ?_, fun root sym w => mem_inverseCodesOf⟩
  obtain ⟨distinct, named⟩ := codesOf_buildTree_symbols x
  refine ⟨distinct, inverseCodesOf_nodup _, fun sym => Iff.trans ?_ (named sym)⟩
  simp

end Sys2Proof.Machine
end

section
/-! PROOFS. The round trip of the host software (rules R18, R176 to R179): `compress` and `decompress` load the same
table from the tree, and the sessions between them are inverse to one another. -/

namespace Sys2Proof.Machine

/-! ## The table of a tree -/

/-- In a table of pairs of which no codeword begins another, no codeword begins another (rules R16, R171). -/
theorem prefixFree_of_holdsCodes {ct : Vector Entry 256} {codes : List (Byte × List Bool)} (holds : holdsCodes ct codes)
    (apart : codes.Pairwise fun p q => Apart p.2 q.2) : prefixFree ct := by
  obtain ⟨stored, only⟩ := holds
  intro a b distinct codedA codedB begins
  obtain ⟨p, memP, rfl⟩ := only a codedA
  obtain ⟨q, memQ, rfl⟩ := only b codedB
  have symmetric : Std.Symm fun p q : Byte × List Bool => Apart p.2 q.2 := ⟨fun _ _ => And.symm⟩
  have different : p ≠ q := fun same => distinct (congrArg Prod.fst same)
  rw [(stored p memP).2, (stored q memQ).2] at begins
  exact (apart.forall memP memQ different).1 begins

section
variable {root : CodeTree} (distinct : root.symbols.Nodup)
include distinct

/-- The codewords of a tree with distinct leaves fit the table: there are 256 symbols (rules R2, R171). -/
theorem codes_sized : ∀ p ∈ root.codes, 1 ≤ p.2.length ∧ p.2.length ≤ 255 := by
  intro p mem
  have leaves := length_le_of_nodup distinct
  obtain ⟨nonempty, short⟩ := CodeTree.codes_length mem
  exact ⟨nonempty, short.trans (by omega)⟩

theorem tableOf_codes_holdsCodes : holdsCodes (tableOf root.codes) root.codes :=
  tableOf_holdsCodes (codes_sized distinct) (by rw [root.codes_symbols]; exact distinct)

theorem tableOf_codes_prefixFree : prefixFree (tableOf root.codes) :=
  prefixFree_of_holdsCodes (tableOf_codes_holdsCodes distinct) root.codes_pairwise_apart

theorem hasCode_tableOf_codes {sym : Byte} (leaf : sym ∈ root.symbols) : hasCode (tableOf root.codes) sym := by
  rw [← root.codes_symbols] at leaf
  obtain ⟨p, mem, rfl⟩ := List.mem_map.1 leaf
  exact ((tableOf_codes_holdsCodes distinct).1 p mem).1

end

/-! ## A table, a session and a register read -/

theorem interleaved_map_command (cmds : List Instr) : Interleaved cmds (cmds.map command) := by
  induction cmds with
  | nil => exact .done
  | cons i cmds ih => exact .cmd ih

/-- What host software makes the block do: load a table, perform the commands of a session and read a register (rules
R176, R179). -/
theorem performAll_driven {codes : List (Byte × List Bool)} {cmds : List Instr} {off : Nat} {r : Reg}
    {s loaded t : State} (loads : performAll (loadTable codes) s = .next loaded)
    (session : performAll (cmds.map command) loaded = .next t) (mapped : regAt off = some r) :
    performAll (loadTable codes ++ cmds.map command ++ [.read 4 off]) s = .next (readReg r t) := by
  rw [performAll_append _ _ ((performAll_append _ _ loads).trans session)]
  exact performAll_cons (hostOp_read_of_regAt mapped t) []

theorem getLast?_reads_readReg (r : Reg) (t : State) :
    (readReg r t).reads.getLast? = some (regView Config.LMAX r t.toBlock) := by
  rw [readReg_reads, List.getLast?_concat]

/-! ## The container -/

/-- The container of a tree, the padding count of the payload and the payload (rules R173, R176). -/
def containerOf (root : CodeTree) (padding : Byte) (payload : List Byte) : List Byte :=
  0x01#8 :: (packBits root.bits).1 :: ((packBits root.bits).2 ++ padding :: payload)

/-- The low byte of the value read from `PAD` is the padding count (rules R31, R62). -/
theorem extractLsb'_padView (b : Block) : (padView b).extractLsb' 0 8 = b.pad.setWidth 8 := by
  apply BitVec.eq_of_toNat_eq
  have small := b.pad.isLt
  simp only [padView, BitVec.extractLsb'_toNat, BitVec.toNat_setWidth, Nat.shiftRight_zero]
  omega

/-- `compress` answers the container of the input's tree and of what the encode session emits (rule R176). -/
theorem compress_of_session {x : List Byte} {root : CodeTree} {s loaded t : State} (builds : buildTree x = some root)
    (loads : performAll (loadTable root.codes) s = .next loaded)
    (session : performAll ((encSession x).map command) loaded = .next t) :
    (compress s x).1 = some (containerOf root (t.pad.setWidth 8) (emittedSince s t)) := by
  have performs := performAll_driven loads session (off := 0x10) (r := .pad) rfl
  have ops : loadTable root.codes ++ [command .encStart] ++ encStr x ++ [command .encFin, .read 4 0x10] =
      loadTable root.codes ++ (encSession x).map command ++ [.read 4 0x10] := by
    simp [encSession, encStr]
  have padding := extractLsb'_padView t.toBlock
  simp only [compress, builds]
  rw [ops, performs]
  simp only [getLast?_reads_readReg, Option.getD_some, regView, padding, emittedSince, readReg_out]
  simp [containerOf]

/-- The preamble of a container gives the tree back, and the bytes after it (rules R173, R177, R178). -/
theorem readPreamble_packBits {root : CodeTree} (distinct : root.symbols.Nodup) (segment : List Byte) :
    readPreamble (packBits root.bits).1 ((packBits root.bits).2 ++ segment) = some (root, segment) := by
  obtain ⟨after, bits⟩ : ∃ after, streamBits ((packBits root.bits).2 ++ segment) = root.bits ++ after :=
    ⟨_, by rw [streamBits_append, streamBits_packBits, padded, List.append_assoc]⟩
  have taken : (root.bits ++ after).length - after.length = root.bits.length := by
    rw [List.length_append, Nat.add_sub_cancel]
  have padding : (packBits root.bits).1.toNat = padCount root.bits.length := by
    have small := padCount_le root.bits.length
    exact (BitVec.toNat_ofNat ..).trans (Nat.mod_eq_of_lt (by omega))
  have bytes : (root.bits.length + 7) / 8 = (packBits root.bits).2.length := by
    rw [packBits_length, padCount]
    omega
  rw [readPreamble, bits, parseInvertsSerialise root after]
  simp only [taken]
  rw [if_pos ⟨padding, distinct⟩, bytes, List.drop_left]

/-- The low two bits of the value read from `STATUS` are `MODE` (rules R29, R62). -/
theorem extractLsb'_regView_status (b : Block) : (regView Config.LMAX .status b).extractLsb' 0 2 = b.mode.bits :=
  statusView_mode b

/-- A decode session that ends outside `FAULT` gives the bytes it emitted (rule R179). -/
theorem decodePayload_of_session {root : CodeTree} {padding : Byte} {payload : List Byte} {u loaded v : State}
    (loads : performAll (loadTable root.codes) u = .next loaded)
    (session : performAll ((decSession padding payload).map command) loaded = .next v) (idle : v.mode = .idle) :
    (decodePayload u root (padding :: payload)).1 = some (emittedSince u v) := by
  have performs := performAll_driven loads session (off := 0x04) (r := .status) rfl
  have ops : loadTable root.codes ++ [command .decStart] ++ decBytes (padding :: payload) ++
      [command .decFin, .read 4 0x04] =
      loadTable root.codes ++ (decSession padding payload).map command ++ [.read 4 0x04] := by
    simp [decSession, decBytes]
  have clean : Mode.idle.bits ≠ Mode.fault.bits := by decide
  rw [decodePayload, ops, performs]
  simp only [getLast?_reads_readReg, Option.getD_some, extractLsb'_regView_status, idle, if_neg clean]
  rfl

/-- `decompress` of a container decodes its payload with the table of its tree (rule R179). -/
theorem decompress_containerOf {root : CodeTree} (distinct : root.symbols.Nodup) (padding : Byte) (payload : List Byte)
    (u : State) :
    decompress u (containerOf root padding payload) = decodePayload u root (padding :: payload) := by
  have present : (0x01#8 : Byte) ≠ 0x00#8 := by decide
  simp only [containerOf, decompress, if_neg present, ne_eq, not_true_eq_false, if_false,
    readPreamble_packBits distinct]

/-- Settles O51: the encode session and the decode session of the container's payload are inverse with the table of the
tree, where no codeword begins another. -/
theorem decompressInvertsCompress : Obligations.DecompressInvertsCompress := by
  intro s u x sIdle uIdle
  cases builds : buildTree x with
  | none =>
    obtain rfl := (buildTree_spec x).1.1 builds
    exact ⟨[0x00#8], by rw [compress_nil], by rw [decompress_absent, if_pos rfl]⟩
  | some root =>
    have distinct := nodup_symbols_of_buildTree builds
    have sized := codes_sized distinct
    have valid : tableWf Config.LMAX (tableOf root.codes) := tableOf_wf sized
    have coded : ∀ sym ∈ x, hasCode (tableOf root.codes) sym := fun sym mem =>
      hasCode_tableOf_codes distinct ((mem_symbols_of_buildTree builds sym).2 mem)
    obtain ⟨sCode, sLoads⟩ := performAll_loadTable sized sIdle
    obtain ⟨uCode, uLoads⟩ := performAll_loadTable sized uIdle
    have encoding := interleaved_map_command (encSession x)
    obtain ⟨t, -, encodes, -⟩ := (encoderSessionPacksTheCodewords
      { s with ct := tableOf root.codes, code := sCode } x sIdle valid coded).1 _ encoding
    obtain ⟨v, decodes, output, idle, -⟩ := decoderInvertsEncoder
      { s with ct := tableOf root.codes, code := sCode } t { u with ct := tableOf root.codes, code := uCode } x _ _
      sIdle valid (tableOf_codes_prefixFree distinct) coded encoding encodes uIdle rfl (interleaved_map_command _)
    refine ⟨_, compress_of_session builds sLoads encodes, ?_⟩
    have payload := decodePayload_of_session uLoads decodes idle
    rw [emittedSince_of_append (s := u) output] at payload
    rw [decompress_containerOf distinct]
    exact payload

end Sys2Proof.Machine
end
